-- ==== Sys2Proof/Word.lean ====
section
/-! DEFINITION. The units of CORE's two buffers and of its streams (R8, R61): a byte is an unsigned 8-bit value, a
stream is a finite sequence of bits, first bit first. -/

namespace Sys2Proof

/-- A byte, bit 7 the most significant (R8, R61). -/
abbrev Byte := BitVec 8

/-- A finite bit sequence, index 0 first (R8, R9). -/
abbrev Bits := List Bool

end Sys2Proof
end

