-- ==== Sys2Proof/Config.lean ====
section
/-! DEFINITION. What an instance fixes (the parameters of R7) and what the spec leaves open (free values without a
body: nothing can be proved of their values). -/

namespace Sys2Proof

/-- The parameters of CORE that R7 marks "argument". -/
structure Params where
  /-- `LEN_W`: width of `IN_LEN`, of every count and of every weight. -/
  lenW : Nat
  /-- `OUT_CAP`: capacity of `OUT` in bytes; `none` is "unbounded". -/
  outCap : Option Nat
  /-- `NODE_CAP`: greatest number of nodes `readTree` accepts. -/
  nodeCap : Nat
  /-- `DEPTH_MAX`: greatest number of nodes on a root-to-leaf path `readTree` accepts. -/
  depthMax : Nat
  deriving DecidableEq, Repr, Inhabited

/-- The defaults of R7. -/
def Params.default : Params := ⟨32, none, 513, 257⟩

/-- `MAX_LEAVES` (R7, fixed). -/
def Config.maxLeaves : Nat := 257

/-- `LEAF_BITS` (R7, fixed): bits of one serialized leaf. -/
def Config.leafBits : Nat := 10

/-- `CODE_MAX` (R7, R183): greatest length in bits of a bitcode. -/
def Config.codeMax : Nat := 256

/-- FREE VALUE (entry 2): what ENGINE reads at an address of `IN` that HOST never wrote, for one command (the era) and
one address (R31, I20, I43). -/
opaque Config.freeIn : Nat → Nat → Byte

/-- FREE VALUE (entries 2, 3): the byte one read by HOST of an unspecified byte of `IN` or `OUT` returns (R302, I20,
I21). -/
opaque Config.freeByte : Nat → Byte

/-- FREE VALUE (entry 4): an unspecified bit counter (R277, I22), before it is cut to its register's width. -/
opaque Config.freeCount : Nat → Nat

end Sys2Proof
end

