-- ==== Sys2Proof/Syntax.lean ====
section
/-! DEFINITION. What CORE decodes from bits (the rows of spec/opcode_table.json) and the data types of R10. -/

namespace Sys2Proof

/-- The six rows of the opcode table: the four `CTRL` commands (R103) and the two stream tokens (R93, R94). `CTRL`
bits 7:2 are ignored (R103) and are no operand. -/
inductive Instr where
  /-- NOP, `xxxxxx00` (R251). -/
  | nop
  /-- ENCODE, `xxxxxx01` (R210). -/
  | encode
  /-- DECODE, `xxxxxx10` (R230). -/
  | decode
  /-- RESERVED, `xxxxxx11` (R252). -/
  | reserved
  /-- TREE_INTERNAL, stream token `0` (R93). -/
  | treeInternal
  /-- TREE_LEAF, stream token `1evvvvvvvv` (R94): the EOB flag and the value. -/
  | treeLeaf (eob : Bool) (value : Byte)
  deriving DecidableEq, Repr

/-- A Huffman tree node (R10, R34): strictly binary, children owned by the parent. -/
inductive Node where
  | leaf (value : Byte) (isEob : Bool)
  | internal (left right : Node)
  deriving DecidableEq, Repr, Inhabited

/-- One entry of the tree builder's working list, HUFF's WeightedEntry (R10, R37). -/
structure Entry where
  node : Node
  weight : Nat
  deriving DecidableEq, Repr, Inhabited

/-- One row of the frequency list (R10, R36). -/
structure FEntry where
  value : Byte
  count : Nat
  isEob : Bool
  deriving DecidableEq, Repr, Inhabited

/-- A bitcode, first bit to be written first (R9, R38, R108). The pair `(len, bits)` of the spec is the list and its
length. -/
abbrev Bitcode := Bits

end Sys2Proof
end

