-- ==== Sys2Proof/WellFormed.lean ====
section
/-! DEFINITION. The checks on syntax and on parameters. Relations between fields of the state are invariants and stand
in Safety.lean. -/

namespace Sys2Proof

/-- A TREE_LEAF token as `writeTree` writes it for an encoder-built tree: an EOB leaf carries the value 0 (R105, R152).
A token that is only read may carry any value there (R105), so this is not asked of a decoded token. -/
def Instr.encoderForm : Instr → Bool
  | .nop | .encode | .decode | .reserved | .treeInternal => true
  | .treeLeaf eob value => !eob || value == 0

/-- Well-formed instructions. Every value of the type is one: all four `CMD` values are defined (R103) and no token is
illegal (R104); the 8 bits of a leaf's value are in its type. -/
def Instr.wf : Instr → Bool
  | .nop | .encode | .decode | .reserved | .treeInternal => true
  | .treeLeaf _ value => decide (value.toNat < 256)

/-- Which of the two encoding spaces an instruction belongs to: `CTRL` commands (R103) or stream tokens (R93, R94). -/
def Instr.isToken : Instr → Bool
  | .nop | .encode | .decode | .reserved => false
  | .treeInternal | .treeLeaf _ _ => true

/-- A bitcode has 1 to 256 bits (R38, R108). -/
def Bitcode.wf (c : Bitcode) : Bool := decide (1 ≤ c.length) && decide (c.length ≤ Config.codeMax)

/-- The operand range of `writeUInt` and `readUInt` (R122, R129). -/
def bitCountOk (n : Nat) : Bool := decide (n ≤ 32)

/-- The legal parameter values (spec/92_eei_decisions.md section 5; I33 refuses the others). -/
def Params.wf (p : Params) : Bool :=
  decide (1 ≤ p.lenW) && decide (513 ≤ p.nodeCap) && decide (257 ≤ p.depthMax)

/-- Number of leaves. -/
def Node.leaves : Node → Nat
  | .leaf _ _ => 1
  | .internal l r => l.leaves + r.leaves

/-- Number of nodes. -/
def Node.size : Node → Nat
  | .leaf _ _ => 1
  | .internal l r => 1 + l.size + r.size

/-- Nodes on the longest root-to-leaf path, the root at 1 (R193, C3). -/
def Node.depth : Node → Nat
  | .leaf _ _ => 1
  | .internal l r => 1 + max l.depth r.depth

/-- Number of leaves with `isEob`. -/
def Node.eobLeaves : Node → Nat
  | .leaf _ e => if e then 1 else 0
  | .internal l r => l.eobLeaves + r.eobLeaves

/-- Values of the non-EOB leaves, left to right. -/
def Node.values : Node → List Byte
  | .leaf v e => if e then [] else [v]
  | .internal l r => l.values ++ r.values

/-- The limits `readTree` enforces (R193). -/
def Node.fits (p : Params) (t : Node) : Bool := decide (t.depth ≤ p.depthMax) && decide (t.size ≤ p.nodeCap)

end Sys2Proof
end

