-- ==== Sys2Proof/Decode.lean ====
section
/-! DEFINITION. From bits to instructions and back: the `CTRL` command format (R103) and the stream tokens (R93 to
R95). Then the encoder, and the word numbering of spec/opcode_table.json. -/

namespace Sys2Proof

/-- Why bits are no instruction. No bit pattern is illegal (R104): a token's bits can only run out or be too many. -/
inductive Rejection where
  /-- The bits end before the token is complete. -/
  | truncatedToken
  /-- Bits follow the token that was asked for alone. -/
  | excessBits
  deriving DecidableEq, Repr

/-- Bits `n - 1` down to 0 of `v`, most significant first (R122). -/
def uintBits (v : Nat) : Nat → Bits
  | 0 => []
  | n + 1 => v.testBit n :: uintBits v n

/-- The unsigned value of a bit sequence, most significant first (R95, R129). -/
def natOfBits (bs : Bits) : Nat := bs.foldl (fun v b => 2 * v + b.toNat) 0

/-- The 8 bits of a byte, most significant first (R62, R95). -/
def byteBits (b : Byte) : Bits := uintBits b.toNat 8

/-- The byte whose bits, most significant first, are given (R62, R95). -/
def byteOfBits (bs : Bits) : Byte := BitVec.ofNat 8 (natOfBits bs)

/-- The command a value written to `CTRL` names: bits 1:0, bits 7:2 ignored (R103). -/
def decodeCtrl (w : Byte) : Instr :=
  match w.toNat % 4 with
  | 0 => .nop
  | 1 => .encode
  | 2 => .decode
  | _ => .reserved

/-- The token at the front of a stream and the rest of the stream (R92 to R95). -/
def decodeToken : Bits → Except Rejection (Instr × Bits)
  | false :: rest => .ok (.treeInternal, rest)
  | true :: e :: v7 :: v6 :: v5 :: v4 :: v3 :: v2 :: v1 :: v0 :: rest =>
    .ok (.treeLeaf e (byteOfBits [v7, v6, v5, v4, v3, v2, v1, v0]), rest)
  | _ => .error .truncatedToken

/-- The bits of an instruction, in the space it belongs to. -/
inductive Encoded where
  /-- A value for `CTRL`. -/
  | ctrl (w : Byte)
  /-- A token's stream bits, first bit first. -/
  | token (bs : Bits)
  deriving DecidableEq, Repr

/-- Decoding, total on any bits. -/
def decode : Encoded → Except Rejection Instr
  | .ctrl w => .ok (decodeCtrl w)
  | .token bs =>
    match decodeToken bs with
    | .ok (i, []) => .ok i
    | .ok (_, _ :: _) => .error .excessBits
    | .error e => .error e

/-- The stream bits of a token (R93, R94); a command has none. -/
def tokenBits : Instr → Bits
  | .treeInternal => [false]
  | .treeLeaf e v => true :: e :: byteBits v
  | .nop | .encode | .decode | .reserved => []

/-- The encoder, from the same tables; the ignored `CTRL` bits are written 0 (R107). -/
def encode : Instr → Encoded
  | .nop => .ctrl 0x00
  | .encode => .ctrl 0x01
  | .decode => .ctrl 0x02
  | .reserved => .ctrl 0x03
  | .treeInternal => .token (tokenBits .treeInternal)
  | .treeLeaf e v => .token (tokenBits (.treeLeaf e v))

/-- The bits an opcode-table word stands for (entry 13). The table numbers a token's LAST stream bit 0 (TREE_LEAF's
marker is bit 9), and has two spaces with words of their own: 8 bits are a `CTRL` value; 1 bit is the table's own width
of TREE_INTERNAL, with zeros in the stream after it; 10 bits, or 16 when counted in whole bytes, are a token. -/
def tableWord (nbits w : Nat) : Option Encoded :=
  if nbits = 8 then some (.ctrl (BitVec.ofNat 8 w))
  else if nbits = 1 then some (.token (w.testBit 0 :: uintBits 0 9))
  else if nbits = 10 ∨ nbits = 16 then some (.token (uintBits w 10))
  else none

/-- What this decoder reads from an opcode-table word. -/
def decodeTableWord (nbits w : Nat) : Option Instr :=
  match tableWord nbits w with
  | some (.ctrl w) => some (decodeCtrl w)
  | some (.token bs) =>
    match decodeToken bs with
    | .ok (i, _) => some i
    | .error _ => none
  | none => none

end Sys2Proof
end

