-- ==== Sys2Proof/Machine/State.lean ====
section
/-! DEFINITION. The state of CORE as plain data: the registers and buffers HOST sees, the sequencer, the transient
context, and (marked so) the model's own fields. -/

namespace Sys2Proof.Machine

/-- The sequencer's phases (R43). Their numeric encoding is never observable (I24). -/
inductive Phase where
  | idle
  | eFreq
  | eBuild
  | eCodes
  | eTree
  | eData
  | eEob
  | eFinish
  | dTree
  | dCheck
  | dWalk
  | done
  | fault
  deriving DecidableEq, Repr, Inhabited

/-- The faults of the SPEC (R10, R270). Each ends a command and leaves a next state in `PH_FAULT`. -/
inductive FaultKind where
  | outOfData
  | malformedDepth
  | malformedCapacity
  | malformedNoEob
  | badCommand
  | outOverflow
  deriving DecidableEq, Repr

/-- A suspended call of `readNode` that waits for a child (R192, R198). -/
inductive Frame where
  /-- The left child is being read. -/
  | awaitLeft
  /-- The left child is known, the right one is being read. -/
  | awaitRight (left : Node)
  deriving DecidableEq, Repr, Inhabited

/-- Memory: a list of (address, byte), addresses strictly rising. An unlisted address has no value of its own. -/
abbrev Memory := List Host.Cell

/-- The slots of `CT` that hold a bitcode, by byte value, values strictly rising (R38). -/
abbrev Slots := List (Nat × Bitcode)

/-- The transient context (R33 to R42): what one command works with. -/
structure Context where
  /-- `ROOT` (R34). -/
  root : Node
  /-- `FT` (R36). -/
  ft : List FEntry
  /-- `WL` (R37). -/
  wl : List Entry
  /-- `CT` (R38). -/
  ct : Slots
  /-- `EOBCODE`, unset or a bitcode (R38). -/
  eobCode : Option Bitcode
  /-- `W_ACC` (R39). -/
  wAcc : Byte
  /-- `W_N` (R39). -/
  wN : Nat
  /-- `W_TOTAL` (R39). -/
  wTotal : Nat
  /-- `R_POS` (R40). -/
  rPos : Nat
  /-- `CUR` (R41): the subtree the walker stands on. -/
  cur : Node
  /-- `E_IDX` (R42). -/
  eIdx : Nat
  /-- `N_NODES` (R42). -/
  nNodes : Nat
  /-- `HAS_EOB` (R42). -/
  hasEob : Bool
  /-- MODEL'S OWN (entry 7): `readNode`'s return stack, innermost call first (R198). -/
  readStack : List Frame
  /-- MODEL'S OWN (entry 7): the subtrees `writeTree` has still to write, in order (R190, R198). -/
  pending : List Node
  /-- MODEL'S OWN (entry 7): what `writeTree` has counted so far, the `t` of R212. -/
  treeCount : Nat
  deriving DecidableEq, Repr, Inhabited

end Sys2Proof.Machine

namespace Sys2Proof

/-- FREE VALUE (entry 5): the context outside a command, "unspecified" (R33, I23), but for its stacks (R198). -/
opaque Config.freeContext : Nat → Machine.Context

end Sys2Proof

namespace Sys2Proof.Machine

/-- What HOST, or whoever drives the reset input, does to CORE (R259, R300), and who moves next. -/
inductive HostMove where
  /-- Write a value to a register by number (R21, R250, R257). -/
  | regWrite (n v : Nat)
  /-- Read a register by number (R21, R254). -/
  | regRead (n : Nat)
  /-- Write one byte of `IN` (R255). -/
  | inWrite (a : Nat) (b : Byte)
  /-- Read one byte of `IN` (R60). -/
  | inRead (a : Nat)
  /-- Read one byte of `OUT` (R256). -/
  | outRead (a : Nat)
  /-- The reset input is asserted (R300). -/
  | reset
  /-- HOST makes no move; ENGINE has the turn. -/
  | yield
  /-- HOST waits until `STATE` is not BUSY (R107, R304). -/
  | wait
  /-- The copy of ROUNDTRIP: `OUT[0 .. OUT_LEN - 1]` to `IN`, and `IN_LEN` (R258). -/
  | copyBack
  deriving DecidableEq, Repr

/-- The state of CORE. -/
structure State where
  /-- `ERR` (R24). -/
  err : BitVec 8
  /-- `IN_LEN` (R25). -/
  inLen : Nat
  /-- `OUT_LEN` (R26). -/
  outLen : Nat
  /-- `TREE_BITS` (R27). -/
  treeBits : Nat
  /-- `DATA_BITS` (R28). -/
  dataBits : Nat
  /-- `TOTAL_BITS` (R29). -/
  totalBits : Nat
  /-- `ERR_POS` (R30). -/
  errPos : Nat
  /-- `IN` (R31): the bytes HOST has written since reset. -/
  inMem : Memory
  /-- `OUT` (R32): the bytes whose value the spec fixes. -/
  outMem : Memory
  /-- `OUT_N` (R32). -/
  outN : Nat
  /-- `PHASE` (R43). -/
  phase : Phase
  /-- The transient context (R33). -/
  ctx : Context
  /-- MODEL'S OWN (entry 1): the instance's parameters (R7), constant. -/
  params : Params
  /-- MODEL'S OWN (entry 8): the moves HOST has still to make, next first. -/
  host : List HostMove
  /-- MODEL'S OWN (entry 8): what HOST's last read returned. -/
  rdata : Nat
  /-- MODEL'S OWN (entry 9): free values drawn so far. -/
  draws : Nat
  /-- MODEL'S OWN (entry 9): commands accepted and resets made so far. -/
  era : Nat
  deriving DecidableEq, Repr

/-- Stops of the MODEL. The spec's own faults are next states (`FaultKind`). -/
inductive Fault where
  /-- Raised by a HOST write of `IN` while BUSY (also by the copy of ROUNDTRIP): "The spec gives such a run no meaning"
  (R305). A race. Safe: the model stops where the hardware goes on. -/
  | inWriteWhileBusy
  /-- Raised by a HOST access of `IN` at an address above `2^LEN_W - 2` (R31), and by a copy that would need one. Safe. -/
  | noSuchInAddress
  /-- Raised by the data pass when a byte of `IN` has no code, and for an unset `EOBCODE`. R184: "There is no missing
  code fault"; raised only in states no run reaches. Safe. -/
  | missingCode
  /-- Raised by the tree builder on an empty frequency list, which `analyze` never leaves (R153). Safe. -/
  | emptyFrequencyList
  deriving DecidableEq, Repr

/-- Refusals of the MODEL. -/
inductive Refusal where
  /-- Raised by an arm of `exec` that has no meaning yet. Safe. -/
  | notModelled (mnemonic : String)
  /-- Raised by TREE_INTERNAL and TREE_LEAF outside `PH_D_TREE` (R192) and `PH_E_TREE` (R190): CORE reads or writes a
  token nowhere else, so `step` never raises it. Safe. -/
  | tokenOutsideTreePhase
  /-- Raised by `writeUInt` and `readUInt` with a bit count above 32 (I34: `refuse`); CORE never issues one. Safe. -/
  | bitCountAbove32
  deriving DecidableEq, Repr

/-- How one operation of ENGINE ends: with a value; with the spec's `raise`, after which no statement of the command
executes (R11, R277); or with a stop of the model. -/
inductive Res (α : Type) where
  | ok (val : α) (s : State)
  | raised (s : State)
  | fault (f : Fault)
  | refused (r : Refusal)
  deriving Repr

/-- The context's values at reset. R301 leaves the registers of the spec unspecified: DESIGN CHOICE, entry 6. The two
stacks are empty (R198); `treeCount` is the model's own, entry 7. -/
def Context.reset : Context where
  root := .leaf 0 false
  ft := []
  wl := []
  ct := []
  eobCode := none
  wAcc := 0
  wN := 0
  wTotal := 0
  rPos := 0
  cur := .leaf 0 false
  eIdx := 0
  nNodes := 0
  hasEob := false
  readStack := []
  pending := []
  treeCount := 0

/-- CORE right after reset (R47, R301), with the default parameters (R7) and no move of HOST waiting. -/
def State.reset : State where
  err := 0
  inLen := 0
  outLen := 0
  treeBits := 0
  dataBits := 0
  totalBits := 0
  errPos := 0
  inMem := []
  outMem := []
  outN := 0
  phase := .idle
  ctx := Context.reset
  params := Params.default
  host := []
  rdata := 0
  draws := 0
  era := 0

end Sys2Proof.Machine
end

