-- ==== Sys2Proof/Machine/Flags.lean ====
section
/-! DEFINITION. The only flags HOST sees, `STATUS.STATE` and `ERR` (R45), and what they are computed from. -/

namespace Sys2Proof.Machine

/-- `PHASE` is any `PH_E_*` or `PH_D_*` phase (R23). -/
def Phase.busy : Phase → Bool
  | .eFreq | .eBuild | .eCodes | .eTree | .eData | .eEob | .eFinish => true
  | .dTree | .dCheck | .dWalk => true
  | .idle | .done | .fault => false

/-- `STATUS.STATE` as a function of `PHASE` (R23). -/
def Phase.state : Phase → BitVec 2
  | .idle => 0
  | .eFreq | .eBuild | .eCodes | .eTree | .eData | .eEob | .eFinish => 1
  | .dTree | .dCheck | .dWalk => 1
  | .done => 2
  | .fault => 3

/-- `STATE = BUSY`. -/
def State.busy (s : State) : Bool := s.phase.busy

/-- The register `STATUS`: `STATE` in bits 1:0, bits 7:2 read 0 (R23). -/
def State.status (s : State) : BitVec 8 := s.phase.state.zeroExtend 8

/-- The phases in which the three bit counters have a value (R27 to R29: 0 since reset, valid after a completed
command; unspecified while BUSY and after a fault, R254, R277, I22). -/
def Phase.countersDefined : Phase → Bool
  | .idle | .done => true
  | .eFreq | .eBuild | .eCodes | .eTree | .eData | .eEob | .eFinish => false
  | .dTree | .dCheck | .dWalk | .fault => false

/-- `ERR.CODE` of a fault (R270). -/
def FaultKind.code : FaultKind → BitVec 4
  | .outOfData => 1
  | .malformedDepth | .malformedCapacity | .malformedNoEob => 2
  | .badCommand => 3
  | .outOverflow => 4

/-- `ERR.SUB` of a fault (R270). -/
def FaultKind.sub : FaultKind → BitVec 4
  | .malformedDepth => 1
  | .malformedCapacity => 2
  | .malformedNoEob => 3
  | .outOfData | .badCommand | .outOverflow => 0

/-- `ERR` of a fault: `(SUB << 4) | CODE` (R270). -/
def FaultKind.err (f : FaultKind) : BitVec 8 := f.sub ++ f.code

/-- Faults that record a position in `ERR_POS` (R30, R277). -/
def FaultKind.recordsPos : FaultKind → Bool
  | .outOfData | .malformedDepth | .malformedCapacity | .malformedNoEob => true
  | .badCommand | .outOverflow => false

/-- `ERR.CODE`, bits 3:0 (R24). -/
def State.errCode (s : State) : BitVec 4 := s.err.extractLsb' 0 4

/-- `ERR.SUB`, bits 7:4 (R24). -/
def State.errSub (s : State) : BitVec 4 := s.err.extractLsb' 4 4

/-- Width of `OUT_LEN`, of the bit counters and of `ERR_POS` (R7). -/
def bitcntW (p : Params) : Nat := p.lenW + 9

end Sys2Proof.Machine
end

