-- ==== Sys2Proof/Machine/Ops.lean ====
section
/-! DEFINITION. The named operations over memory and registers: sorted tables, the sequencing of operations, taking a
fault and leaving it, completing a command, and `emit`. -/

namespace Sys2Proof.Machine

/-! ### Tables sorted by key -/

/-- The value at a key, if one is listed. -/
def tabGet {α : Type} (k : Nat) : List (Nat × α) → Option α
  | [] => none
  | (j, v) :: rest => if k = j then some v else tabGet k rest

/-- Write the value at a key; keys stay strictly rising. -/
def tabSet {α : Type} (k : Nat) (v : α) : List (Nat × α) → List (Nat × α)
  | [] => [(k, v)]
  | (j, u) :: rest =>
    if k < j then (k, v) :: (j, u) :: rest
    else if k = j then (k, v) :: rest
    else (j, u) :: tabSet k v rest

/-- Keys strictly rise. -/
def tabSorted {α : Type} : List (Nat × α) → Bool
  | [] => true
  | [_] => true
  | (j, _) :: (k, v) :: rest => decide (j < k) && tabSorted ((k, v) :: rest)

/-! ### Memory -/

/-- The canonical form of a memory. An unlisted address has no value, so no entry can repeat it. -/
def Memory.wf (m : Memory) : Bool := tabSorted m

/-- The byte listed at an address. -/
def memGet (m : Memory) (a : Nat) : Option Byte := tabGet a m

/-- `MemWrite(a, 1, b)` (R11, R65). -/
def memSet (m : Memory) (a : Nat) (b : Byte) : Memory := tabSet a b m

/-! ### Sequencing -/

/-- One statement after another; nothing runs after a `raise` (R11). -/
def Res.bind {α β : Type} (x : Res α) (f : α → State → Res β) : Res β :=
  match x with
  | .ok a s => f a s
  | .raised s => .raised s
  | .fault r => .fault r
  | .refused r => .refused r

/-- An operation as a step: a raised fault of the spec is a next state (R277). -/
def Res.toOutcome {α : Type} : Res α → Host.Outcome State Fault Refusal
  | .ok _ s => .next s
  | .raised s => .next s
  | .fault r => .fault r
  | .refused r => .refused r

/-! ### Named updates -/

/-- Replace the transient context. -/
def State.withCtx (s : State) (c : Context) : State := { s with ctx := c }

/-- `PHASE <- p` (R11, R43). -/
def State.withPhase (s : State) (p : Phase) : State := { s with phase := p }

/-- The context outside a command: what R33 and R301 name is unspecified; the stacks of `readNode` and `writeTree` are
"empty whenever no operation is in progress" (R198). -/
def idleContext (draw : Nat) : Context := { Config.freeContext draw with readStack := [], pending := [] }

/-- Drop the transient context: its content is unspecified from here on (R33), its stacks are empty (R198). -/
def dropContext (s : State) : State :=
  { s with ctx := idleContext s.draws, draws := s.draws + 1 }

/-- One unspecified bit counter, cut to its register's width (R277, I22). -/
def freeCounter (p : Params) (draw : Nat) : Nat := Config.freeCount draw % 2 ^ bitcntW p

/-- The three bit counters become unspecified (R277). -/
def loseCounters (s : State) : State :=
  { s with
    treeBits := freeCounter s.params s.draws
    dataBits := freeCounter s.params (s.draws + 1)
    totalBits := freeCounter s.params (s.draws + 2)
    draws := s.draws + 3 }

/-! ### Taking a fault, and leaving it -/

/-- `faultEntry(F, pos)` (R277), the one way a fault of the spec is taken: `ERR`, `ERR_POS`, `OUT_LEN`, `PHASE`; from
here on `OUT`, the counters and the context are unspecified. Nothing is saved and control goes nowhere. -/
def faultEntry (f : FaultKind) (pos : Nat) (s : State) : State :=
  dropContext <| loseCounters
    { s with
      err := f.err
      errPos := if f.recordsPos then pos else 0
      outLen := 0
      outMem := []
      phase := .fault }

/-- `raise F(pos)` (R11, R277). -/
def raise {α : Type} (f : FaultKind) (pos : Nat) (s : State) : Res α := .raised (faultEntry f pos s)

/-- What every command's start step clears (R211, R231, R252). There is no return from a fault: this is how the fault
state is left (R279). The earlier result in `OUT` is destroyed (R308); the era moves on (entries 2, 3). -/
def clearResults (s : State) : State :=
  { s with
    err := 0
    errPos := 0
    outLen := 0
    outN := 0
    treeBits := 0
    dataBits := 0
    totalBits := 0
    outMem := []
    era := s.era + 1 }

/-- Completion, as one step: `OUT_LEN <- OUT_N ; PHASE <- PH_DONE`; the context is dropped (R214, R238, R33). -/
def complete (s : State) : State := dropContext { s with outLen := s.outN, phase := .done }

/-- The reset input (R300 to R303), at any time: every register at its reset value; the contents of `IN`, `OUT` and
the context unspecified, the stacks empty (R198). The parameters, HOST's moves and the counters of free values are not CORE's to reset. -/
def resetInput (s : State) : State :=
  { State.reset with
    ctx := idleContext s.draws
    params := s.params
    host := s.host
    rdata := s.rdata
    draws := s.draws + 1
    era := s.era + 1 }

/-! ### The output port -/

/-- `OUT_CAP` is finite and `OUT` is full (R75). -/
def outFull (s : State) : Bool :=
  match s.params.outCap with
  | none => false
  | some c => decide (c ≤ s.outN)

/-- `emit(b)` (R75), the only way ENGINE writes `OUT`. -/
def emit (b : Byte) (s : State) : Res Unit :=
  if outFull s then raise .outOverflow 0 s
  else .ok () { s with outMem := memSet s.outMem s.outN b, outN := s.outN + 1 }

end Sys2Proof.Machine
end

