-- ==== Sys2Proof/Machine/Operands.lean ====
section
/-! DEFINITION. Where operands come from: bytes and bits of `IN` (R62, R74), the token at the read cursor, the
registers of the port (R21), bytes of `OUT` (R256). -/

namespace Sys2Proof.Machine

/-! ### ENGINE's side -/

/-- `MemRead(a, 1)` by ENGINE (R11, R74): the byte HOST wrote last (R255); one HOST never wrote is a free value, the
same throughout a command (entry 2). -/
def inByte (s : State) (a : Nat) : Byte :=
  match memGet s.inMem a with
  | some b => b
  | none => Config.freeIn s.era a

/-- Stream bit `k`: bit `7 - (k mod 8)` of byte `k div 8` (R62). -/
def inBit (s : State) (k : Nat) : Bool := (inByte s (k / 8)).getLsbD (7 - k % 8)

/-- Up to `n` stream bits from the read cursor on, as many as `IN` has (R127). -/
def streamBits (s : State) (n : Nat) : Bits :=
  (List.range (min n (8 * s.inLen - s.ctx.rPos))).map fun k => inBit s (s.ctx.rPos + k)

/-- The token at the read cursor; none where the input ends inside it (R92, R192). -/
def peekToken (s : State) : Option Instr :=
  match decodeToken (streamBits s Config.leafBits) with
  | .ok (i, _) => some i
  | .error _ => none

/-! ### HOST's side -/

/-- Addresses of `IN` are `0 .. 2^LEN_W - 2` (R31). -/
def inAddressOk (s : State) (a : Nat) : Bool := decide (a + 1 < 2 ^ s.params.lenW)

/-- HOST reads a bit counter: its value after reset and after a completed command, else unspecified (R254, R277). -/
def readCounter (v : Nat) (s : State) : Nat × State :=
  if s.phase.countersDefined then (v, s)
  else (freeCounter s.params s.draws, { s with draws := s.draws + 1 })

/-- A read of register `n` (R21, R22, R254): no side effect on CORE. -/
def readReg (n : Nat) (s : State) : Nat × State :=
  match n with
  | 0 => (0, s)
  | 1 => (s.status.toNat, s)
  | 2 => (s.err.toNat, s)
  | 3 => (s.inLen, s)
  | 4 => (s.outLen, s)
  | 5 => readCounter s.treeBits s
  | 6 => readCounter s.dataBits s
  | 7 => readCounter s.totalBits s
  | 8 => (s.errPos, s)
  | _ => (0, s)

/-- An unspecified byte, drawn anew at each read by HOST (R302, I20, I21). -/
def drawByte (s : State) : Byte × State := (Config.freeByte s.draws, { s with draws := s.draws + 1 })

/-- HOST reads `OUT[a]` (R256): byte `a` of the result while DONE and `a < OUT_LEN`, else unspecified. -/
def readOut (a : Nat) (s : State) : Byte × State :=
  match memGet s.outMem a with
  | some b => if s.phase = .done ∧ a < s.outLen then (b, s) else drawByte s
  | none => drawByte s

/-- HOST reads `IN[a]` (R60): what it wrote last, while not BUSY; else unspecified (R31, entries 2, 15). -/
def readIn (a : Nat) (s : State) : Byte × State :=
  match memGet s.inMem a with
  | some b => if s.busy then drawByte s else (b, s)
  | none => drawByte s

end Sys2Proof.Machine
end

