-- ==== Sys2Proof/Machine/Command.lean ====
section
/-! DEFINITION. The commands NOP and RESERVED (47_host_interface.md). -/

namespace Sys2Proof.Machine

/-- NOP (R251): no state changes. -/
def execNop (s : State) : Host.Outcome State Fault Refusal := .next s

/-- `startBad()` (R252): clear the results, raise BadCommand. -/
def startBad (s : State) : State := faultEntry .badCommand 0 (clearResults s)

/-- RESERVED (R252): `startBad`, unless BUSY (R250, R253). -/
def execReserved (s : State) : Host.Outcome State Fault Refusal :=
  if s.busy then .next s else .next (startBad s)

end Sys2Proof.Machine
end

