-- ==== Sys2Proof/Machine/BitStream.lean ====
section
/-! DEFINITION. BitStream: the writer of ENCODE and the reader of DECODE (40_bitstream.md). -/

namespace Sys2Proof.Machine

/-! ### Writer -/

/-- `wInit()` (R120). -/
def wInit (s : State) : State :=
  { s with ctx := { s.ctx with wAcc := 0, wN := 0, wTotal := 0 }, outN := 0 }

/-- The accumulator after a bit is shifted in, 8 bits wide (R121). -/
def shiftIn (acc : Byte) (v : Bool) : Byte := (acc <<< 1) ||| (if v then 1 else 0)

/-- The writer after a bit is taken in and before a full byte is emitted (R121). -/
def takeBit (v : Bool) (s : State) : State :=
  s.withCtx { s.ctx with
    wAcc := shiftIn s.ctx.wAcc v
    wN := s.ctx.wN + 1
    wTotal := s.ctx.wTotal + 1 }

/-- `W_ACC <- 0 ; W_N <- 0` (R121, R124). -/
def clearAcc (s : State) : State := s.withCtx { s.ctx with wAcc := 0, wN := 0 }

/-- `writeBit(v)` (R121). -/
def writeBit (v : Bool) (s : State) : Res Unit :=
  if (takeBit v s).ctx.wN = 8 then
    (emit (takeBit v s).ctx.wAcc (takeBit v s)).bind fun _ s => .ok () (clearAcc s)
  else .ok () (takeBit v s)

/-- Bits written one after another, first bit first. -/
def writeBits : Bits → State → Res Unit
  | [], s => .ok () s
  | b :: bs, s => (writeBit b s).bind fun _ s => writeBits bs s

/-- `writeUInt(v, bitCount)` (R122); counts above 32 are refused (I34). -/
def writeUInt (v bitCount : Nat) (s : State) : Res Unit :=
  if bitCountOk bitCount then writeBits (uintBits v bitCount) s else .refused .bitCountAbove32

/-- `writeCode(code)` (R123). -/
def writeCode (code : Bitcode) (s : State) : Res Unit := writeBits code s

/-- `finish()` (R124). -/
def finish (s : State) : Res Unit :=
  if 0 < s.ctx.wN then
    (emit (s.ctx.wAcc <<< (8 - s.ctx.wN)) s).bind fun _ s => .ok () (clearAcc s)
  else .ok () s

/-! ### Reader -/

/-- `rInit()` (R126). -/
def rInit (s : State) : State := s.withCtx { s.ctx with rPos := 0 }

/-- `readBitAvailable()` (R128). -/
def readBitAvailable (s : State) : Bool := decide (s.ctx.rPos < 8 * s.inLen)

/-- `readBit()` (R127). -/
def readBit (s : State) : Res Bool :=
  if readBitAvailable s then
    .ok (inBit s s.ctx.rPos) (s.withCtx { s.ctx with rPos := s.ctx.rPos + 1 })
  else raise .outOfData s.ctx.rPos s

/-- The loop of `readUInt`, from the value assembled so far. -/
def readUIntFrom (v : Nat) : Nat → State → Res Nat
  | 0, s => .ok v s
  | n + 1, s => (readBit s).bind fun b s => readUIntFrom (2 * v + b.toNat) n s

/-- `readUInt(bitCount)` (R129); counts above 32 are refused (I34). -/
def readUInt (bitCount : Nat) (s : State) : Res Nat :=
  if bitCountOk bitCount then readUIntFrom 0 bitCount s else .refused .bitCountAbove32

/-! ### The register-level form of the reader (R130) -/

/-- `R_IDX`, `R_CUR`, `R_REM` (R130). -/
structure RegReader where
  idx : Nat
  cur : Byte
  rem : Nat
  deriving DecidableEq, Repr

/-- The initial registers; `R_CUR` is not read before it is filled (R130). -/
def regReaderInit (cur : Byte) : RegReader := ⟨0, cur, 0⟩

/-- Pull the next byte when the current one is exhausted; none is OutOfData (R130). -/
def regReaderFill (s : State) (r : RegReader) : Option RegReader :=
  if r.rem = 0 then
    if r.idx = s.inLen then none else some ⟨r.idx + 1, inByte s r.idx, 8⟩
  else some r

/-- `readBit` of the register-level form (R130); none is OutOfData. -/
def regReadBit (s : State) (r : RegReader) : Option (Bool × RegReader) :=
  (regReaderFill s r).map fun r => (r.cur.getLsbD (r.rem - 1), { r with rem := r.rem - 1 })

/-- `readBitAvailable` of the register-level form (R130). -/
def regReadBitAvailable (s : State) (r : RegReader) : Bool := decide (0 < r.rem) || decide (r.idx < s.inLen)

end Sys2Proof.Machine
end

