-- ==== Sys2Proof/Machine/TreeCodec.lean ====
section
/-! DEFINITION. TreeCodec, tree_codec_serializer (44_tree_codec.md): what a token does where it is written (R190) and
where it is read (R192), and the meanings of TREE_INTERNAL and TREE_LEAF. -/

namespace Sys2Proof.Machine

/-! ### Serializer -/

/-- The token a node begins with (R190). -/
def tokenOf : Node → Instr
  | .leaf v e => .treeLeaf e v
  | .internal _ _ => .treeInternal

/-- The children `writeTree` has still to write after a node's token, left first (R96, R190). -/
def childrenOf : Node → List Node
  | .leaf _ _ => []
  | .internal l r => [l, r]

/-- Add to the count `writeTree` returns (R190). -/
def addCount (n : Nat) (s : State) : State :=
  s.withCtx { s.ctx with treeCount := s.ctx.treeCount + n }

/-- `writeTree` at an internal node, up to its first recursive call (R190). -/
def writeInternal (s : State) : Res Unit :=
  (writeBit false s).bind fun _ s => .ok () (addCount 1 s)

/-- `writeTree` at a leaf (R190). -/
def writeLeaf (eob : Bool) (value : Byte) (s : State) : Res Unit :=
  (writeBit true s).bind fun _ s =>
    (writeBit eob s).bind fun _ s =>
      (writeUInt value.toNat 8 s).bind fun _ s => .ok () (addCount Config.leafBits s)

/-! ### Deserializer -/

/-- The depth of the node about to be read, the root at 1 (R192). -/
def readDepth (s : State) : Nat := s.ctx.readStack.length + 1

/-- The first three statements of `readNode(d)` (R192, R193): Depth, then Capacity, then the node is counted. -/
def enterNode (s : State) : Res Unit :=
  if s.params.depthMax < readDepth s then raise .malformedDepth s.ctx.rPos s
  else if s.params.nodeCap ≤ s.ctx.nNodes then raise .malformedCapacity s.ctx.rPos s
  else .ok () (s.withCtx { s.ctx with nNodes := s.ctx.nNodes + 1 })

/-- A finished node returns to the call that waits for it; a root is returned to no call (R192, R198). -/
def returnNode (n : Node) : List Frame → List Frame × Option Node
  | [] => ([], some n)
  | .awaitLeft :: fs => (.awaitRight n :: fs, none)
  | .awaitRight l :: fs => returnNode (.internal l n) fs

/-- A finished node: the next call, or `ROOT <- `, `TREE_BITS <- R_POS` and the move to `PH_D_CHECK` (R192, R232). -/
def finishNode (n : Node) (s : State) : State :=
  match returnNode n s.ctx.readStack with
  | (fs, none) => s.withCtx { s.ctx with readStack := fs }
  | (fs, some root) =>
    ({ s with treeBits := s.ctx.rPos }.withCtx { s.ctx with readStack := fs, root := root }).withPhase .dCheck

/-- `readNode` on a TREE_INTERNAL token, up to its first recursive call (R192). -/
def readInternal (s : State) : Res Unit :=
  (enterNode s).bind fun _ s =>
    .ok () (s.withCtx { s.ctx with rPos := s.ctx.rPos + 1, readStack := .awaitLeft :: s.ctx.readStack })

/-- `readNode` on a TREE_LEAF token, to its return (R192). -/
def readLeaf (eob : Bool) (value : Byte) (s : State) : Res Unit :=
  (enterNode s).bind fun _ s =>
    .ok () (finishNode (.leaf value eob) (s.withCtx { s.ctx with
      rPos := s.ctx.rPos + Config.leafBits
      hasEob := s.ctx.hasEob || eob }))

/-- `readNode` where the input ends inside the token: the tests come first, the bits that are there are consumed, then
`readBit` raises OutOfData (R192, R193, R129). -/
def readTruncated (s : State) : Res Unit :=
  (enterNode s).bind fun _ s => raise .outOfData (max s.ctx.rPos (8 * s.inLen)) s

/-- The bits of one token as `readNode` reads them: marker, and for a leaf flag and value (R192). `peekToken` gives the
same instruction; a statement says so. -/
def readTokenBits (s : State) : Res Instr :=
  (readBit s).bind fun m s =>
    if m then
      (readBit s).bind fun e s =>
        (readUInt 8 s).bind fun v s => .ok (.treeLeaf e (BitVec.ofNat 8 v)) s
    else .ok .treeInternal s

/-- `checkEob()` (R194), the move of `PH_D_CHECK`; then the walk begins at the root (R233, R41). -/
def checkEobStep (s : State) : Host.Outcome State Fault Refusal :=
  if s.ctx.hasEob then .next ((s.withCtx { s.ctx with cur := s.ctx.root }).withPhase .dWalk)
  else .next (faultEntry .malformedNoEob s.ctx.rPos s)

/-! ### Meanings of the two tokens -/

/-- TREE_INTERNAL (R93): read by `readNode` in `PH_D_TREE` (R192), written by `writeTree` in `PH_E_TREE` (R190). -/
def execTreeInternal (s : State) : Host.Outcome State Fault Refusal :=
  match s.phase with
  | .dTree => (readInternal s).toOutcome
  | .eTree => (writeInternal s).toOutcome
  | .idle | .eFreq | .eBuild | .eCodes | .eData | .eEob | .eFinish | .dCheck | .dWalk | .done | .fault =>
    .refused .tokenOutsideTreePhase

/-- TREE_LEAF (R94): read by `readNode` in `PH_D_TREE` (R192), written by `writeTree` in `PH_E_TREE` (R190). -/
def execTreeLeaf (eob : Bool) (value : Byte) (s : State) : Host.Outcome State Fault Refusal :=
  match s.phase with
  | .dTree => (readLeaf eob value s).toOutcome
  | .eTree => (writeLeaf eob value s).toOutcome
  | .idle | .eFreq | .eBuild | .eCodes | .eData | .eEob | .eFinish | .dCheck | .dWalk | .done | .fault =>
    .refused .tokenOutsideTreePhase

end Sys2Proof.Machine
end

