-- ==== Sys2Proof/Machine/Decoder.lean ====
section
/-! DEFINITION. The DECODE command (46_decoder.md): its start and the symbol walk. -/

namespace Sys2Proof.Machine

/-- `startDecode()` (R231), and the first statement of `readTree()` (R192): the tree read begins. -/
def startDecode (s : State) : State :=
  ((rInit (clearResults s)).withCtx { (rInit (clearResults s)).ctx with
      nNodes := 0
      hasEob := false
      readStack := [] }).withPhase .dTree

/-- DECODE (R230): the start step, unless BUSY (R250, R253); ENGINE then runs the phases. -/
def execDecode (s : State) : Host.Outcome State Fault Refusal :=
  if s.busy then .next s else .next (startDecode s)

/-- Descend one edge, left on 0; a leaf has nowhere to descend to (R233, R234). -/
def descend (b : Bool) : Node → Node
  | .leaf v e => .leaf v e
  | .internal l r => if b then r else l

/-- Accounting of DECODE (R237). -/
def decodeAccounting (s : State) : State :=
  { s with
    totalBits := s.ctx.rPos
    dataBits := s.ctx.rPos - s.treeBits }

/-- What the walker does on the node it has reached (R233, R235): stop at an EOB leaf, emit at another leaf, else go
on. -/
def arrive (n : Node) (s : State) : Res Unit :=
  match n with
  | .leaf v e =>
    if e then .ok () (complete (decodeAccounting s))
    else (emit v s).bind fun _ s => .ok () (s.withCtx { s.ctx with cur := s.ctx.root })
  | .internal l r => .ok () (s.withCtx { s.ctx with cur := .internal l r })

/-- One move of `PH_D_WALK`: one iteration of the loop of `walk()`, one bit (R233). -/
def walkStep (s : State) : Host.Outcome State Fault Refusal :=
  ((readBit s).bind fun b s => arrive (descend b s.ctx.cur) s).toOutcome

end Sys2Proof.Machine
end

