-- ==== Sys2Proof/Machine/Analyzer.lean ====
section
/-! DEFINITION. FrequencyAnalyzer (41_frequency_analyzer.md). -/

namespace Sys2Proof.Machine

/-- Count one input byte: in its row, or in a new row at the end (R150). -/
def countByte (b : Byte) : List FEntry → List FEntry
  | [] => [⟨b, 1, false⟩]
  | r :: rs =>
    if r.isEob = false ∧ r.value = b then { r with count := r.count + 1 } :: rs
    else r :: countByte b rs

/-- The synthetic last row (R152). -/
def eobRow : FEntry := ⟨0x00, 0, true⟩

/-- One move of `PH_E_FREQ`: an iteration of `analyze`'s loop, or its last statement and the move to `PH_E_BUILD`
(R150, R43). -/
def analyzeStep (s : State) : Host.Outcome State Fault Refusal :=
  if s.ctx.eIdx < s.inLen then
    .next (s.withCtx { s.ctx with
      ft := countByte (inByte s s.ctx.eIdx) s.ctx.ft
      eIdx := s.ctx.eIdx + 1 })
  else
    .next ((s.withCtx { s.ctx with ft := s.ctx.ft ++ [eobRow] }).withPhase .eBuild)

end Sys2Proof.Machine
end

