-- ==== Sys2Proof/Machine/CodeTable.lean ====
section
/-! DEFINITION. CodeTableGenerator (43_code_table_generator.md). -/

namespace Sys2Proof.Machine

/-- `CT` and `EOBCODE` (R38). -/
structure CodeTable where
  slots : Slots
  eob : Option Bitcode
  deriving DecidableEq, Repr

/-- All 256 slots empty, `EOBCODE` unset (R180). -/
def emptyTable : CodeTable := ⟨[], none⟩

/-- The slot of a byte value (R38). -/
def codeOf (t : Slots) (b : Byte) : Option Bitcode := tabGet b.toNat t

/-- The code of a leaf from its path: the path, or `"0"` for the empty path (R180, R181). -/
def leafCode (path : Bits) : Bitcode :=
  match path with
  | [] => [false]
  | b :: bs => b :: bs

/-- `walkCodes(node, path)` (R180). -/
def walkCodes : Node → Bits → CodeTable → CodeTable
  | .leaf v e, path, t =>
    if e then { t with eob := some (leafCode path) }
    else { t with slots := tabSet v.toNat (leafCode path) t.slots }
  | .internal l r, path, t => walkCodes r (path ++ [true]) (walkCodes l (path ++ [false]) t)

/-- `generate()` (R180). -/
def generate (root : Node) : CodeTable := walkCodes root [] emptyTable

/-- The move of `PH_E_CODES`: `generate`, then `writeTree(ROOT)` is called and `PH_E_TREE` begins (R180, R212, R43). -/
def generateStep (s : State) : Host.Outcome State Fault Refusal :=
  .next ((s.withCtx { s.ctx with
      ct := (generate s.ctx.root).slots
      eobCode := (generate s.ctx.root).eob
      pending := [s.ctx.root]
      treeCount := 0 }).withPhase .eTree)

end Sys2Proof.Machine
end

