-- ==== Sys2Proof/Machine/TreeBuilder.lean ====
section
/-! DEFINITION. TreeBuilder, priority_merge_tree_builder (42_tree_builder.md). -/

namespace Sys2Proof.Machine

/-- `initWL()` (R160). -/
def initWL (ft : List FEntry) : List Entry := ft.map fun r => ⟨.leaf r.value r.isEob, r.count⟩

/-- Put an entry before the first one that is not lighter: it stays ahead of its equals, which came after it. -/
def insertAhead (e : Entry) : List Entry → List Entry
  | [] => [e]
  | x :: xs => if e.weight ≤ x.weight then e :: x :: xs else x :: insertAhead e xs

/-- `stableSort(WL)` (R161): ascending by weight, equal weights in their earlier order. -/
def stableSort : List Entry → List Entry
  | [] => []
  | e :: es => insertAhead e (stableSort es)

/-- The merged entry: `left = second`, `right = min`, weight the sum (R162). -/
def mergePair (min second : Entry) : Entry :=
  ⟨.internal second.node min.node, min.weight + second.weight⟩

/-- `mergeStep()` (R162); a list of fewer than two entries, outside its precondition, is only sorted. -/
def mergeStep (wl : List Entry) : List Entry :=
  match stableSort wl with
  | min :: second :: rest => rest ++ [mergePair min second]
  | short => short

/-- R164's move: an entry put behind every entry of weight less than or equal to its own. -/
def insertBehind (e : Entry) : List Entry → List Entry
  | [] => [e]
  | x :: xs => if x.weight ≤ e.weight then x :: insertBehind e xs else e :: x :: xs

/-- One move of `PH_E_BUILD`: `initWL`, one `mergeStep`, or `ROOT <- WL[0].node` and the move to `PH_E_CODES`
(R163, R43). -/
def buildStep (s : State) : Host.Outcome State Fault Refusal :=
  match s.ctx.wl with
  | [] =>
    match s.ctx.ft with
    | [] => .fault .emptyFrequencyList
    | r :: rs => .next (s.withCtx { s.ctx with wl := initWL (r :: rs) })
  | [e] => .next ((s.withCtx { s.ctx with root := e.node }).withPhase .eCodes)
  | e₁ :: e₂ :: es => .next (s.withCtx { s.ctx with wl := mergeStep (e₁ :: e₂ :: es) })

end Sys2Proof.Machine
end

