-- ==== Sys2Proof/Machine/Encoder.lean ====
section
/-! DEFINITION. The ENCODE command (45_encoder.md): its start, and the phases after the tree. -/

namespace Sys2Proof.Machine

/-- `startEncode()` (R211). -/
def startEncode (s : State) : State :=
  ((wInit (clearResults s)).withCtx { (wInit (clearResults s)).ctx with
      ft := []
      wl := []
      ct := []
      eobCode := none
      eIdx := 0 }).withPhase .eFreq

/-- ENCODE (R210): the start step, unless BUSY (R250, R253); ENGINE then runs the phases. -/
def execEncode (s : State) : Host.Outcome State Fault Refusal :=
  if s.busy then .next s else .next (startEncode s)

/-- The tree is written: the data pass begins (R212). -/
def beginData (s : State) : State := (s.withCtx { s.ctx with eIdx := 0 }).withPhase .eData

/-- One move of `PH_E_DATA`: the code of one input byte, or the move to `PH_E_EOB` (R212). -/
def dataStep (s : State) : Host.Outcome State Fault Refusal :=
  if s.ctx.eIdx < s.inLen then
    match codeOf s.ctx.ct (inByte s s.ctx.eIdx) with
    | none => .fault .missingCode
    | some code =>
      ((writeCode code s).bind fun _ s =>
        .ok () (s.withCtx { s.ctx with eIdx := s.ctx.eIdx + 1 })).toOutcome
  else .next (s.withPhase .eEob)

/-- The move of `PH_E_EOB`: the EOB code, once (R98, R212). -/
def eobStep (s : State) : Host.Outcome State Fault Refusal :=
  match s.ctx.eobCode with
  | none => .fault .missingCode
  | some code => ((writeCode code s).bind fun _ s => .ok () (s.withPhase .eFinish)).toOutcome

/-- Accounting of ENCODE (R213). -/
def encodeAccounting (s : State) : State :=
  { s with
    treeBits := s.ctx.treeCount
    totalBits := s.ctx.wTotal
    dataBits := s.ctx.wTotal - s.ctx.treeCount }

/-- The move of `PH_E_FINISH`: `finish`, accounting, completion (R212 to R214). -/
def finishStep (s : State) : Host.Outcome State Fault Refusal :=
  ((finish s).bind fun _ s => .ok () (complete (encodeAccounting s))).toOutcome

end Sys2Proof.Machine
end

