-- ==== Sys2Proof/Machine/Dispatch.lean ====
section
/-! DEFINITION. One arm per instruction. -/

namespace Sys2Proof.Machine

/-- What an instruction does. -/
def exec (i : Instr) (s : State) : Host.Outcome State Fault Refusal :=
  match i with
  | .nop => Sys2Proof.Machine.execNop s
  | .encode => Sys2Proof.Machine.execEncode s
  | .decode => Sys2Proof.Machine.execDecode s
  | .reserved => Sys2Proof.Machine.execReserved s
  | .treeInternal => Sys2Proof.Machine.execTreeInternal s
  | .treeLeaf e v => Sys2Proof.Machine.execTreeLeaf e v s

end Sys2Proof.Machine
end

