-- ==== Sys2Proof/Machine/Engine.lean ====
section
/-! DEFINITION. The two agents (R16): ENGINE's next move by `PHASE` (R43), HOST's moves (47_host_interface.md), and how
an opcode-table word is laid where the next step runs it. -/

namespace Sys2Proof.Machine

/-! ### ENGINE -/

/-- One move of `PH_E_TREE`: the next node of `writeTree` is executed as its token; after the last one the data pass
begins (R190, R212). -/
def writeTreeStep (s : State) : Host.Outcome State Fault Refusal :=
  match s.ctx.pending with
  | [] => .next (beginData s)
  | n :: rest => exec (tokenOf n) (s.withCtx { s.ctx with pending := childrenOf n ++ rest })

/-- One move of `PH_D_TREE`: the token at the read cursor is fetched and executed (R192). -/
def readTreeStep (s : State) : Host.Outcome State Fault Refusal :=
  match peekToken s with
  | some i => exec i s
  | none => (readTruncated s).toOutcome

/-- ENGINE's next move (R43). Outside a command it does nothing (R301, R279). -/
def engineStep (s : State) : Host.Outcome State Fault Refusal :=
  match s.phase with
  | .idle => .next s
  | .eFreq => analyzeStep s
  | .eBuild => buildStep s
  | .eCodes => generateStep s
  | .eTree => writeTreeStep s
  | .eData => dataStep s
  | .eEob => eobStep s
  | .eFinish => finishStep s
  | .dTree => readTreeStep s
  | .dCheck => checkEobStep s
  | .dWalk => walkStep s
  | .done => .next s
  | .fault => .next s

/-! ### HOST -/

/-- A write of register `n` (R21, R250, R257): `CTRL` is decoded and executed, `IN_LEN` takes the value cut to `LEN_W`
bits unless BUSY, every other write is ignored. -/
def writeReg (n v : Nat) (s : State) : Host.Outcome State Fault Refusal :=
  match n with
  | 0 => exec (decodeCtrl (BitVec.ofNat 8 v)) s
  | 3 => if s.busy then .next s else .next { s with inLen := v % 2 ^ s.params.lenW }
  | _ => .next s

/-- HOST writes `IN[a]` (R255), which it may do only while not BUSY (R305). -/
def writeIn (a : Nat) (b : Byte) (s : State) : Host.Outcome State Fault Refusal :=
  if s.busy then .fault .inWriteWhileBusy
  else if inAddressOk s a then .next { s with inMem := memSet s.inMem a b }
  else .fault .noSuchInAddress

/-- Deliver what a read returned. -/
def deliver (v : Nat) (s : State) : Host.Outcome State Fault Refusal := .next { s with rdata := v }

/-- A read of `IN` by HOST (R60) at an address that exists (R31). -/
def readInMove (a : Nat) (s : State) : Host.Outcome State Fault Refusal :=
  if inAddressOk s a then deliver (readIn a s).1.toNat (readIn a s).2 else .fault .noSuchInAddress

/-- Copy bytes `OUT[a .. a + n - 1]` to the same addresses of `IN`, one read and one write each (R258). -/
def copyBytes : Nat → Nat → State → State
  | 0, _, s => s
  | n + 1, a, s =>
    copyBytes n (a + 1)
      { (readOut a s).2 with inMem := memSet (readOut a s).2.inMem a (readOut a s).1 }

/-- The copy of ROUNDTRIP (R258): `n <- OUT_LEN`, the bytes, `IN_LEN <- n`. -/
def copyBackMove (s : State) : Host.Outcome State Fault Refusal :=
  if s.busy then .fault .inWriteWhileBusy
  else if s.outLen < 2 ^ s.params.lenW then
    .next { copyBytes s.outLen 0 s with inLen := s.outLen }
  else .fault .noSuchInAddress

/-- HOST's move `m`, already taken off its list; `wait` goes back on it while BUSY. -/
def hostStep (m : HostMove) (s : State) : Host.Outcome State Fault Refusal :=
  match m with
  | .regWrite n v => writeReg n v s
  | .regRead n => deliver (readReg n s).1 (readReg n s).2
  | .inWrite a b => writeIn a b s
  | .inRead a => readInMove a s
  | .outRead a => deliver (readOut a s).1.toNat (readOut a s).2
  | .reset => .next (resetInput s)
  | .yield => engineStep s
  | .wait => if s.busy then engineStep { s with host := .wait :: s.host } else .next s
  | .copyBack => copyBackMove s

/-- The next move: HOST's, if it has one to make, else ENGINE's. -/
def moveNext (s : State) : Host.Outcome State Fault Refusal :=
  match s.host with
  | [] => engineStep s
  | m :: ms => hostStep m { s with host := ms }

/-! ### Host programs (R107, R258) -/

/-- Byte writes of `IN` from address `a` on. -/
def loadMoves : Nat → List Byte → List HostMove
  | _, [] => []
  | a, b :: bs => .inWrite a b :: loadMoves (a + 1) bs

/-- `IN <- <bytes>` (R107): the byte writes, and one write of register 3. -/
def loadProgram (bs : List Byte) : List HostMove := loadMoves 0 bs ++ [.regWrite 3 bs.length]

/-- ROUNDTRIP (R107, R258). -/
def roundtripProgram : List HostMove :=
  [.regWrite 0 0x01, .wait, .copyBack, .regWrite 0 0x02, .wait]

/-! ### Placing an opcode-table word (entry 13) -/

/-- Bytes that hold a bit sequence of at most 16 bits, first bit in bit 7 of byte 0 (R62), zeros after it. -/
def twoBytes (bs : Bits) : Byte × Byte :=
  (byteOfBits ((bs ++ uintBits 0 8).take 8), byteOfBits (((bs ++ uintBits 0 16).drop 8).take 8))

/-- A `CTRL` value becomes HOST's next move; a token is laid at the front of `IN`, with CORE about to read its first
node and ENGINE to move next. -/
def placeEncoded (e : Encoded) (s : State) : State :=
  match e with
  | .ctrl w => { s with host := .regWrite 0 w.toNat :: s.host }
  | .token bs =>
    { s with
      host := .yield :: s.host
      phase := .dTree
      inLen := 2
      inMem := memSet (memSet s.inMem 0 (twoBytes bs).1) 1 (twoBytes bs).2
      ctx := { s.ctx with rPos := 0, nNodes := 0, hasEob := false, readStack := [] } }

/-- Place an opcode-table word; a width that is no row's changes nothing. -/
def placeTableWord (s : State) (nbits w : Nat) : State :=
  match tableWord nbits w with
  | some e => placeEncoded e s
  | none => s

end Sys2Proof.Machine
end

