-- ==== Sys2Proof/Machine/Step.lean ====
section
/-! DEFINITION. One step of the machine, and the placing of an opcode-table word. -/

namespace Sys2Proof.Machine

/-- One move of HOST or of ENGINE (R16, R17). -/
def step : State → Host.Outcome State Fault Refusal := moveNext

/-- `s` with the instruction laid where the next step runs it. -/
def State.withFetchWord (s : State) (nbits w : Nat) : State := placeTableWord s nbits w

end Sys2Proof.Machine
end

