-- ==== Sys2Proof/Machine/Reference.lean ====
section
/-! DEFINITION. The two abstract entry points of R19, `encode` and `decode`, as functions of byte lists, written as the
spec's recursive pseudocode. The machine steps operation by operation; statements relate the two. -/

namespace Sys2Proof.Machine

/-- What a command reports when it completes: the bytes and the counters (R316). -/
structure Report where
  out : List Byte
  treeBits : Nat
  dataBits : Nat
  deriving DecidableEq, Repr

/-- How a command ends: a report, or a fault and the position it would record (R270, R316). -/
abbrev Ending := Except (FaultKind × Nat) Report

/-- A list of bytes is more than `OUT` holds (R75). -/
def overCap (p : Params) (n : Nat) : Bool :=
  match p.outCap with
  | none => false
  | some c => decide (c < n)

/-! ### Bits and bytes -/

/-- The stream bits of a byte sequence (R62, R63). -/
def bytesBits (bs : List Byte) : Bits := bs.flatMap byteBits

/-- A bit sequence as bytes, zero bits up to a byte boundary (R62, R100, R125). -/
def packBits (bs : Bits) : List Byte :=
  (List.range ((bs.length + 7) / 8)).map fun j =>
    byteOfBits ((bs.drop (8 * j) ++ List.replicate 8 false).take 8)

/-! ### encode -/

/-- `analyze` on a byte list (R150). -/
def analyzeAll (data : List Byte) : List FEntry :=
  data.foldl (fun ft b => countByte b ft) [] ++ [eobRow]

/-- Merge while more than one entry remains (R163); each merge removes one entry, so the list's length is fuel
enough. -/
def mergeAll : Nat → List Entry → List Entry
  | 0, wl => wl
  | n + 1, wl =>
    match wl with
    | e₁ :: e₂ :: es => mergeAll n (mergeStep (e₁ :: e₂ :: es))
    | short => short

/-- `build` (R163). -/
def buildTree (ft : List FEntry) : Node :=
  match mergeAll ft.length (initWL ft) with
  | e :: _ => e.node
  | [] => .leaf 0 true

/-- The tree of an input (R163). -/
def treeOf (data : List Byte) : Node := buildTree (analyzeAll data)

/-- The bits `writeTree` writes (R92, R190). -/
def treeStream : Node → Bits
  | .leaf v e => tokenBits (.treeLeaf e v)
  | .internal l r => tokenBits .treeInternal ++ (treeStream l ++ treeStream r)

/-- The codes of the input bytes in order, then the EOB code (R90, R212). -/
def dataStream (t : CodeTable) (data : List Byte) : Bits :=
  data.flatMap (fun b => (codeOf t.slots b).getD []) ++ t.eob.getD []

/-- All bits of a payload before the padding (R90). -/
def payloadBits (data : List Byte) : Bits :=
  treeStream (treeOf data) ++ dataStream (generate (treeOf data)) data

/-- `encode` (R19, R210). -/
def encodeBytes (data : List Byte) : List Byte := packBits (payloadBits data)

/-- How ENCODE of `data` ends (R210 to R215). -/
def encodeEnding (p : Params) (data : List Byte) : Ending :=
  if overCap p (encodeBytes data).length then .error (.outOverflow, 0)
  else .ok ⟨encodeBytes data, (treeStream (treeOf data)).length,
    (dataStream (generate (treeOf data)) data).length⟩

/-! ### decode -/

/-- What `readNode` hands back: the node, `N_NODES`, `HAS_EOB`, `R_POS` and the bits not yet read. -/
structure Parsed where
  node : Node
  nNodes : Nat
  hasEob : Bool
  pos : Nat
  rest : Bits
  deriving DecidableEq, Repr

/-- `readNode(d)` as the recursion of R192. The first argument is fuel: `DEPTH_MAX + 1` is enough at depth 1, because
the Depth test stops the recursion (R198). -/
def parseNode (p : Params) : Nat → Nat → Nat → Bool → Nat → Bits → Except (FaultKind × Nat) Parsed
  | 0, _, _, _, pos, _ => .error (.malformedDepth, pos)
  | fuel + 1, d, n, he, pos, bs =>
    if p.depthMax < d then .error (.malformedDepth, pos)
    else if p.nodeCap ≤ n then .error (.malformedCapacity, pos)
    else
      match decodeToken bs with
      | .error _ => .error (.outOfData, pos + bs.length)
      | .ok (.treeLeaf e v, rest) => .ok ⟨.leaf v e, n + 1, he || e, pos + 10, rest⟩
      | .ok (_, rest) =>
        match parseNode p fuel (d + 1) (n + 1) he (pos + 1) rest with
        | .error x => .error x
        | .ok l =>
          match parseNode p fuel (d + 1) l.nNodes l.hasEob l.pos l.rest with
          | .error x => .error x
          | .ok r => .ok ⟨.internal l.node r.node, r.nNodes, r.hasEob, r.pos, r.rest⟩

/-- `walk()` from a node, over the bits not yet read, with the bytes emitted so far (R233 to R236, R75): the bytes and
the final `R_POS`. -/
def walkFrom (p : Params) (root : Node) : Bits → Nat → Node → List Byte → Except (FaultKind × Nat) (List Byte × Nat)
  | [], pos, _, _ => .error (.outOfData, pos)
  | b :: bs, pos, cur, out =>
    match descend b cur with
    | .leaf v e =>
      if e then .ok (out, pos + 1)
      else if overCap p (out.length + 1) then .error (.outOverflow, 0)
      else walkFrom p root bs (pos + 1) root (out ++ [v])
    | .internal l r => walkFrom p root bs (pos + 1) (.internal l r) out

/-- How DECODE of a bit stream ends (R232 to R239). -/
def decodeBits (p : Params) (bs : Bits) : Ending :=
  match parseNode p (p.depthMax + 1) 1 0 false 0 bs with
  | .error x => .error x
  | .ok t =>
    if t.hasEob then
      match walkFrom p t.node t.rest t.pos t.node [] with
      | .error x => .error x
      | .ok (out, pos) => .ok ⟨out, t.pos, pos - t.pos⟩
    else .error (.malformedNoEob, t.pos)

/-- How DECODE of `payload` ends (R230 to R239). -/
def decodeEnding (p : Params) (payload : List Byte) : Ending := decodeBits p (bytesBits payload)

end Sys2Proof.Machine
end

