-- ==== Sys2Proof/Safety.lean ====
section
/-! DEFINITION. What the statements speak of: the buffers as byte lists, how a run ends, the phase graph of R43, and
the invariants of the machine. -/

namespace Sys2Proof.Machine

/-! ### Runs -/

/-- `k` steps from `s` answer the state `t`. -/
def Reaches (s : State) (k : Nat) (t : State) : Prop := Host.Core.run Sys2Proof.core k s = .next t

/-- `IN[0 .. IN_LEN - 1]` as ENGINE reads it (R25, R74). -/
def inData (s : State) : List Byte := (List.range s.inLen).map (inByte s)

/-- HOST leaves everything alone and the input is unchanged. -/
def SameInput (s t : State) : Prop :=
  t.inMem = s.inMem ∧ t.inLen = s.inLen ∧ t.params = s.params ∧ t.host = s.host ∧ t.rdata = s.rdata

/-- The registers a command writes only at its start, at its completion or at fault entry (R24, R26 to R30), the free
values drawn, and the era are unchanged. -/
def SameRegs (s t : State) : Prop :=
  t.err = s.err ∧ t.errPos = s.errPos ∧ t.outLen = s.outLen ∧ t.treeBits = s.treeBits ∧
    t.dataBits = s.dataBits ∧ t.totalBits = s.totalBits ∧ t.draws = s.draws ∧ t.era = s.era

/-- `OUT` and `OUT_N` are unchanged: nothing was stored. -/
def SameOut (s t : State) : Prop := t.outMem = s.outMem ∧ t.outN = s.outN

/-- The state at the end of a command (R316): a report in the registers and in `OUT`, or a fault in `ERR` and
`ERR_POS`. -/
def Ends (t : State) : Ending → Prop
  | .ok r =>
    t.phase = .done ∧ t.err = 0 ∧ t.errPos = 0 ∧ t.outLen = r.out.length ∧
      (∀ a, memGet t.outMem a = r.out[a]?) ∧
      t.treeBits = r.treeBits ∧ t.dataBits = r.dataBits ∧ t.totalBits = r.treeBits + r.dataBits
  | .error (f, pos) =>
    t.phase = .fault ∧ t.err = f.err ∧ t.errPos = (if f.recordsPos then pos else 0) ∧ t.outLen = 0 ∧
      t.outMem = []

/-- The bits passed to the writer since `wInit`, as the registers hold them (R125): the bytes emitted, then the partial
byte. -/
def writtenBits (s : State) : Bits :=
  bytesBits ((List.range s.outN).map fun j => (memGet s.outMem j).getD 0) ++ uintBits s.ctx.wAcc.toNat s.ctx.wN

/-! ### First occurrences -/

/-- The distinct values of a list in first-occurrence order (R150, R153). -/
def firstSeen (data : List Byte) : List Byte :=
  data.foldl (fun seen b => if b ∈ seen then seen else seen ++ [b]) []

/-! ### The phase graph -/

/-- The phases ENGINE's next move may lead to (R43); ENGINE stays where it is between two operations of one phase, and
outside a command. -/
def Phase.next : Phase → List Phase
  | .idle => [.idle]
  | .eFreq => [.eFreq, .eBuild]
  | .eBuild => [.eBuild, .eCodes]
  | .eCodes => [.eTree]
  | .eTree => [.eTree, .eData, .fault]
  | .eData => [.eData, .eEob, .fault]
  | .eEob => [.eFinish, .fault]
  | .eFinish => [.done, .fault]
  | .dTree => [.dTree, .dCheck, .fault]
  | .dCheck => [.dWalk, .fault]
  | .dWalk => [.dWalk, .done, .fault]
  | .done => [.done]
  | .fault => [.fault]

/-- The phases of ENCODE. -/
def Phase.encoding : Phase → Bool
  | .eFreq | .eBuild | .eCodes | .eTree | .eData | .eEob | .eFinish => true
  | .idle | .dTree | .dCheck | .dWalk | .done | .fault => false

/-- The phases of DECODE. -/
def Phase.decoding : Phase → Bool
  | .dTree | .dCheck | .dWalk => true
  | .idle | .eFreq | .eBuild | .eCodes | .eTree | .eData | .eEob | .eFinish | .done | .fault => false

/-! ### Invariants -/

/-- Both memories are canonical. -/
def MemInv (s : State) : Prop := Memory.wf s.inMem = true ∧ Memory.wf s.outMem = true

/-- The values of `ERR` that appear (R24, R270, I30). -/
def errValues : List (BitVec 8) := [0x00, 0x01, 0x12, 0x22, 0x32, 0x03, 0x04]

/-- The registers HOST sees: `IN_LEN` within `LEN_W` bits (R25); `ERR` one of its values, 0 outside ERROR (R24);
`ERR_POS` 0 outside ERROR and for faults that record no position (R30); `OUT_LEN` 0 outside DONE (R26, R254). -/
def RegInv (s : State) : Prop :=
  s.inLen < 2 ^ s.params.lenW ∧
  s.err ∈ errValues ∧
  (s.phase ≠ .fault → s.err = 0 ∧ s.errPos = 0) ∧
  (s.phase = .fault → s.err ≠ 0) ∧
  (s.err = 0x03 ∨ s.err = 0x04 → s.errPos = 0) ∧
  (s.phase ≠ .done → s.outLen = 0)

/-- `OUT` lists exactly the bytes emitted while BUSY (R32), exactly the result when DONE, nothing otherwise; never more
than `OUT_CAP` (R75). -/
def OutInv (s : State) : Prop :=
  (s.busy = true → ∀ a, (memGet s.outMem a).isSome = decide (a < s.outN)) ∧
  (s.phase = .done → ∀ a, (memGet s.outMem a).isSome = decide (a < s.outLen)) ∧
  (s.phase = .idle ∨ s.phase = .fault → s.outMem = []) ∧
  (∀ c, s.params.outCap = some c → (s.busy = true → s.outN ≤ c) ∧ (s.phase = .done → s.outLen ≤ c))

/-- The writer's registers while ENCODE runs (R39, R125), and the tree's share of the bits written (R191). -/
def WriterInv (s : State) : Prop :=
  s.phase.encoding = true →
    s.ctx.wN < 8 ∧ s.ctx.wAcc.toNat < 2 ^ s.ctx.wN ∧ s.ctx.wTotal = 8 * s.outN + s.ctx.wN ∧
    (s.phase = .eFreq ∨ s.phase = .eBuild ∨ s.phase = .eCodes → s.ctx.wTotal = 0) ∧
    (s.phase = .eTree → s.ctx.treeCount = s.ctx.wTotal) ∧
    (s.phase = .eData ∨ s.phase = .eEob ∨ s.phase = .eFinish → s.ctx.treeCount ≤ s.ctx.wTotal) ∧
    (s.phase = .eFreq ∨ s.phase = .eData → s.ctx.eIdx ≤ s.inLen)

/-- The reader's registers while DECODE runs (R40, R42, R193). -/
def ReaderInv (s : State) : Prop :=
  s.phase.decoding = true →
    s.ctx.rPos ≤ 8 * s.inLen ∧
    (s.phase = .dTree → s.ctx.nNodes ≤ s.params.nodeCap ∧ s.ctx.readStack.length ≤ s.params.depthMax) ∧
    (s.phase = .dCheck → s.treeBits = s.ctx.rPos) ∧
    (s.phase = .dWalk → s.treeBits ≤ s.ctx.rPos)

/-- The stack of `readNode` and that of `writeTree` are empty whenever that operation is not in progress (R198). -/
def StackInv (s : State) : Prop :=
  (s.phase ≠ .dTree → s.ctx.readStack = []) ∧ (s.phase ≠ .eTree → s.ctx.pending = [])

/-- When DONE the counters add up (R29). -/
def CountInv (s : State) : Prop := s.phase = .done → s.totalBits = s.treeBits + s.dataBits

/-- The invariant of the machine. -/
def Inv (s : State) : Prop :=
  MemInv s ∧ RegInv s ∧ OutInv s ∧ WriterInv s ∧ ReaderInv s ∧ CountInv s ∧ StackInv s

/-- Every byte of the input, and EOB, is a leaf of one of the trees. -/
def Covers (s : State) (ts : List Node) : Prop :=
  (∀ b ∈ inData s, ∃ t ∈ ts, b ∈ t.values) ∧ ∃ t ∈ ts, 0 < t.eobLeaves

/-- What makes every code lookup of ENCODE succeed (R184): the input bytes counted so far have a row, then a leaf, then
a code, and so does EOB. -/
def CodeInv (s : State) : Prop :=
  (s.phase = .eFreq → s.ctx.wl = [] ∧ ∀ k < s.ctx.eIdx, ∃ r ∈ s.ctx.ft, r.isEob = false ∧ r.value = inByte s k) ∧
  (s.phase = .eBuild →
    (s.ctx.wl = [] → Covers s ((initWL s.ctx.ft).map Entry.node)) ∧
    (s.ctx.wl ≠ [] → Covers s (s.ctx.wl.map Entry.node))) ∧
  (s.phase = .eCodes → Covers s [s.ctx.root]) ∧
  (s.phase = .eTree ∨ s.phase = .eData ∨ s.phase = .eEob →
    (∀ b ∈ inData s, (codeOf s.ctx.ct b).isSome = true) ∧ s.ctx.eobCode.isSome = true)

end Sys2Proof.Machine
end

