-- ==== Sys2Proof/Certificates/Slice0/Obligations.lean ====
section
/-! DEFINITION. The statements for the provers, from the numbered rules of spec/. Each docstring names the rule. -/

open Sys2Proof Sys2Proof.Machine

/-! ### Encodings -/

/-- R103: `CMD` is bits 1:0 of the value written to `CTRL`; bits 7:2 are ignored. -/
def Obligations.CtrlLowBitsSelectCommand : Prop :=
  ∀ h : BitVec 6,
    decodeCtrl (h ++ 0b00#2) = .nop ∧ decodeCtrl (h ++ 0b01#2) = .encode ∧
    decodeCtrl (h ++ 0b10#2) = .decode ∧ decodeCtrl (h ++ 0b11#2) = .reserved

/-- R93 to R95, R103: words written out bit by bit from the spec's formats and examples (K1, K3, K6, H4, H6). -/
def Obligations.SpecWordsDecode : Prop :=
  decodeToken [false] = .ok (.treeInternal, []) ∧
  decodeToken [true, false, false, true, false, false, false, false, false, true] =
    .ok (.treeLeaf false 0x41, []) ∧
  decodeToken [true, true, false, false, false, false, false, false, false, false] =
    .ok (.treeLeaf true 0x00, []) ∧
  decodeToken [true, false, true, true, true, true, true, true, true, true] =
    .ok (.treeLeaf false 0xFF, []) ∧
  decode (.ctrl 0b11111100#8) = .ok .nop ∧ decode (.ctrl 0b00000001#8) = .ok .encode ∧
  decode (.ctrl 0b00000110#8) = .ok .decode ∧ decode (.ctrl 0b00000011#8) = .ok .reserved

/-- Decoding the encoding of an instruction gives it back, for every operand value; a token is found at the front of
any stream that begins with its bits (R92: self-delimiting). -/
def Obligations.DecodeEncodeAgree : Prop :=
  (∀ i : Instr, i.wf = true → decode (encode i) = .ok i) ∧
  (∀ (i : Instr) (rest : Bits), i.isToken = true → decodeToken (tokenBits i ++ rest) = .ok (i, rest))

/-- R104: no bit pattern at a token position is illegal; a stream begins with exactly one token, unless it runs out. -/
def Obligations.NoTokenIsIllegal : Prop :=
  ∀ bs : Bits,
    match decodeToken bs with
    | .ok (i, rest) => i.isToken = true ∧ bs = tokenBits i ++ rest
    | .error r => r = .truncatedToken ∧ bs.length < 10 ∧ (∀ bs', bs ≠ false :: bs')

/-! ### A step runs the decoded instruction -/

/-- R250: HOST's write of an 8-bit value to `CTRL` decodes it and executes the command. For a value of more than 8 bits
it is the model's choice (entry 21) that `CTRL` takes the low 8 bits; R21's "ignores the rest" is its nearest rule. -/
def Obligations.StepRunsCtrlWrite : Prop :=
  ∀ (s : State) (v : Nat) (ms : List HostMove), s.host = .regWrite 0 v :: ms →
    step s = exec (decodeCtrl (BitVec.ofNat 8 v)) { s with host := ms }

/-- R192: in `PH_D_TREE`, when ENGINE has the turn, the token at the read cursor is executed: with no move of HOST
waiting, with `yield` (taken off the list), and with `wait` (left on it). -/
def Obligations.StepRunsFetchedToken : Prop :=
  ∀ (s : State) (i : Instr) (rest : Bits) (ms : List HostMove), s.phase = .dTree →
    decodeToken (streamBits s 10) = .ok (i, rest) →
    (s.host = [] → step s = exec i s) ∧
    (s.host = .yield :: ms → step s = exec i { s with host := ms }) ∧
    (s.host = .wait :: ms → step s = exec i s)

/-- R190: in `PH_E_TREE`, when ENGINE has the turn, it executes the token of the next node of the pre-order walk, its
children next in line: with no move of HOST waiting, with `yield` (taken off the list), and with `wait` (left on it). -/
def Obligations.StepRunsWrittenToken : Prop :=
  ∀ (s : State) (n : Node) (rest : List Node) (hs ms : List HostMove), s.phase = .eTree → s.ctx.pending = n :: rest →
    (s.host = [] ∧ hs = [] ∨ s.host = .yield :: ms ∧ hs = ms ∨ s.host = .wait :: ms ∧ hs = .wait :: ms) →
    step s = match n with
      | .leaf v e => exec (.treeLeaf e v) { s with host := hs, ctx := { s.ctx with pending := rest } }
      | .internal l r => exec .treeInternal { s with host := hs, ctx := { s.ctx with pending := l :: r :: rest } }

/-- R192, R127, R129: the fetched token is what reading marker, flag and value by `readBit` and `readUInt` gives, with
the cursor behind it; where there is none, the same reads raise OutOfData with the whole input consumed. -/
def Obligations.FetchAgreesWithBitReads : Prop :=
  ∀ s : State, s.ctx.rPos ≤ 8 * s.inLen →
    match peekToken s with
    | some i =>
      i.isToken = true ∧
      readTokenBits s = .ok i { s with ctx := { s.ctx with rPos := s.ctx.rPos + (tokenBits i).length } }
    | none => readTokenBits s = .raised (faultEntry .outOfData (8 * s.inLen) s)

/-! ### Commands -/

/-- R251: NOP changes no state; as a write of `CTRL`, whatever bits 7:2 are, only HOST's move is gone. -/
def Obligations.NopChangesNothing : Prop :=
  (∀ s : State, exec .nop s = .next s) ∧
  (∀ (s : State) (h : BitVec 6) (ms : List HostMove), s.host = .regWrite 0 (h ++ 0b00#2).toNat :: ms →
    step s = .next { s with host := ms })

/-- R211: the start of ENCODE, from any state that is not BUSY, and what it leaves unchanged. -/
def Obligations.EncodeStarts : Prop :=
  ∀ s : State, s.busy = false →
    ∃ t, exec .encode s = .next t ∧
      t.err = 0 ∧ t.errPos = 0 ∧ t.outLen = 0 ∧ t.treeBits = 0 ∧ t.dataBits = 0 ∧ t.totalBits = 0 ∧
      t.ctx = { s.ctx with ft := [], wl := [], ct := [], eobCode := none, wAcc := 0, wN := 0, wTotal := 0, eIdx := 0 } ∧
      t.outN = 0 ∧ t.outMem = [] ∧ t.phase = .eFreq ∧ t.status = 1 ∧
      SameInput s t ∧ t.draws = s.draws ∧ t.era = s.era + 1

/-- R231: the start of DECODE, from any state that is not BUSY, and what it leaves unchanged. -/
def Obligations.DecodeStarts : Prop :=
  ∀ s : State, s.busy = false →
    ∃ t, exec .decode s = .next t ∧
      t.err = 0 ∧ t.errPos = 0 ∧ t.outLen = 0 ∧ t.treeBits = 0 ∧ t.dataBits = 0 ∧ t.totalBits = 0 ∧
      t.ctx = { s.ctx with rPos := 0, nNodes := 0, hasEob := false, readStack := [] } ∧
      t.outN = 0 ∧ t.outMem = [] ∧ t.phase = .dTree ∧ t.status = 1 ∧
      SameInput s t ∧ t.draws = s.draws ∧ t.era = s.era + 1

/-- R252: the reserved command, from any state that is not BUSY, raises BadCommand: `STATE = ERROR`, `ERR = 0x03`,
`ERR_POS = 0`, `OUT_LEN = 0`; `IN` and `IN_LEN` unchanged. -/
def Obligations.ReservedRaisesBadCommand : Prop :=
  ∀ s : State, s.busy = false →
    ∃ t, exec .reserved s = .next t ∧
      t.phase = .fault ∧ t.status = 3 ∧ t.err = 0x03 ∧ t.errCode = 3 ∧ t.errSub = 0 ∧ t.errPos = 0 ∧
      t.outLen = 0 ∧ t.outN = 0 ∧ t.outMem = [] ∧ SameInput s t

/-- R306, R253: while BUSY a write of `CTRL`, whatever its value, and a write of `IN_LEN` are ignored. -/
def Obligations.BusyIgnoresWrites : Prop :=
  ∀ (s : State) (v : Nat) (ms : List HostMove), s.busy = true →
    (s.host = .regWrite 0 v :: ms → step s = .next { s with host := ms }) ∧
    (s.host = .regWrite 3 v :: ms → step s = .next { s with host := ms })

/-! ### The two tokens -/

/-- R192: TREE_INTERNAL in `PH_D_TREE`, within the limits of R193: one bit consumed, one node counted, the left child
is read next; nothing else changes. -/
def Obligations.TreeInternalRead : Prop :=
  ∀ s : State, s.phase = .dTree → s.ctx.readStack.length + 1 ≤ s.params.depthMax →
    s.ctx.nNodes < s.params.nodeCap →
    exec .treeInternal s = .next { s with ctx := { s.ctx with
      nNodes := s.ctx.nNodes + 1
      rPos := s.ctx.rPos + 1
      readStack := .awaitLeft :: s.ctx.readStack } }

/-- R192, R232: TREE_LEAF in `PH_D_TREE`, within the limits of R193: ten bits consumed, one node counted, `HAS_EOB` set
by an EOB leaf. The leaf closes the calls that have their left child (`ls`, innermost first); a call that waits for a
left child then reads its right one, and with no call left the tree is complete and `TREE_BITS` is the cursor. -/
def Obligations.TreeLeafRead : Prop :=
  ∀ (s : State) (e : Bool) (v : Byte) (ls : List Node) (gs : List Frame),
    s.phase = .dTree → s.ctx.readStack.length + 1 ≤ s.params.depthMax → s.ctx.nNodes < s.params.nodeCap →
    (s.ctx.readStack = ls.map Frame.awaitRight ++ .awaitLeft :: gs →
      exec (.treeLeaf e v) s = .next { s with ctx := { s.ctx with
        nNodes := s.ctx.nNodes + 1
        rPos := s.ctx.rPos + 10
        hasEob := s.ctx.hasEob || e
        readStack := .awaitRight (ls.foldl (fun n l => .internal l n) (.leaf v e)) :: gs } }) ∧
    (s.ctx.readStack = ls.map Frame.awaitRight →
      exec (.treeLeaf e v) s = .next { s with
        phase := .dCheck
        treeBits := s.ctx.rPos + 10
        ctx := { s.ctx with
          nNodes := s.ctx.nNodes + 1
          rPos := s.ctx.rPos + 10
          hasEob := s.ctx.hasEob || e
          readStack := []
          root := ls.foldl (fun n l => .internal l n) (.leaf v e) } })

/-- R190, R191: TREE_INTERNAL and TREE_LEAF in `PH_E_TREE`, while `OUT` has room for the bytes they complete: their
bits are appended to the bits written and counted. The bytes stored lie from `OUT_N` up to the new `OUT_N`; every other
byte, every register and the rest of the context are unchanged. -/
def Obligations.TokenWritten : Prop :=
  ∀ (s : State) (i : Instr), i.isToken = true → s.phase = .eTree → s.ctx.wN < 8 →
    (∀ c, s.params.outCap = some c → (8 * s.outN + s.ctx.wN + (tokenBits i).length) / 8 ≤ c) →
    ∃ t, exec i s = .next t ∧
      writtenBits t = writtenBits s ++ tokenBits i ∧
      t.outN = (8 * s.outN + s.ctx.wN + (tokenBits i).length) / 8 ∧
      (∀ a, a < s.outN ∨ t.outN ≤ a → memGet t.outMem a = memGet s.outMem a) ∧
      t.ctx = { s.ctx with
        wAcc := t.ctx.wAcc
        wN := (s.ctx.wN + (tokenBits i).length) % 8
        wTotal := s.ctx.wTotal + (tokenBits i).length
        treeCount := s.ctx.treeCount + (tokenBits i).length } ∧
      t.phase = .eTree ∧ SameInput s t ∧ SameRegs s t

/-- R75, R215, R274: a token that would complete byte number `OUT_CAP + 1` ends ENCODE in OutOverflow. -/
def Obligations.TokenWriteOverflows : Prop :=
  ∀ (s : State) (i : Instr) (c : Nat), i.isToken = true → s.phase = .eTree → s.ctx.wN < 8 →
    s.params.outCap = some c → s.outN ≤ c → c < (8 * s.outN + s.ctx.wN + (tokenBits i).length) / 8 →
    ∃ t, exec i s = .next t ∧ t.phase = .fault ∧ t.err = 0x04 ∧ t.errPos = 0 ∧ t.outLen = 0 ∧ SameInput s t

/-- R193: at a node beyond a limit the fault is raised before the marker bit is consumed, whatever bits follow, also
none; Depth comes before Capacity. -/
def Obligations.NodeLimitsTestedFirst : Prop :=
  ∀ s : State, s.phase = .dTree →
    (s.params.depthMax < s.ctx.readStack.length + 1 →
      engineStep s = .next (faultEntry .malformedDepth s.ctx.rPos s) ∧
      (∀ i : Instr, i.isToken = true → exec i s = .next (faultEntry .malformedDepth s.ctx.rPos s))) ∧
    (s.ctx.readStack.length + 1 ≤ s.params.depthMax → s.ctx.nNodes = s.params.nodeCap →
      engineStep s = .next (faultEntry .malformedCapacity s.ctx.rPos s) ∧
      (∀ i : Instr, i.isToken = true → exec i s = .next (faultEntry .malformedCapacity s.ctx.rPos s)))

/-- R192, R236: within the limits, where the input ends inside the token, OutOfData with every input bit consumed. -/
def Obligations.TruncatedTokenRaisesOutOfData : Prop :=
  ∀ s : State, s.phase = .dTree → s.ctx.rPos ≤ 8 * s.inLen →
    s.ctx.readStack.length + 1 ≤ s.params.depthMax → s.ctx.nNodes < s.params.nodeCap → peekToken s = none →
    engineStep s = .next (faultEntry .outOfData (8 * s.inLen) s)

/-! ### Other moves of ENGINE -/

/-- R194: after the tree, no EOB leaf is MalformedTree/NoEob at the end of the tree; else the walk begins at the root. -/
def Obligations.EobIsChecked : Prop :=
  ∀ s : State, s.phase = .dCheck →
    (s.ctx.hasEob = false →
      ∃ t, engineStep s = .next t ∧ t.phase = .fault ∧ t.err = 0x32 ∧ t.errPos = s.ctx.rPos ∧ t.outLen = 0 ∧
        t.outN = s.outN) ∧
    (s.ctx.hasEob = true →
      engineStep s = .next { s with phase := .dWalk, ctx := { s.ctx with cur := s.ctx.root } })

/-- R233 to R237: one iteration of the walk. A bit is read and one edge descended (a leaf root is not left, R234); an
EOB leaf ends the command with the counters of R237, another leaf emits its value where `OUT` has room, an inner node is
walked on from. Only the emitting iteration needs room in `OUT`. -/
def Obligations.WalkReadsOneBit : Prop :=
  ∀ (s : State) (n : Node), s.phase = .dWalk → s.ctx.rPos < 8 * s.inLen →
    (n = match s.ctx.cur with
      | .leaf v e => .leaf v e
      | .internal l r => if inBit s s.ctx.rPos then r else l) →
    match n with
    | .internal l r =>
      engineStep s = .next { s with ctx := { s.ctx with rPos := s.ctx.rPos + 1, cur := .internal l r } }
    | .leaf v false =>
      (∀ c, s.params.outCap = some c → s.outN < c) →
      engineStep s = .next { s with
        outMem := memSet s.outMem s.outN v
        outN := s.outN + 1
        ctx := { s.ctx with rPos := s.ctx.rPos + 1, cur := s.ctx.root } }
    | .leaf _ true =>
      ∃ t, engineStep s = .next t ∧ t.phase = .done ∧ t.outLen = s.outN ∧ t.totalBits = s.ctx.rPos + 1 ∧
        t.dataBits = s.ctx.rPos + 1 - s.treeBits ∧ t.treeBits = s.treeBits ∧ SameOut s t ∧ SameInput s t ∧
        t.err = s.err ∧ t.errPos = s.errPos

/-- R233, R276: in the walk, OutOfData when no bit is left, also where `OUT` is full; OutOverflow when a byte is to be
emitted into a full `OUT`. -/
def Obligations.WalkFaults : Prop :=
  ∀ s : State, s.phase = .dWalk →
    (8 * s.inLen ≤ s.ctx.rPos →
      ∃ t, engineStep s = .next t ∧ t.phase = .fault ∧ t.err = 0x01 ∧ t.errPos = s.ctx.rPos ∧ t.outLen = 0) ∧
    (∀ v, s.ctx.rPos < 8 * s.inLen → s.params.outCap = some s.outN →
      descend (inBit s s.ctx.rPos) s.ctx.cur = .leaf v false →
      ∃ t, engineStep s = .next t ∧ t.phase = .fault ∧ t.err = 0x04 ∧ t.errPos = 0 ∧ t.outLen = 0)

/-- R277, with the codes of R270: what fault entry records; from then on every byte of `OUT` and the three counters read
as free values, and the context is one but for its empty stacks (entries 3, 4, 5, R198); `IN` and `IN_LEN` are unchanged. -/
def Obligations.FaultEntryRecords : Prop :=
  ∀ (f : FaultKind) (pos : Nat) (s : State),
    (faultEntry f pos s).err = (match f with
      | .outOfData => 0x01
      | .malformedDepth => 0x12
      | .malformedCapacity => 0x22
      | .malformedNoEob => 0x32
      | .badCommand => 0x03
      | .outOverflow => 0x04) ∧
    (faultEntry f pos s).errCode = f.code ∧ (faultEntry f pos s).errSub = f.sub ∧
    (faultEntry f pos s).errPos = (match f with
      | .outOfData | .malformedDepth | .malformedCapacity | .malformedNoEob => pos
      | .badCommand | .outOverflow => 0) ∧
    (faultEntry f pos s).outLen = 0 ∧ (faultEntry f pos s).phase = .fault ∧ (faultEntry f pos s).status = 3 ∧
    SameInput s (faultEntry f pos s) ∧
    (∀ a, (readOut a (faultEntry f pos s)).1 = Config.freeByte (faultEntry f pos s).draws) ∧
    (∀ n, n = 5 ∨ n = 6 ∨ n = 7 →
      (readReg n (faultEntry f pos s)).1 = Config.freeCount (faultEntry f pos s).draws % 2 ^ (s.params.lenW + 9)) ∧
    (∃ d, (faultEntry f pos s).ctx = { Config.freeContext d with readStack := [], pending := [] })

/-- R75: `emit` stores its byte at `OUT_N` and counts it, or raises OutOverflow when `OUT_CAP` is reached. -/
def Obligations.EmitStoresOneByte : Prop :=
  ∀ (b : Byte) (s : State),
    (s.params.outCap = some s.outN → emit b s = .raised (faultEntry .outOverflow 0 s)) ∧
    ((∀ c, s.params.outCap = some c → s.outN < c) →
      ∃ t, emit b s = .ok () t ∧ t.outN = s.outN + 1 ∧
        (∀ a, memGet t.outMem a = if a = s.outN then some b else memGet s.outMem a) ∧
        t.ctx = s.ctx ∧ t.phase = s.phase ∧ SameInput s t ∧ SameRegs s t)

/-! ### The port, the buffers, reset -/

/-- R21, R22, R23: reads by register number, 0 for `CTRL` and above 8; reads change nothing of CORE; writes other than
to `CTRL` and `IN_LEN` are ignored. So by HOST's moves: a step on a read delivers that value in `rdata`, a step on such a
write only takes the move off the list (entry 8). -/
def Obligations.RegisterPort : Prop :=
  ∀ s : State,
    (readReg 0 s).1 = 0 ∧ (readReg 1 s).1 = s.status.toNat ∧ (readReg 2 s).1 = s.err.toNat ∧
    (readReg 3 s).1 = s.inLen ∧ (readReg 4 s).1 = s.outLen ∧ (readReg 8 s).1 = s.errPos ∧
    (s.phase = .idle ∨ s.phase = .done →
      (readReg 5 s).1 = s.treeBits ∧ (readReg 6 s).1 = s.dataBits ∧ (readReg 7 s).1 = s.totalBits) ∧
    (∀ n, 8 < n → (readReg n s).1 = 0) ∧
    (∀ n, (readReg n s).2 = { s with draws := (readReg n s).2.draws }) ∧
    (∀ n v, n ≠ 0 → n ≠ 3 → writeReg n v s = .next s) ∧
    (∀ n ms, s.host = .regRead n :: ms →
      ∃ d, step s = .next { s with host := ms, rdata := (readReg n s).1, draws := d }) ∧
    (∀ n v ms, s.host = .regWrite n v :: ms → n ≠ 0 → n ≠ 3 → step s = .next { s with host := ms })

/-- R23: `STATUS.STATE` by phase; bits 7:2 read 0; 0 after reset. -/
def Obligations.StatusOfPhase : Prop :=
  State.reset.status = 0 ∧ ∀ s : State,
    (s.status = 0 ↔ s.phase = .idle) ∧
    (s.status = 1 ↔ s.phase ∈ [.eFreq, .eBuild, .eCodes, .eTree, .eData, .eEob, .eFinish, .dTree, .dCheck, .dWalk]) ∧
    (s.status = 2 ↔ s.phase = .done) ∧ (s.status = 3 ↔ s.phase = .fault) ∧ s.status.toNat < 4

/-- R257: a write of `IN_LEN` while not BUSY stores the value cut to `LEN_W` bits; while BUSY it is ignored. -/
def Obligations.InLenWrite : Prop :=
  ∀ (s : State) (v : Nat) (ms : List HostMove), s.host = .regWrite 3 v :: ms →
    (s.busy = false → step s = .next { s with host := ms, inLen := v % 2 ^ s.params.lenW }) ∧
    (s.busy = true → step s = .next { s with host := ms })

/-- R255, R31, R60: HOST's write of `IN[a]`, at an address that exists and while not BUSY: ENGINE then reads that byte
there, the byte written last is what `IN` holds at `a`, every other address is as before and no other field changes.
HOST's read of `IN[a]` delivers the byte written last; of a byte never written, a free value (entry 2). -/
def Obligations.HostLoadsIn : Prop :=
  ∀ (s : State) (a : Nat) (ms : List HostMove), s.busy = false → a ≤ 2 ^ s.params.lenW - 2 → 1 ≤ s.params.lenW →
    (∀ b : Byte, s.host = .inWrite a b :: ms →
      ∃ t, step s = .next t ∧ (∀ a', inByte t a' = if a' = a then b else inByte s a') ∧
        (∀ a', memGet t.inMem a' = if a' = a then some b else memGet s.inMem a') ∧
        t = { s with host := ms, inMem := t.inMem }) ∧
    (s.host = .inRead a :: ms →
      (∀ b, memGet s.inMem a = some b → step s = .next { s with host := ms, rdata := b.toNat }) ∧
      (memGet s.inMem a = none →
        ∃ d, step s = .next { s with host := ms, rdata := (Config.freeByte s.draws).toNat, draws := d }))

/-- R256: while DONE, a read of `OUT[a]` below `OUT_LEN` delivers the byte of the result and changes nothing else; any
other read of `OUT` delivers a free value (entry 3), and counts the free values drawn (entry 9). -/
def Obligations.HostReadsResult : Prop :=
  ∀ (s : State) (a : Nat) (ms : List HostMove), s.host = .outRead a :: ms →
    (∀ b, s.phase = .done → a < s.outLen → memGet s.outMem a = some b →
      step s = .next { s with host := ms, rdata := b.toNat }) ∧
    (¬ (s.phase = .done ∧ a < s.outLen) →
      step s = .next { s with host := ms, rdata := (Config.freeByte s.draws).toNat, draws := s.draws + 1 })

/-- R301, R47: the state after reset, by power-on and by the reset input at any time, also while BUSY (R300, R303). The
bytes of `IN` and `OUT` are free values (entries 2, 3), and ENGINE does nothing. -/
def Obligations.ResetState : Prop :=
  (∀ t : State, (t = State.reset ∨ ∃ s ms, s.host = .reset :: ms ∧ step s = .next t) →
    t.phase = .idle ∧ t.status = 0 ∧ t.err = 0 ∧ t.inLen = 0 ∧ t.outLen = 0 ∧ t.treeBits = 0 ∧ t.dataBits = 0 ∧
    t.totalBits = 0 ∧ t.errPos = 0 ∧ t.outN = 0 ∧ (readReg 0 t).1 = 0 ∧
    (∀ a, inByte t a = Config.freeIn t.era a) ∧ (∀ a, (readOut a t).1 = Config.freeByte t.draws) ∧
    engineStep t = .next t) ∧
  (∀ (s : State) (ms : List HostMove), s.host = .reset :: ms → ∃ t, step s = .next t ∧ t.host = ms ∧ t.params = s.params)

/-! ### BitStream -/

/-- R125: the writer law. When the bits `bs` have been written from `wInit`, they are counted, stored eight a byte with
the first in bit 7, and the rest is held in `W_ACC`; when `finish` has completed the last byte, its low-order bits are
zeros (`packBits`). With `OUT_CAP` unbounded both always complete. -/
def Obligations.WriterLaw : Prop :=
  (∀ (s t : State) (bs : Bits), writeBits bs (wInit s) = .ok () t →
    t.ctx.wTotal = bs.length ∧ t.outN = bs.length / 8 ∧ t.ctx.wN = bs.length % 8 ∧
    (∀ j < t.outN, memGet t.outMem j = some (byteOfBits ((bs.drop (8 * j)).take 8))) ∧
    t.ctx.wAcc = byteOfBits (bs.drop (8 * t.outN)) ∧
    ∀ u, finish t = .ok () u →
      u.outN = (bs.length + 7) / 8 ∧ u.ctx.wTotal = bs.length ∧
      (∀ j < u.outN, memGet u.outMem j = (packBits bs)[j]?)) ∧
  (∀ (s : State) (bs : Bits), s.params.outCap = none →
    ∃ t u, writeBits bs (wInit s) = .ok () t ∧ finish t = .ok () u)

/-- R131: the reader-writer law. Over the bytes of a bit sequence, `readBit` returns the bits in order, then the
padding zeros, then raises OutOfData; `readUInt(n)` over the bits of `writeUInt(v, n)` returns `v mod 2^n`. -/
def Obligations.ReaderReturnsWrittenBits : Prop :=
  (∀ (s : State) (bs : Bits), s.inLen = (bs.length + 7) / 8 → (∀ j < s.inLen, memGet s.inMem j = (packBits bs)[j]?) →
    (s.ctx.rPos < bs.length → ∃ b, bs[s.ctx.rPos]? = some b ∧
      readBit s = .ok b { s with ctx := { s.ctx with rPos := s.ctx.rPos + 1 } }) ∧
    (bs.length ≤ s.ctx.rPos → s.ctx.rPos < 8 * s.inLen →
      readBit s = .ok false { s with ctx := { s.ctx with rPos := s.ctx.rPos + 1 } }) ∧
    (s.ctx.rPos = 8 * s.inLen → readBit s = .raised (faultEntry .outOfData (8 * s.inLen) s))) ∧
  (∀ (s : State) (v n : Nat), n ≤ 32 → s.ctx.rPos + n ≤ 8 * s.inLen → streamBits s n = uintBits v n →
    readUInt n s = .ok (v % 2 ^ n) { s with ctx := { s.ctx with rPos := s.ctx.rPos + n } })

/-- R127, R128: `readBitAvailable` is true exactly when the next `readBit` would not fault. R130: the register-level
reader is the same reader: `R_POS = 8 * R_IDX - R_REM` is kept, the bits and the availability are the same, and it runs
out where `readBit` raises. -/
def Obligations.RegisterReaderEquivalent : Prop :=
  (∀ s : State, readBitAvailable s = true ↔ ∃ b t, readBit s = .ok b t) ∧
  (∀ (s : State) (r : RegReader), r.rem ≤ 8 → r.idx ≤ s.inLen → r.rem ≤ 8 * r.idx → s.ctx.rPos = 8 * r.idx - r.rem →
    (0 < r.rem → r.cur = inByte s (r.idx - 1)) →
    regReadBitAvailable s r = readBitAvailable s ∧
    (∀ cur, (regReaderInit cur).idx = 0 ∧ (regReaderInit cur).rem = 0) ∧
    (match regReadBit s r with
      | none => readBit s = .raised (faultEntry .outOfData s.ctx.rPos s)
      | some (b, r') =>
        readBit s = .ok b { s with ctx := { s.ctx with rPos := s.ctx.rPos + 1 } } ∧
        r'.rem ≤ 8 ∧ r'.idx ≤ s.inLen ∧ r'.rem ≤ 8 * r'.idx ∧ s.ctx.rPos + 1 = 8 * r'.idx - r'.rem ∧
        (0 < r'.rem → r'.cur = inByte s (r'.idx - 1))))

/-! ### FrequencyAnalyzer and TreeBuilder -/

/-- R150, R152, R153: one row per distinct byte value in first-occurrence order, with its number of occurrences, then
the EOB row. -/
def Obligations.FrequenciesInFirstOccurrenceOrder : Prop :=
  ∀ data : List Byte,
    analyzeAll data = (firstSeen data).map (fun v => ⟨v, data.count v, false⟩) ++ [⟨0x00, 0, true⟩] ∧
    (firstSeen data).Nodup ∧ (∀ v, v ∈ firstSeen data ↔ v ∈ data) ∧
    ((analyzeAll data).map FEntry.count).sum = data.length ∧
    1 ≤ (analyzeAll data).length ∧ (analyzeAll data).length ≤ 257

/-- R161: the stable sort is the one permutation with weights ascending and equal weights in their earlier order. -/
def Obligations.StableSortResult : Prop :=
  ∀ wl : List Entry,
    (stableSort wl).Perm wl ∧ (stableSort wl).Pairwise (fun a b => a.weight ≤ b.weight) ∧
    (∀ w, (stableSort wl).filter (fun e => e.weight = w) = wl.filter (fun e => e.weight = w)) ∧
    (∀ l : List Entry, l.Pairwise (fun a b => a.weight ≤ b.weight) →
      (∀ w, l.filter (fun e => e.weight = w) = wl.filter (fun e => e.weight = w)) → l = stableSort wl)

/-- R162: a merge takes the two lightest entries, makes the heavier (on a tie the later) the left child, appends the
new entry, and shortens the list by one. -/
def Obligations.MergeJoinsTwoLightest : Prop :=
  ∀ wl : List Entry, 2 ≤ wl.length →
    ∃ min second rest, stableSort wl = min :: second :: rest ∧ min.weight ≤ second.weight ∧
      (∀ e ∈ rest, second.weight ≤ e.weight) ∧
      mergeStep wl = rest ++ [⟨.internal second.node min.node, min.weight + second.weight⟩] ∧
      (mergeStep wl).length + 1 = wl.length

/-- R164: after the first sort, sorting again only moves the appended entry behind every entry of weight less than or
equal to its own. -/
def Obligations.ResortIsInsertion : Prop :=
  ∀ (wl : List Entry) (e : Entry), wl.Pairwise (fun a b => a.weight ≤ b.weight) →
    stableSort (wl ++ [e]) = insertBehind e wl

/-- R166, R35: the shape of the built tree: one leaf per row, `2L - 1` nodes, at most 513; depth at most `L`; one EOB
leaf; the other leaves are the distinct input bytes. -/
def Obligations.BuiltTreeShape : Prop :=
  ∀ data : List Byte,
    (treeOf data).leaves = (analyzeAll data).length ∧
    (treeOf data).size + 1 = 2 * (analyzeAll data).length ∧ (treeOf data).size ≤ 513 ∧
    (treeOf data).depth ≤ (analyzeAll data).length ∧
    (treeOf data).eobLeaves = 1 ∧ (treeOf data).values.Perm (firstSeen data)

/-- R167, R168: the empty input gives the EOB leaf, the only leaf root; `n` copies of one value give `(Lv EOB)` with
codes "0" and "1". -/
def Obligations.DegenerateTrees : Prop :=
  (∀ data : List Byte, (∃ v e, treeOf data = .leaf v e) ↔ data = []) ∧ treeOf [] = .leaf 0x00 true ∧
  (∀ (v : Byte) (n : Nat), 1 ≤ n →
    treeOf (List.replicate n v) = .internal (.leaf v false) (.leaf 0x00 true) ∧
    codeOf (generate (treeOf (List.replicate n v))).slots v = some [false] ∧
    (generate (treeOf (List.replicate n v))).eob = some [true])

/-- R165: for a non-empty input the EOB leaf is a right child: its code ends in 1. -/
def Obligations.EobCodeEndsInOne : Prop :=
  ∀ data : List Byte, data ≠ [] → ∃ code, (generate (treeOf data)).eob = some (code ++ [true])

/-! ### CodeTableGenerator and TreeCodec -/

/-- R182: the table of an encoder-built tree: set exactly for the bytes that occur; EOB is set; no code is the beginning
of another one, EOB's included; with a single leaf the table has one code, "0". -/
def Obligations.CodesArePrefixFree : Prop :=
  ∀ data : List Byte,
    (∀ v : Byte, (codeOf (generate (treeOf data)).slots v).isSome = true ↔ v ∈ data) ∧
    (data = [] → generate (treeOf data) = ⟨[], some [false]⟩) ∧
    ∃ eob, (generate (treeOf data)).eob = some eob ∧
      (∀ (v : Byte) (c : Bitcode), codeOf (generate (treeOf data)).slots v = some c → ¬ c <+: eob ∧ ¬ eob <+: c) ∧
      (∀ (v w : Byte) (c d : Bitcode), codeOf (generate (treeOf data)).slots v = some c →
        codeOf (generate (treeOf data)).slots w = some d → c <+: d → v = w)

/-- R183: a code has between 1 and `max(1, L - 1)` bits, at most 256. -/
def Obligations.CodeLengths : Prop :=
  ∀ (data : List Byte) (c : Bitcode),
    ((generate (treeOf data)).eob = some c ∨ ∃ v, codeOf (generate (treeOf data)).slots v = some c) →
    1 ≤ c.length ∧ c.length ≤ max 1 ((treeOf data).leaves - 1) ∧ c.length ≤ 256

/-- R102: `L - 1` internal nodes and `11 * L - 1` bits for a tree with `L` leaves; 10 to 2826 for an encoder-built tree. -/
def Obligations.TreeSectionLength : Prop :=
  (∀ t : Node, t.size = t.leaves + (t.leaves - 1) ∧ (treeStream t).length = 11 * t.leaves - 1) ∧
  (∀ data : List Byte, 10 ≤ (treeStream (treeOf data)).length ∧ (treeStream (treeOf data)).length ≤ 2826)

/-- R190, R191: `PH_E_TREE` writes the serialization of the tree, one token a step, and counts `11 * L - 1` bits. -/
def Obligations.TreeIsWritten : Prop :=
  ∀ (s : State) (t : Node), s.phase = .eTree → s.host = [] → s.ctx.pending = [t] → s.ctx.wN < 8 →
    s.params.outCap = none →
    ∃ u, Reaches s t.size u ∧ u.phase = .eTree ∧ u.ctx.pending = [] ∧
      writtenBits u = writtenBits s ++ treeStream t ∧
      u.ctx.treeCount = s.ctx.treeCount + (11 * t.leaves - 1) ∧
      u.ctx.wTotal = s.ctx.wTotal + (11 * t.leaves - 1) ∧ SameInput s u ∧ SameRegs s u

/-- R192, R196, R232: `PH_D_TREE` reads back any tree within the limits whose serialization lies at the cursor, one
token a step, consumes exactly its bits, and leaves the cursor behind it. -/
def Obligations.TreeIsReadBack : Prop :=
  ∀ (s : State) (t : Node), s.phase = .dTree → s.host = [] → s.ctx.readStack = [] → s.ctx.nNodes = 0 →
    t.fits s.params = true → streamBits s (treeStream t).length = treeStream t →
    ∃ u, Reaches s t.size u ∧ u.phase = .dCheck ∧ u.ctx.root = t ∧
      u.ctx.rPos = s.ctx.rPos + (treeStream t).length ∧ u.treeBits = u.ctx.rPos ∧ u.ctx.nNodes = t.size ∧
      u.ctx.hasEob = (s.ctx.hasEob || decide (0 < t.eobLeaves)) ∧ SameInput s u ∧ SameOut s u

/-! ### Whole commands -/

/-- R210 to R217, R316: ENCODE from any state that is not BUSY runs, BUSY all the while, to the end the reference
`encode` gives for the bytes in `IN`: DONE with its payload and counters, or OutOverflow when `OUT_CAP` is too small. -/
def Obligations.EncodeRuns : Prop :=
  ∀ s : State, s.busy = false → s.host = [] →
    exec .encode s = .next (startEncode s) ∧
    ∃ k t, Reaches (startEncode s) k t ∧
      (∀ j < k, ∃ u, Reaches (startEncode s) j u ∧ u.busy = true) ∧
      Ends t (encodeEnding s.params (inData (startEncode s))) ∧ SameInput s t

/-- R230 to R241, R316: DECODE from any state that is not BUSY runs, BUSY all the while, to the end the reference
`decode` gives for the bytes in `IN`: DONE with the data and counters, or the fault and its position. -/
def Obligations.DecodeRuns : Prop :=
  ∀ s : State, s.busy = false → s.host = [] →
    exec .decode s = .next (startDecode s) ∧
    ∃ k t, Reaches (startDecode s) k t ∧
      (∀ j < k, ∃ u, Reaches (startDecode s) j u ∧ u.busy = true) ∧
      Ends t (decodeEnding s.params (inData (startDecode s))) ∧ SameInput s t

/-- R240, R19: `decode(encode(data)) = data` for every input and every legal configuration, with the same counters;
whatever bits or bytes follow the payload (R101, R235). -/
def Obligations.RoundTrip : Prop :=
  ∀ (p : Params) (data trailing : List Byte), p.wf = true → overCap p data.length = false →
    decodeEnding p (encodeBytes data ++ trailing) =
      .ok ⟨data, (treeStream (treeOf data)).length, (dataStream (generate (treeOf data)) data).length⟩

/-- R258: ROUNDTRIP on the machine: it ends DONE with `OUT` equal to the original data. The payload must fit `IN`. -/
def Obligations.RoundtripProgramRuns : Prop :=
  ∀ s : State, s.busy = false → s.host = roundtripProgram → s.params.wf = true → s.params.outCap = none →
    (encodeBytes (inData (startEncode s))).length < 2 ^ s.params.lenW →
    ∃ k t, Reaches s k t ∧ t.host = [] ∧
      Ends t (.ok ⟨inData (startEncode s), (treeStream (treeOf (inData (startEncode s)))).length,
        (dataStream (generate (treeOf (inData (startEncode s)))) (inData (startEncode s))).length⟩)

/-- R310: a payload ENCODE made, cut anywhere, gives OutOfData at its end and never a wrong result. -/
def Obligations.ShortenedPayloadFaults : Prop :=
  ∀ (p : Params) (data : List Byte) (n : Nat), p.wf = true → p.outCap = none → n < (encodeBytes data).length →
    decodeEnding p ((encodeBytes data).take n) = .error (.outOfData, 8 * n)

/-- R100, R101, R235: a DECODE that completes reads no bit behind the EOB code: whatever bits stand there, padding of the
last byte or later bytes, more of them, fewer or none, it completes with the same bytes and counters. -/
def Obligations.TrailingBitsIgnored : Prop :=
  ∀ (p : Params) (bs : Bits) (r : Report), decodeBits p bs = .ok r →
    r.treeBits + r.dataBits ≤ bs.length ∧
    ∀ extra : Bits, decodeBits p (bs.take (r.treeBits + r.dataBits) ++ extra) = .ok r

/-- R216: what ENCODE leaves is a function of the input bytes and of `OUT_CAP`; nothing else the two states hold, no
earlier command and no other parameter, can change it. -/
def Obligations.EncodeDependsOnInputOnly : Prop :=
  ∀ s₁ s₂ : State, s₁.busy = false → s₂.busy = false → s₁.host = [] → s₂.host = [] →
    s₁.params.outCap = s₂.params.outCap →
    inData (startEncode s₁) = inData (startEncode s₂) →
    ∃ k₁ k₂ t₁ t₂, Reaches (startEncode s₁) k₁ t₁ ∧ Reaches (startEncode s₂) k₂ t₂ ∧
      t₁.busy = false ∧ t₁.phase = t₂.phase ∧ t₁.err = t₂.err ∧ t₁.errPos = t₂.errPos ∧ t₁.outLen = t₂.outLen ∧
      (∀ a, memGet t₁.outMem a = memGet t₂.outMem a) ∧
      (t₁.phase = .done →
        t₁.treeBits = t₂.treeBits ∧ t₁.dataBits = t₂.dataBits ∧ t₁.totalBits = t₂.totalBits)

/-- R15, R76: no bit counter outgrows its register, and the payload no more than R76's bound, for an input that
`IN_LEN` can express. -/
def Obligations.CountersNeverOverflow : Prop :=
  (∀ (p : Params) (data : List Byte), 1 ≤ p.lenW → data.length < 2 ^ p.lenW →
    (payloadBits data).length < 2 ^ bitcntW p) ∧
  (∀ data : List Byte, (encodeBytes data).length = ((payloadBits data).length + 7) / 8 ∧
    (encodeBytes data).length ≤ (2826 + 256 * (data.length + 1) + 7) / 8)

/-! ### Rules over all moves -/

/-- R43: ENGINE moves along the phase graph only. -/
def Obligations.PhaseGraphIsFollowed : Prop :=
  ∀ s t : State, engineStep s = .next t → t.phase ∈ s.phase.next

/-- R31, R25, R254: no move of ENGINE changes `IN`, `IN_LEN`, HOST's moves or the parameters. Between the start of a
command and its end the registers `ERR`, `ERR_POS`, `OUT_LEN` are untouched, and `OUT` is stored to only at `OUT_N`,
upward (R32). -/
def Obligations.EngineFrame : Prop :=
  ∀ s t : State, engineStep s = .next t →
    SameInput s t ∧
    (t.phase ≠ .fault → s.outN ≤ t.outN ∧ ∀ a, a < s.outN ∨ t.outN ≤ a → memGet t.outMem a = memGet s.outMem a) ∧
    (t.busy = true → t.err = s.err ∧ t.errPos = s.errPos ∧ t.outLen = s.outLen ∧ t.era = s.era)

/-- R21, R254, R256, R65: a read by HOST, of a register or of a buffer, changes nothing of CORE. -/
def Obligations.HostReadsChangeNothing : Prop :=
  ∀ (s t : State) (m : HostMove) (ms : List HostMove), s.host = m :: ms →
    ((∃ n, m = .regRead n) ∨ (∃ a, m = .inRead a) ∨ (∃ a, m = .outRead a)) → step s = .next t →
    t = { s with host := ms, rdata := t.rdata, draws := t.draws }

/-- The invariant holds after reset. -/
def Obligations.InvHoldsAtReset : Prop := Inv State.reset ∧ CodeInv State.reset

/-- Every step of the machine, of HOST and of ENGINE, keeps the invariant: canonical memories; `IN_LEN` within `LEN_W`
bits (R25); the values of `ERR` and `ERR_POS` (R24, R30); `OUT_LEN` 0 outside DONE (R26); `OUT` listed exactly up to
`OUT_N` (R32) and within `OUT_CAP` (R75); the writer's and the reader's registers in range (R39, R40, R42, R125);
`TOTAL_BITS` the sum (R29); the stacks of `readNode` and `writeTree` empty outside those operations (R198). -/
def Obligations.InvIsKept : Prop := ∀ s t : State, Inv s → step s = .next t → Inv t

/-- R184, R153: every code lookup of ENCODE succeeds: the invariant that says so is kept, and where it holds no step
stops for a missing code or an empty frequency list. -/
def Obligations.NoCodeIsMissing : Prop :=
  (∀ s t : State, CodeInv s → step s = .next t → CodeInv t) ∧
  (∀ s : State, CodeInv s → step s ≠ .fault .missingCode ∧ step s ≠ .fault .emptyFrequencyList)

/-- R305, R31: the only stops of a step, where lookups succeed, are HOST's: a write of `IN` while BUSY and an access of
`IN` outside its addresses. No instruction and no move of ENGINE stops. -/
def Obligations.OnlyHostMisuseStops : Prop :=
  ∀ s : State, CodeInv s →
    (∀ r, step s ≠ .refused r) ∧
    (∀ f, step s = .fault f →
      (f = .inWriteWhileBusy ∧ s.busy = true ∧ ((∃ a b ms, s.host = .inWrite a b :: ms) ∨ ∃ ms, s.host = .copyBack :: ms)) ∨
      (f = .noSuchInAddress ∧ ((∃ a b ms, s.host = .inWrite a b :: ms ∧ 2 ^ s.params.lenW - 2 < a) ∨
        (∃ a ms, s.host = .inRead a :: ms ∧ 2 ^ s.params.lenW - 2 < a) ∨
        (∃ ms, s.host = .copyBack :: ms ∧ 2 ^ s.params.lenW - 1 < s.outLen) ∨ s.params.lenW = 0)))
end

