-- ==== Sys2Proof/Laws/Memory.lean ====
section
/-! SUPPORT. Sorted tables and memories: what a read gives after a write, and that every operation keeps the canonical
form. -/

namespace Sys2Proof.Machine

section
variable {α : Type}

@[simp] theorem tabGet_nil (k : Nat) : tabGet k ([] : List (Nat × α)) = none := rfl

theorem tabGet_cons (k j : Nat) (v : α) (m : List (Nat × α)) :
    tabGet k ((j, v) :: m) = if k = j then some v else tabGet k m := rfl

/-- Read after write, at the written key and elsewhere. -/
theorem tabGet_tabSet (k k' : Nat) (v : α) (m : List (Nat × α)) :
    tabGet k' (tabSet k v m) = if k' = k then some v else tabGet k' m := by
  induction m with
  | nil => rfl
  | cons c m ih =>
    obtain ⟨j, u⟩ := c
    simp only [tabSet]
    split
    · rfl
    · split
      · simp only [tabGet_cons]; split <;> simp_all
      · simp only [tabGet_cons, ih]; split <;> split <;> simp_all

/-- Every key of a sorted table's tail lies above its head. -/
theorem tabSorted_cons {j : Nat} {u : α} {m : List (Nat × α)} :
    tabSorted ((j, u) :: m) = true ↔ (∀ c ∈ m, j < c.1) ∧ tabSorted m = true := by
  induction m generalizing j u with
  | nil => simp [tabSorted]
  | cons c m ih =>
    obtain ⟨k, v⟩ := c
    simp only [tabSorted, Bool.and_eq_true, decide_eq_true_eq]
    constructor
    · rintro ⟨hjk, hs⟩
      refine ⟨?_, hs⟩
      intro c hc
      rcases List.mem_cons.1 hc with rfl | hc
      · exact hjk
      · exact hjk.trans ((ih.1 hs).1 c hc)
    · rintro ⟨h, hs⟩
      exact ⟨h (k, v) (by simp), hs⟩

/-- The keys after a write. -/
theorem mem_tabSet {k : Nat} {v : α} {m : List (Nat × α)} {c : Nat × α} (h : c ∈ tabSet k v m) :
    c = (k, v) ∨ c ∈ m := by
  induction m with
  | nil => simpa [tabSet] using h
  | cons d m ih =>
    obtain ⟨j, u⟩ := d
    simp only [tabSet] at h
    split at h
    · simpa using h
    · split at h
      · rcases List.mem_cons.1 h with h | h
        · exact .inl h
        · exact .inr (by simp [h])
      · rcases List.mem_cons.1 h with h | h
        · exact .inr (by simp [h])
        · rcases ih h with h | h
          · exact .inl h
          · exact .inr (by simp [h])

/-- A write keeps a table sorted. -/
theorem tabSorted_tabSet {k : Nat} {v : α} {m : List (Nat × α)} (h : tabSorted m = true) :
    tabSorted (tabSet k v m) = true := by
  induction m with
  | nil => rfl
  | cons c m ih =>
    obtain ⟨j, u⟩ := c
    rw [tabSorted_cons] at h
    simp only [tabSet]
    split
    · rename_i hk
      refine tabSorted_cons.2 ⟨?_, tabSorted_cons.2 h⟩
      intro c hc
      rcases List.mem_cons.1 hc with rfl | hc
      · exact hk
      · exact hk.trans (h.1 c hc)
    · split
      · rename_i hk; subst hk
        exact tabSorted_cons.2 h
      · rename_i hk hk'
        refine tabSorted_cons.2 ⟨?_, ih h.2⟩
        intro c hc
        rcases mem_tabSet hc with rfl | hc
        · simp only; omega
        · exact h.1 c hc

end

/-- Read after write (R255, R65). -/
@[simp] theorem memGet_memSet (m : Memory) (a a' : Nat) (b : Byte) :
    memGet (memSet m a b) a' = if a' = a then some b else memGet m a' := tabGet_tabSet a a' b m

@[simp] theorem memGet_nil (a : Nat) : memGet [] a = none := rfl

/-- A write keeps the canonical form. -/
theorem memSet_wf {m : Memory} (a : Nat) (b : Byte) (h : Memory.wf m = true) :
    Memory.wf (memSet m a b) = true := tabSorted_tabSet h

/-- The memories after reset are canonical. -/
theorem reset_memories_wf : Memory.wf State.reset.inMem = true ∧ Memory.wf State.reset.outMem = true := ⟨rfl, rfl⟩

/-- A read of `OUT` changes neither memory. -/
theorem readOut_memories (a : Nat) (s : State) :
    (readOut a s).2.inMem = s.inMem ∧ (readOut a s).2.outMem = s.outMem := by
  simp only [readOut]
  split
  · split <;> exact ⟨rfl, rfl⟩
  · exact ⟨rfl, rfl⟩

/-- The copy of ROUNDTRIP keeps the canonical form of `IN` and leaves `OUT` alone. -/
theorem copyBytes_memories (n a : Nat) (s : State) (h : Memory.wf s.inMem = true) :
    Memory.wf (copyBytes n a s).inMem = true ∧ (copyBytes n a s).outMem = s.outMem := by
  induction n generalizing a s with
  | zero => exact ⟨h, rfl⟩
  | succ n ih =>
    obtain ⟨hi, ho⟩ := readOut_memories a s
    have := ih (a + 1) { (readOut a s).2 with inMem := memSet (readOut a s).2.inMem a (readOut a s).1 }
      (memSet_wf _ _ (by rw [hi]; exact h))
    exact ⟨this.1, this.2.trans ho⟩

end Sys2Proof.Machine
end

