-- ==== Sys2Proof/Laws/State.lean ====
section
/-! SUPPORT. What each named update of the state does to each field. -/

namespace Sys2Proof.Machine

/-! ### Replacing the context. -/

@[simp] theorem State.withCtx_err (s : State) (c : Context) : (s.withCtx c).err = s.err := rfl
@[simp] theorem State.withCtx_inLen (s : State) (c : Context) : (s.withCtx c).inLen = s.inLen := rfl
@[simp] theorem State.withCtx_outLen (s : State) (c : Context) : (s.withCtx c).outLen = s.outLen := rfl
@[simp] theorem State.withCtx_treeBits (s : State) (c : Context) : (s.withCtx c).treeBits = s.treeBits := rfl
@[simp] theorem State.withCtx_dataBits (s : State) (c : Context) : (s.withCtx c).dataBits = s.dataBits := rfl
@[simp] theorem State.withCtx_totalBits (s : State) (c : Context) : (s.withCtx c).totalBits = s.totalBits := rfl
@[simp] theorem State.withCtx_errPos (s : State) (c : Context) : (s.withCtx c).errPos = s.errPos := rfl
@[simp] theorem State.withCtx_inMem (s : State) (c : Context) : (s.withCtx c).inMem = s.inMem := rfl
@[simp] theorem State.withCtx_outMem (s : State) (c : Context) : (s.withCtx c).outMem = s.outMem := rfl
@[simp] theorem State.withCtx_outN (s : State) (c : Context) : (s.withCtx c).outN = s.outN := rfl
@[simp] theorem State.withCtx_phase (s : State) (c : Context) : (s.withCtx c).phase = s.phase := rfl
@[simp] theorem State.withCtx_ctx (s : State) (c : Context) : (s.withCtx c).ctx = c := rfl
@[simp] theorem State.withCtx_params (s : State) (c : Context) : (s.withCtx c).params = s.params := rfl
@[simp] theorem State.withCtx_host (s : State) (c : Context) : (s.withCtx c).host = s.host := rfl
@[simp] theorem State.withCtx_rdata (s : State) (c : Context) : (s.withCtx c).rdata = s.rdata := rfl
@[simp] theorem State.withCtx_draws (s : State) (c : Context) : (s.withCtx c).draws = s.draws := rfl
@[simp] theorem State.withCtx_era (s : State) (c : Context) : (s.withCtx c).era = s.era := rfl

/-! ### `PHASE <- p` (R11). -/

@[simp] theorem State.withPhase_err (s : State) (p : Phase) : (s.withPhase p).err = s.err := rfl
@[simp] theorem State.withPhase_inLen (s : State) (p : Phase) : (s.withPhase p).inLen = s.inLen := rfl
@[simp] theorem State.withPhase_outLen (s : State) (p : Phase) : (s.withPhase p).outLen = s.outLen := rfl
@[simp] theorem State.withPhase_treeBits (s : State) (p : Phase) : (s.withPhase p).treeBits = s.treeBits := rfl
@[simp] theorem State.withPhase_dataBits (s : State) (p : Phase) : (s.withPhase p).dataBits = s.dataBits := rfl
@[simp] theorem State.withPhase_totalBits (s : State) (p : Phase) : (s.withPhase p).totalBits = s.totalBits := rfl
@[simp] theorem State.withPhase_errPos (s : State) (p : Phase) : (s.withPhase p).errPos = s.errPos := rfl
@[simp] theorem State.withPhase_inMem (s : State) (p : Phase) : (s.withPhase p).inMem = s.inMem := rfl
@[simp] theorem State.withPhase_outMem (s : State) (p : Phase) : (s.withPhase p).outMem = s.outMem := rfl
@[simp] theorem State.withPhase_outN (s : State) (p : Phase) : (s.withPhase p).outN = s.outN := rfl
@[simp] theorem State.withPhase_phase (s : State) (p : Phase) : (s.withPhase p).phase = p := rfl
@[simp] theorem State.withPhase_ctx (s : State) (p : Phase) : (s.withPhase p).ctx = s.ctx := rfl
@[simp] theorem State.withPhase_params (s : State) (p : Phase) : (s.withPhase p).params = s.params := rfl
@[simp] theorem State.withPhase_host (s : State) (p : Phase) : (s.withPhase p).host = s.host := rfl
@[simp] theorem State.withPhase_rdata (s : State) (p : Phase) : (s.withPhase p).rdata = s.rdata := rfl
@[simp] theorem State.withPhase_draws (s : State) (p : Phase) : (s.withPhase p).draws = s.draws := rfl
@[simp] theorem State.withPhase_era (s : State) (p : Phase) : (s.withPhase p).era = s.era := rfl

/-! ### Dropping the context (R33). -/

@[simp] theorem idleContext_readStack (d : Nat) : (idleContext d).readStack = [] := rfl
@[simp] theorem idleContext_pending (d : Nat) : (idleContext d).pending = [] := rfl

@[simp] theorem dropContext_err (s : State) : (dropContext s).err = s.err := rfl
@[simp] theorem dropContext_inLen (s : State) : (dropContext s).inLen = s.inLen := rfl
@[simp] theorem dropContext_outLen (s : State) : (dropContext s).outLen = s.outLen := rfl
@[simp] theorem dropContext_treeBits (s : State) : (dropContext s).treeBits = s.treeBits := rfl
@[simp] theorem dropContext_dataBits (s : State) : (dropContext s).dataBits = s.dataBits := rfl
@[simp] theorem dropContext_totalBits (s : State) : (dropContext s).totalBits = s.totalBits := rfl
@[simp] theorem dropContext_errPos (s : State) : (dropContext s).errPos = s.errPos := rfl
@[simp] theorem dropContext_inMem (s : State) : (dropContext s).inMem = s.inMem := rfl
@[simp] theorem dropContext_outMem (s : State) : (dropContext s).outMem = s.outMem := rfl
@[simp] theorem dropContext_outN (s : State) : (dropContext s).outN = s.outN := rfl
@[simp] theorem dropContext_phase (s : State) : (dropContext s).phase = s.phase := rfl
@[simp] theorem dropContext_ctx (s : State) : (dropContext s).ctx = idleContext s.draws := rfl
@[simp] theorem dropContext_params (s : State) : (dropContext s).params = s.params := rfl
@[simp] theorem dropContext_host (s : State) : (dropContext s).host = s.host := rfl
@[simp] theorem dropContext_rdata (s : State) : (dropContext s).rdata = s.rdata := rfl
@[simp] theorem dropContext_draws (s : State) : (dropContext s).draws = s.draws + 1 := rfl
@[simp] theorem dropContext_era (s : State) : (dropContext s).era = s.era := rfl

/-! ### Losing the counters (R277). -/

@[simp] theorem loseCounters_err (s : State) : (loseCounters s).err = s.err := rfl
@[simp] theorem loseCounters_inLen (s : State) : (loseCounters s).inLen = s.inLen := rfl
@[simp] theorem loseCounters_outLen (s : State) : (loseCounters s).outLen = s.outLen := rfl
@[simp] theorem loseCounters_treeBits (s : State) : (loseCounters s).treeBits = freeCounter s.params s.draws := rfl
@[simp] theorem loseCounters_dataBits (s : State) : (loseCounters s).dataBits = freeCounter s.params (s.draws + 1) := rfl
@[simp] theorem loseCounters_totalBits (s : State) : (loseCounters s).totalBits = freeCounter s.params (s.draws + 2) := rfl
@[simp] theorem loseCounters_errPos (s : State) : (loseCounters s).errPos = s.errPos := rfl
@[simp] theorem loseCounters_inMem (s : State) : (loseCounters s).inMem = s.inMem := rfl
@[simp] theorem loseCounters_outMem (s : State) : (loseCounters s).outMem = s.outMem := rfl
@[simp] theorem loseCounters_outN (s : State) : (loseCounters s).outN = s.outN := rfl
@[simp] theorem loseCounters_phase (s : State) : (loseCounters s).phase = s.phase := rfl
@[simp] theorem loseCounters_ctx (s : State) : (loseCounters s).ctx = s.ctx := rfl
@[simp] theorem loseCounters_params (s : State) : (loseCounters s).params = s.params := rfl
@[simp] theorem loseCounters_host (s : State) : (loseCounters s).host = s.host := rfl
@[simp] theorem loseCounters_rdata (s : State) : (loseCounters s).rdata = s.rdata := rfl
@[simp] theorem loseCounters_draws (s : State) : (loseCounters s).draws = s.draws + 3 := rfl
@[simp] theorem loseCounters_era (s : State) : (loseCounters s).era = s.era := rfl

/-! ### Fault entry (R277). -/

@[simp] theorem faultEntry_err (f : FaultKind) (pos : Nat) (s : State) : (faultEntry f pos s).err = f.err := rfl
@[simp] theorem faultEntry_inLen (f : FaultKind) (pos : Nat) (s : State) : (faultEntry f pos s).inLen = s.inLen := rfl
@[simp] theorem faultEntry_outLen (f : FaultKind) (pos : Nat) (s : State) : (faultEntry f pos s).outLen = 0 := rfl
@[simp] theorem faultEntry_treeBits (f : FaultKind) (pos : Nat) (s : State) : (faultEntry f pos s).treeBits = freeCounter s.params s.draws := rfl
@[simp] theorem faultEntry_dataBits (f : FaultKind) (pos : Nat) (s : State) : (faultEntry f pos s).dataBits = freeCounter s.params (s.draws + 1) := rfl
@[simp] theorem faultEntry_totalBits (f : FaultKind) (pos : Nat) (s : State) : (faultEntry f pos s).totalBits = freeCounter s.params (s.draws + 2) := rfl
@[simp] theorem faultEntry_errPos (f : FaultKind) (pos : Nat) (s : State) : (faultEntry f pos s).errPos = if f.recordsPos then pos else 0 := rfl
@[simp] theorem faultEntry_inMem (f : FaultKind) (pos : Nat) (s : State) : (faultEntry f pos s).inMem = s.inMem := rfl
@[simp] theorem faultEntry_outMem (f : FaultKind) (pos : Nat) (s : State) : (faultEntry f pos s).outMem = [] := rfl
@[simp] theorem faultEntry_outN (f : FaultKind) (pos : Nat) (s : State) : (faultEntry f pos s).outN = s.outN := rfl
@[simp] theorem faultEntry_phase (f : FaultKind) (pos : Nat) (s : State) : (faultEntry f pos s).phase = .fault := rfl
@[simp] theorem faultEntry_ctx (f : FaultKind) (pos : Nat) (s : State) : (faultEntry f pos s).ctx = idleContext (s.draws + 3) := rfl
@[simp] theorem faultEntry_params (f : FaultKind) (pos : Nat) (s : State) : (faultEntry f pos s).params = s.params := rfl
@[simp] theorem faultEntry_host (f : FaultKind) (pos : Nat) (s : State) : (faultEntry f pos s).host = s.host := rfl
@[simp] theorem faultEntry_rdata (f : FaultKind) (pos : Nat) (s : State) : (faultEntry f pos s).rdata = s.rdata := rfl
@[simp] theorem faultEntry_draws (f : FaultKind) (pos : Nat) (s : State) : (faultEntry f pos s).draws = s.draws + 3 + 1 := rfl
@[simp] theorem faultEntry_era (f : FaultKind) (pos : Nat) (s : State) : (faultEntry f pos s).era = s.era := rfl

/-! ### What every start step clears (R211, R231, R252). -/

@[simp] theorem clearResults_err (s : State) : (clearResults s).err = 0 := rfl
@[simp] theorem clearResults_inLen (s : State) : (clearResults s).inLen = s.inLen := rfl
@[simp] theorem clearResults_outLen (s : State) : (clearResults s).outLen = 0 := rfl
@[simp] theorem clearResults_treeBits (s : State) : (clearResults s).treeBits = 0 := rfl
@[simp] theorem clearResults_dataBits (s : State) : (clearResults s).dataBits = 0 := rfl
@[simp] theorem clearResults_totalBits (s : State) : (clearResults s).totalBits = 0 := rfl
@[simp] theorem clearResults_errPos (s : State) : (clearResults s).errPos = 0 := rfl
@[simp] theorem clearResults_inMem (s : State) : (clearResults s).inMem = s.inMem := rfl
@[simp] theorem clearResults_outMem (s : State) : (clearResults s).outMem = [] := rfl
@[simp] theorem clearResults_outN (s : State) : (clearResults s).outN = 0 := rfl
@[simp] theorem clearResults_phase (s : State) : (clearResults s).phase = s.phase := rfl
@[simp] theorem clearResults_ctx (s : State) : (clearResults s).ctx = s.ctx := rfl
@[simp] theorem clearResults_params (s : State) : (clearResults s).params = s.params := rfl
@[simp] theorem clearResults_host (s : State) : (clearResults s).host = s.host := rfl
@[simp] theorem clearResults_rdata (s : State) : (clearResults s).rdata = s.rdata := rfl
@[simp] theorem clearResults_draws (s : State) : (clearResults s).draws = s.draws := rfl
@[simp] theorem clearResults_era (s : State) : (clearResults s).era = s.era + 1 := rfl

/-! ### Completion (R214, R238). -/

@[simp] theorem complete_err (s : State) : (complete s).err = s.err := rfl
@[simp] theorem complete_inLen (s : State) : (complete s).inLen = s.inLen := rfl
@[simp] theorem complete_outLen (s : State) : (complete s).outLen = s.outN := rfl
@[simp] theorem complete_treeBits (s : State) : (complete s).treeBits = s.treeBits := rfl
@[simp] theorem complete_dataBits (s : State) : (complete s).dataBits = s.dataBits := rfl
@[simp] theorem complete_totalBits (s : State) : (complete s).totalBits = s.totalBits := rfl
@[simp] theorem complete_errPos (s : State) : (complete s).errPos = s.errPos := rfl
@[simp] theorem complete_inMem (s : State) : (complete s).inMem = s.inMem := rfl
@[simp] theorem complete_outMem (s : State) : (complete s).outMem = s.outMem := rfl
@[simp] theorem complete_outN (s : State) : (complete s).outN = s.outN := rfl
@[simp] theorem complete_phase (s : State) : (complete s).phase = .done := rfl
@[simp] theorem complete_ctx (s : State) : (complete s).ctx = idleContext s.draws := rfl
@[simp] theorem complete_params (s : State) : (complete s).params = s.params := rfl
@[simp] theorem complete_host (s : State) : (complete s).host = s.host := rfl
@[simp] theorem complete_rdata (s : State) : (complete s).rdata = s.rdata := rfl
@[simp] theorem complete_draws (s : State) : (complete s).draws = s.draws + 1 := rfl
@[simp] theorem complete_era (s : State) : (complete s).era = s.era := rfl

/-! ### The reset input (R301). -/

@[simp] theorem resetInput_err (s : State) : (resetInput s).err = 0 := rfl
@[simp] theorem resetInput_inLen (s : State) : (resetInput s).inLen = 0 := rfl
@[simp] theorem resetInput_outLen (s : State) : (resetInput s).outLen = 0 := rfl
@[simp] theorem resetInput_treeBits (s : State) : (resetInput s).treeBits = 0 := rfl
@[simp] theorem resetInput_dataBits (s : State) : (resetInput s).dataBits = 0 := rfl
@[simp] theorem resetInput_totalBits (s : State) : (resetInput s).totalBits = 0 := rfl
@[simp] theorem resetInput_errPos (s : State) : (resetInput s).errPos = 0 := rfl
@[simp] theorem resetInput_inMem (s : State) : (resetInput s).inMem = [] := rfl
@[simp] theorem resetInput_outMem (s : State) : (resetInput s).outMem = [] := rfl
@[simp] theorem resetInput_outN (s : State) : (resetInput s).outN = 0 := rfl
@[simp] theorem resetInput_phase (s : State) : (resetInput s).phase = .idle := rfl
@[simp] theorem resetInput_ctx (s : State) : (resetInput s).ctx = idleContext s.draws := rfl
@[simp] theorem resetInput_params (s : State) : (resetInput s).params = s.params := rfl
@[simp] theorem resetInput_host (s : State) : (resetInput s).host = s.host := rfl
@[simp] theorem resetInput_rdata (s : State) : (resetInput s).rdata = s.rdata := rfl
@[simp] theorem resetInput_draws (s : State) : (resetInput s).draws = s.draws + 1 := rfl
@[simp] theorem resetInput_era (s : State) : (resetInput s).era = s.era + 1 := rfl

end Sys2Proof.Machine
end

