-- ==== Sys2Proof/Laws/Ops.lean ====
section
/-! SUPPORT. One lemma for each shared operation that says what it can do; what a step or an instruction can do is put
together from them. -/

namespace Sys2Proof.Machine

/-! ### Sequencing -/

section
variable {α β : Type}

@[simp] theorem Res.bind_ok (a : α) (s : State) (f : α → State → Res β) : (Res.ok a s).bind f = f a s := rfl
@[simp] theorem Res.bind_raised (s : State) (f : α → State → Res β) : (Res.raised s).bind f = .raised s := rfl
@[simp] theorem Res.bind_fault (r : Fault) (f : α → State → Res β) : (Res.fault r).bind f = .fault r := rfl
@[simp] theorem Res.bind_refused (r : Refusal) (f : α → State → Res β) : (Res.refused r).bind f = .refused r := rfl

@[simp] theorem Res.toOutcome_ok (a : α) (s : State) : (Res.ok a s).toOutcome = .next s := rfl
@[simp] theorem Res.toOutcome_raised (s : State) : (Res.raised s : Res α).toOutcome = .next s := rfl
@[simp] theorem Res.toOutcome_fault (r : Fault) : (Res.fault r : Res α).toOutcome = .fault r := rfl
@[simp] theorem Res.toOutcome_refused (r : Refusal) : (Res.refused r : Res α).toOutcome = .refused r := rfl

/-- A sequence completes exactly when both parts do. -/
theorem Res.bind_eq_ok {x : Res α} {f : α → State → Res β} {b : β} {t : State} :
    x.bind f = .ok b t ↔ ∃ a s, x = .ok a s ∧ f a s = .ok b t := by
  cases x <;> simp

/-- A sequence raises in its first part, or in its second after the first completed. -/
theorem Res.bind_eq_raised {x : Res α} {f : α → State → Res β} {t : State} :
    x.bind f = .raised t ↔ x = .raised t ∨ ∃ a s, x = .ok a s ∧ f a s = .raised t := by
  cases x <;> simp

/-- An operation answers a next state when it completes or raises a fault of the spec. -/
theorem Res.toOutcome_eq_next {x : Res α} {t : State} :
    x.toOutcome = .next t ↔ (∃ a, x = .ok a t) ∨ x = .raised t := by
  cases x <;> simp [Res.toOutcome]

/-- Sequencing is associative. -/
theorem Res.bind_assoc {γ : Type} (x : Res α) (f : α → State → Res β) (g : β → State → Res γ) :
    (x.bind f).bind g = x.bind fun a s => (f a s).bind g := by
  cases x <;> rfl

end

/-! ### emit -/

/-- `emit` overflows, or stores one byte at `OUT_N` (R75). -/
theorem emit_cases (b : Byte) (s : State) :
    (outFull s = true ∧ emit b s = .raised (faultEntry .outOverflow 0 s)) ∨
    (outFull s = false ∧
      emit b s = .ok () { s with outMem := memSet s.outMem s.outN b, outN := s.outN + 1 }) := by
  cases h : outFull s <;> simp [emit, h, raise]

/-- With room for one more byte `emit` stores it. -/
theorem emit_room {s : State} (h : outFull s = false) (b : Byte) :
    emit b s = .ok () { s with outMem := memSet s.outMem s.outN b, outN := s.outN + 1 } := by
  simp [emit, h]

@[simp] theorem outFull_unbounded {s : State} (h : s.params.outCap = none) : outFull s = false := by
  simp [outFull, h]

/-! ### The writer -/

@[simp] theorem takeBit_ctx (v : Bool) (s : State) :
    (takeBit v s).ctx = { s.ctx with
      wAcc := shiftIn s.ctx.wAcc v, wN := s.ctx.wN + 1, wTotal := s.ctx.wTotal + 1 } := rfl

@[simp] theorem clearAcc_ctx (s : State) : (clearAcc s).ctx = { s.ctx with wAcc := 0, wN := 0 } := rfl

/-- `writeBit` keeps the bit, or fills a byte and emits it, or overflows doing so (R121). -/
theorem writeBit_cases (v : Bool) (s : State) :
    (s.ctx.wN ≠ 7 ∧ writeBit v s = .ok () (takeBit v s)) ∨
    (s.ctx.wN = 7 ∧ outFull s = true ∧
      writeBit v s = .raised (faultEntry .outOverflow 0 (takeBit v s))) ∨
    (s.ctx.wN = 7 ∧ outFull s = false ∧
      writeBit v s = .ok () (clearAcc { takeBit v s with
        outMem := memSet s.outMem s.outN (shiftIn s.ctx.wAcc v), outN := s.outN + 1 })) := by
  by_cases h7 : s.ctx.wN = 7
  · have hf : outFull (takeBit v s) = outFull s := rfl
    rcases emit_cases (takeBit v s).ctx.wAcc (takeBit v s) with ⟨h, he⟩ | ⟨h, he⟩
    · refine .inr (.inl ⟨h7, hf ▸ h, ?_⟩)
      simp only [writeBit, he]
      simp [h7]
    · refine .inr (.inr ⟨h7, hf ▸ h, ?_⟩)
      simp only [writeBit, he]
      simp [h7]
      rfl
  · left
    refine ⟨h7, ?_⟩
    simp only [writeBit]
    simp [h7]

/-- Writing a sequence is writing its parts in turn. -/
theorem writeBits_append (xs ys : Bits) (s : State) :
    writeBits (xs ++ ys) s = (writeBits xs s).bind fun _ s => writeBits ys s := by
  induction xs generalizing s with
  | nil => rfl
  | cons x xs ih =>
    simp only [List.cons_append, writeBits, Res.bind_assoc]
    congr 1
    funext a t
    exact ih t

@[simp] theorem uintBits_length (v n : Nat) : (uintBits v n).length = n := by
  induction n with
  | zero => rfl
  | succ n ih => simp [uintBits, ih]

/-! ### The reader -/

/-- `readBit` returns the bit at the cursor and moves on, or raises OutOfData and does not move (R127). -/
theorem readBit_cases (s : State) :
    (s.ctx.rPos < 8 * s.inLen ∧
      readBit s = .ok (inBit s s.ctx.rPos) (s.withCtx { s.ctx with rPos := s.ctx.rPos + 1 })) ∨
    (8 * s.inLen ≤ s.ctx.rPos ∧ readBit s = .raised (faultEntry .outOfData s.ctx.rPos s)) := by
  by_cases h : s.ctx.rPos < 8 * s.inLen
  · exact .inl ⟨h, by simp [readBit, readBitAvailable, h]⟩
  · exact .inr ⟨by omega, by simp [readBit, readBitAvailable, h, raise]⟩

@[simp] theorem streamBits_length (s : State) (n : Nat) :
    (streamBits s n).length = min n (8 * s.inLen - s.ctx.rPos) := by
  simp [streamBits]

/-- A fetched token is one of the two, and the input holds all its bits (R92). -/
theorem peekToken_cases {s : State} {i : Instr} (h : peekToken s = some i) :
    (i = .treeInternal ∧ s.ctx.rPos + 1 ≤ 8 * s.inLen) ∨
    (∃ e v, i = .treeLeaf e v ∧ s.ctx.rPos + 10 ≤ 8 * s.inLen) := by
  have hl := streamBits_length s Config.leafBits
  have h10 : Config.leafBits = 10 := rfl
  revert hl h
  generalize hb : streamBits s Config.leafBits = bs
  simp only [peekToken, hb]
  unfold decodeToken
  split <;> rename_i heq
  · split at heq
    · cases heq; intro h; cases h
      intro hl; simp at hl; left; exact ⟨rfl, by omega⟩
    · cases heq; intro h; cases h
      intro hl; simp at hl; right; exact ⟨_, _, rfl, by omega⟩
    · cases heq
  · intro h; cases h

/-! ### The tree reader -/

/-- What stands before a node's marker: Depth, then Capacity, then the node is counted (R193). -/
theorem enterNode_cases (s : State) :
    (s.params.depthMax < readDepth s ∧ enterNode s = .raised (faultEntry .malformedDepth s.ctx.rPos s)) ∨
    (readDepth s ≤ s.params.depthMax ∧ s.params.nodeCap ≤ s.ctx.nNodes ∧
      enterNode s = .raised (faultEntry .malformedCapacity s.ctx.rPos s)) ∨
    (readDepth s ≤ s.params.depthMax ∧ s.ctx.nNodes < s.params.nodeCap ∧
      enterNode s = .ok () (s.withCtx { s.ctx with nNodes := s.ctx.nNodes + 1 })) := by
  by_cases hd : s.params.depthMax < readDepth s
  · exact .inl ⟨hd, by simp [enterNode, hd, raise]⟩
  · by_cases hc : s.params.nodeCap ≤ s.ctx.nNodes
    · exact .inr (.inl ⟨by omega, hc, by simp [enterNode, hd, hc, raise]⟩)
    · exact .inr (.inr ⟨by omega, by omega, by simp [enterNode, hd, hc]⟩)

/-- A node is returned to a call that waits for it, or it is the root and no call waits. -/
theorem returnNode_cases (n : Node) (fs : List Frame) :
    (∃ gs, returnNode n fs = (gs, none) ∧ gs ≠ [] ∧ gs.length ≤ fs.length) ∨
    (∃ root, returnNode n fs = ([], some root)) := by
  induction fs generalizing n with
  | nil => exact .inr ⟨n, rfl⟩
  | cons f fs ih =>
    cases f with
    | awaitLeft => exact .inl ⟨_, rfl, by simp, by simp⟩
    | awaitRight l =>
      rcases ih (.internal l n) with ⟨gs, h, hne, hl⟩ | ⟨root, h⟩
      · exact .inl ⟨gs, h, hne, by simp; omega⟩
      · exact .inr ⟨root, h⟩

/-- A finished node goes to a waiting call, or the tree is complete and `PH_D_CHECK` begins (R192, R232). -/
theorem finishNode_cases (n : Node) (s : State) :
    (∃ gs, gs ≠ [] ∧ gs.length ≤ s.ctx.readStack.length ∧
      finishNode n s = s.withCtx { s.ctx with readStack := gs }) ∨
    (∃ root, finishNode n s =
      ({ s with treeBits := s.ctx.rPos }.withCtx { s.ctx with readStack := [], root := root }).withPhase .dCheck) := by
  rcases returnNode_cases n s.ctx.readStack with ⟨gs, h, hne, hl⟩ | ⟨root, h⟩
  · exact .inl ⟨gs, hne, hl, by simp [finishNode, h]⟩
  · exact .inr ⟨root, by simp [finishNode, h]⟩

/-! ### Instructions and moves -/

/-- TREE_INTERNAL answers a next state only where a token is read or written. -/
theorem execTreeInternal_next {s t : State} (h : execTreeInternal s = .next t) :
    (s.phase = .dTree ∧ (readInternal s).toOutcome = .next t) ∨
    (s.phase = .eTree ∧ (writeInternal s).toOutcome = .next t) := by
  unfold execTreeInternal at h
  split at h
  · exact .inl ⟨‹_›, h⟩
  · exact .inr ⟨‹_›, h⟩
  all_goals exact nomatch h

/-- TREE_LEAF answers a next state only where a token is read or written. -/
theorem execTreeLeaf_next {e : Bool} {v : Byte} {s t : State} (h : execTreeLeaf e v s = .next t) :
    (s.phase = .dTree ∧ (readLeaf e v s).toOutcome = .next t) ∨
    (s.phase = .eTree ∧ (writeLeaf e v s).toOutcome = .next t) := by
  unfold execTreeLeaf at h
  split at h
  · exact .inl ⟨‹_›, h⟩
  · exact .inr ⟨‹_›, h⟩
  all_goals exact nomatch h

/-- A register write is a command, a new `IN_LEN`, or nothing (R21). -/
theorem writeReg_cases (n v : Nat) (s : State) :
    (n = 0 ∧ writeReg n v s = exec (decodeCtrl (BitVec.ofNat 8 v)) s) ∨
    (n = 3 ∧ s.busy = false ∧ writeReg n v s = .next { s with inLen := v % 2 ^ s.params.lenW }) ∨
    (n ≠ 0 ∧ (n = 3 → s.busy = true) ∧ writeReg n v s = .next s) := by
  by_cases h0 : n = 0
  · subst h0; exact .inl ⟨rfl, rfl⟩
  by_cases h3 : n = 3
  · subst h3
    cases hb : s.busy
    · exact .inr (.inl ⟨rfl, rfl, by simp [writeReg, hb]⟩)
    · exact .inr (.inr ⟨by decide, fun _ => rfl, by simp [writeReg, hb]⟩)
  · refine .inr (.inr ⟨h0, fun h => absurd h h3, ?_⟩)
    unfold writeReg
    split <;> simp_all

/-- A command is executed when it is read from `CTRL`, never a token (R103). -/
theorem decodeCtrl_cases (w : Byte) :
    decodeCtrl w = .nop ∨ decodeCtrl w = .encode ∨ decodeCtrl w = .decode ∨ decodeCtrl w = .reserved := by
  unfold decodeCtrl
  split <;> simp

/-- A step is HOST's first waiting move, or ENGINE's move when none waits. -/
theorem step_cases (s : State) :
    (s.host = [] ∧ step s = engineStep s) ∨
    (∃ m ms, s.host = m :: ms ∧ step s = hostStep m { s with host := ms }) := by
  cases h : s.host with
  | nil => exact .inl ⟨rfl, by simp [step, moveNext, h]⟩
  | cons m ms => exact .inr ⟨m, ms, rfl, by simp [step, moveNext, h]⟩

end Sys2Proof.Machine
end

