-- ==== Sys2Proof/Laws/Host.lean ====
section
/-! SUPPORT. What HOST's reads and the copy of ROUNDTRIP can change: the count of free values drawn, and `IN`. -/

namespace Sys2Proof.Machine

/-- A read of a register draws at most a free value (R254). -/
theorem readReg_same (n : Nat) (s : State) : (readReg n s).2 = { s with draws := (readReg n s).2.draws } := by
  unfold readReg
  split <;> try rfl
  all_goals (unfold readCounter; split <;> rfl)

/-- A read of `OUT` draws at most a free value (R256). -/
theorem readOut_same (a : Nat) (s : State) : (readOut a s).2 = { s with draws := (readOut a s).2.draws } := by
  unfold readOut
  split
  · split <;> rfl
  · rfl

/-- A read of `IN` draws at most a free value (R60). -/
theorem readIn_same (a : Nat) (s : State) : (readIn a s).2 = { s with draws := (readIn a s).2.draws } := by
  unfold readIn
  split
  · split <;> rfl
  · rfl

/-- The copy of ROUNDTRIP changes `IN` and the count of free values only (R258). -/
theorem copyBytes_same (n a : Nat) (s : State) :
    copyBytes n a s = { s with inMem := (copyBytes n a s).inMem, draws := (copyBytes n a s).draws } := by
  induction n generalizing a s with
  | zero => rfl
  | succ n ih =>
    simp only [copyBytes]
    rw [readOut_same a s]
    exact ih _ _

/-- While the bytes `OUT[a .. a + n - 1]` belong to the result, the copy stores each at its own address (R258). -/
theorem copyBytes_memGet (n a : Nat) (s : State) (hp : s.phase = .done) (ho : a + n ≤ s.outLen)
    (hs : ∀ j, a ≤ j → j < a + n → (memGet s.outMem j).isSome = true) (k : Nat) :
    memGet (copyBytes n a s).inMem k = if a ≤ k ∧ k < a + n then memGet s.outMem k else memGet s.inMem k := by
  induction n generalizing a s with
  | zero => simp [copyBytes]
  | succ n ih =>
    obtain ⟨b, hb⟩ := Option.isSome_iff_exists.1 (hs a (le_refl _) (by omega))
    have hr : readOut a s = (b, s) := by simp [readOut, hb, hp]; omega
    simp only [copyBytes, hr]
    rw [ih (a + 1) { s with inMem := memSet s.inMem a b } hp (by simp only; omega) (fun j h h' => hs j (by omega) (by omega))]
    simp only [memGet_memSet]
    by_cases hk : k = a
    · subst hk; simp [hb]
    · simp only [hk, if_false]
      by_cases h1 : a + 1 ≤ k ∧ k < a + 1 + n
      · rw [if_pos h1, if_pos (by omega)]
      · rw [if_neg h1, if_neg (by omega)]

/-- `wait` while BUSY is ENGINE's move, the wait still first in line; else it is over (R107, R304). -/
theorem hostStep_wait (s : State) :
    hostStep .wait s = if s.busy then engineStep { s with host := .wait :: s.host } else .next s := rfl

/-- HOST's moves play no part in what BUSY is. -/
@[simp] theorem busy_with_host (s : State) (ms : List HostMove) : ({ s with host := ms } : State).busy = s.busy := rfl

end Sys2Proof.Machine
end

