-- ==== Sys2Proof/Laws/PerInstr.lean ====
section
/-! SUPPORT. What is said of every instruction, one lemma per constructor: the shape of its encoding (R93, R94, R103,
R107). -/

namespace Sys2Proof

/-- The encoding of an instruction by its space: a command is a `CTRL` value with bits 7:2 zero (R103, R107); a token is
1 or 10 bits whose first bit is the marker of its kind (R92 to R94). -/
def Laws.EncodingShape.Statement (i : Instr) : Prop :=
  match encode i with
  | .ctrl w => i.isToken = false ∧ w.toNat < 4 ∧ decodeCtrl w = i
  | .token bs => i.isToken = true ∧ bs = tokenBits i ∧
      (bs.length = 1 ∧ bs.head? = some false ∨ bs.length = 10 ∧ bs.head? = some true)

theorem Laws.EncodingShape.nop : Laws.EncodingShape.Statement .nop := ⟨rfl, by decide, by decide⟩

theorem Laws.EncodingShape.encode : Laws.EncodingShape.Statement .encode := ⟨rfl, by decide, by decide⟩

theorem Laws.EncodingShape.decode : Laws.EncodingShape.Statement .decode := ⟨rfl, by decide, by decide⟩

theorem Laws.EncodingShape.reserved : Laws.EncodingShape.Statement .reserved := ⟨rfl, by decide, by decide⟩

theorem Laws.EncodingShape.treeInternal : Laws.EncodingShape.Statement .treeInternal :=
  ⟨rfl, rfl, .inl ⟨rfl, rfl⟩⟩

theorem Laws.EncodingShape.treeLeaf (eob : Bool) (value : Byte) :
    Laws.EncodingShape.Statement (.treeLeaf eob value) :=
  ⟨rfl, rfl, .inr ⟨rfl, rfl⟩⟩

end Sys2Proof
end

