-- ==== Sys2Proof/Laws/Units.lean ====
section
/-! SUPPORT. One lemma for each unit's operation on lists and trees: counting, sorting, code assignment, and the return
of a finished node. -/

namespace Sys2Proof.Machine

/-- Counting a byte leaves a row for it and keeps a row for every value and flag there was (R150). -/
theorem countByte_rows (b : Byte) (ft : List FEntry) :
    (∃ r ∈ countByte b ft, r.isEob = false ∧ r.value = b) ∧
    ∀ r ∈ ft, ∃ r' ∈ countByte b ft, r'.isEob = r.isEob ∧ r'.value = r.value := by
  induction ft with
  | nil => simp [countByte]
  | cons r rs ih =>
    unfold countByte
    split
    · rename_i h
      refine ⟨⟨_, List.mem_cons_self .., h⟩, ?_⟩
      intro q hq
      rcases List.mem_cons.1 hq with rfl | hq
      · exact ⟨_, List.mem_cons_self .., rfl, rfl⟩
      · exact ⟨q, List.mem_cons_of_mem _ hq, rfl, rfl⟩
    · obtain ⟨⟨x, hx, hx'⟩, h2⟩ := ih
      refine ⟨⟨x, List.mem_cons_of_mem _ hx, hx'⟩, ?_⟩
      intro q hq
      rcases List.mem_cons.1 hq with rfl | hq
      · exact ⟨_, List.mem_cons_self .., rfl, rfl⟩
      · obtain ⟨y, hy, hy'⟩ := h2 q hq
        exact ⟨y, List.mem_cons_of_mem _ hy, hy'⟩

/-- Inserting adds the entry and nothing else. -/
theorem mem_insertAhead {x e : Entry} {l : List Entry} : e ∈ insertAhead x l ↔ e = x ∨ e ∈ l := by
  induction l with
  | nil => simp [insertAhead]
  | cons y ys ih =>
    unfold insertAhead
    split
    · simp
    · simp only [List.mem_cons, ih]
      tauto

/-- Sorting keeps the entries. -/
theorem mem_stableSort {e : Entry} {l : List Entry} : e ∈ stableSort l ↔ e ∈ l := by
  induction l with
  | nil => simp [stableSort]
  | cons x xs ih => simp [stableSort, mem_insertAhead, ih]

/-- Inserting makes the list one longer. -/
@[simp] theorem insertAhead_length (x : Entry) (l : List Entry) : (insertAhead x l).length = l.length + 1 := by
  induction l with
  | nil => rfl
  | cons y ys ih => unfold insertAhead; split <;> simp [ih]

/-- Sorting keeps the number of entries. -/
@[simp] theorem stableSort_length (l : List Entry) : (stableSort l).length = l.length := by
  induction l with
  | nil => rfl
  | cons x xs ih => simp [stableSort, ih]

/-- The walk gives a code to every value below the node and takes none away; the same for EOB (R180). -/
theorem walkCodes_sets (n : Node) (p : Bits) (t : CodeTable) :
    (∀ b : Byte, b ∈ n.values ∨ (codeOf t.slots b).isSome = true →
      (codeOf (walkCodes n p t).slots b).isSome = true) ∧
    (0 < n.eobLeaves ∨ t.eob.isSome = true → (walkCodes n p t).eob.isSome = true) := by
  induction n generalizing p t with
  | leaf v e =>
    cases e <;> simp only [walkCodes, Node.values, Node.eobLeaves, codeOf]
    · refine ⟨fun b hb => ?_, by simp⟩
      simp only [tabGet_tabSet, Bool.false_eq_true, if_false]
      by_cases h : b.toNat = v.toNat
      · simp [h]
      · have hbv : b ≠ v := fun x => h (by rw [x])
        simp [hbv] at hb
        simp [h, hb]
    · simp
  | internal l r ihl ihr =>
    simp only [walkCodes, Node.values, Node.eobLeaves, List.mem_append]
    constructor
    · intro b h
      apply (ihr _ _).1
      rcases h with (h | h) | h
      · exact .inr ((ihl _ _).1 _ (.inl h))
      · exact .inl h
      · exact .inr ((ihl _ _).1 _ (.inr h))
    · intro h
      apply (ihr _ _).2
      by_cases hr : 0 < r.eobLeaves
      · exact .inl hr
      · refine .inr ((ihl _ _).2 ?_)
        rcases h with h | h
        · exact .inl (by omega)
        · exact .inr h

/-- A finished node closes the calls that have their left child, and is kept by one that waits for it (R192). -/
theorem returnNode_awaitLeft (n : Node) (ls : List Node) (gs : List Frame) :
    returnNode n (ls.map Frame.awaitRight ++ .awaitLeft :: gs) =
      (.awaitRight (ls.foldl (fun n l => .internal l n) n) :: gs, none) := by
  induction ls generalizing n with
  | nil => rfl
  | cons l ls ih => simp [returnNode, ih]

/-- A finished node that closes every call is the root (R192). -/
theorem returnNode_root (n : Node) (ls : List Node) :
    returnNode n (ls.map Frame.awaitRight) = ([], some (ls.foldl (fun n l => .internal l n) n)) := by
  induction ls generalizing n with
  | nil => rfl
  | cons l ls ih => simp [returnNode, ih]

end Sys2Proof.Machine
end

