-- ==== Sys2Proof/Laws/Writer.lean ====
section
/-! SUPPORT. What writing bits can do to the state (R121 to R124): one relation between the states before and after,
which composes, and how a write can raise. -/

namespace Sys2Proof.Machine

/-- `n` bits have been written between `s` and `t`: what may have changed, and how. -/
structure WroteTo (s t : State) (n : Nat) : Prop where
  same : t = { s with
    outMem := t.outMem
    outN := t.outN
    ctx := { s.ctx with wAcc := t.ctx.wAcc, wN := t.ctx.wN, wTotal := t.ctx.wTotal } }
  total : t.ctx.wTotal = s.ctx.wTotal + n
  place : s.ctx.wN < 8 → t.ctx.wN < 8 ∧ 8 * t.outN + t.ctx.wN = 8 * s.outN + s.ctx.wN + n
  up : s.outN ≤ t.outN
  outside : ∀ a, a < s.outN ∨ t.outN ≤ a → memGet t.outMem a = memGet s.outMem a
  stored : ∀ a, s.outN ≤ a → a < t.outN → (memGet t.outMem a).isSome = true
  canonical : Memory.wf s.outMem = true → Memory.wf t.outMem = true
  room : ∀ c, s.params.outCap = some c → s.outN ≤ c → t.outN ≤ c
  acc : s.ctx.wN < 8 → s.ctx.wAcc.toNat < 2 ^ s.ctx.wN → t.ctx.wAcc.toNat < 2 ^ t.ctx.wN

/-- Writing nothing. -/
theorem WroteTo.refl (s : State) : WroteTo s s 0 :=
  ⟨rfl, rfl, fun h => ⟨h, rfl⟩, le_refl _, fun _ _ => rfl, fun _ h h' => by omega, id, fun _ _ => id, fun _ => id⟩

/-- Writing on. -/
theorem WroteTo.trans {s t u : State} {m n : Nat} (h₁ : WroteTo s t m) (h₂ : WroteTo t u n) :
    WroteTo s u (m + n) where
  same := by
    rw [h₂.same, h₁.same]
  total := by rw [h₂.total, h₁.total]; omega
  place h := by
    have a := h₁.place h
    have b := h₂.place a.1
    exact ⟨b.1, by omega⟩
  up := h₁.up.trans h₂.up
  outside a h := by
    have h1 := h₁.up
    have h2 := h₂.up
    rw [h₂.outside a (by omega), h₁.outside a (by omega)]
  stored a h h' := by
    by_cases ha : a < t.outN
    · rw [h₂.outside a (.inl ha)]; exact h₁.stored a h ha
    · exact h₂.stored a (by omega) h'
  canonical h := h₂.canonical (h₁.canonical h)
  room c hc h := by
    have hp : t.params.outCap = some c := by rw [h₁.same]; exact hc
    exact h₂.room c hp (h₁.room c hc h)
  acc h h' := h₂.acc (h₁.place h).1 (h₁.acc h h')

/-- Shifting a bit in keeps the accumulator within one bit more (R121). -/
theorem shiftIn_lt {acc : Byte} {n : Nat} (v : Bool) (h : acc.toNat < 2 ^ n) :
    (shiftIn acc v).toNat < 2 ^ (n + 1) := by
  have hv : ((if v then 1 else 0 : Byte)).toNat < 2 ^ (n + 1) := by
    have : 1 < 2 ^ (n + 1) := Nat.one_lt_two_pow (by omega)
    cases v <;> simp
  have hs : (acc <<< 1).toNat < 2 ^ (n + 1) := by
    rw [BitVec.toNat_shiftLeft]
    refine lt_of_le_of_lt (Nat.mod_le _ _) ?_
    rw [Nat.shiftLeft_eq, pow_succ (n := n)]
    omega
  simp only [shiftIn, BitVec.toNat_or]
  exact Nat.or_lt_two_pow hs hv

/-- A bit that is written. -/
theorem writeBit_wrote {v : Bool} {s t : State} (h : writeBit v s = .ok () t) : WroteTo s t 1 := by
  rcases writeBit_cases v s with ⟨h7, he⟩ | ⟨_, _, he⟩ | ⟨h7, ho, he⟩
  · rw [he] at h; cases h
    exact ⟨rfl, rfl, fun h => ⟨by simp; omega, by simp [takeBit, State.withCtx]; omega⟩, le_refl _, fun _ _ => rfl,
      fun a h h' => absurd h' (by simp only [takeBit, State.withCtx]; omega), id, fun _ _ => id, fun _ h => shiftIn_lt v h⟩
  · rw [he] at h; cases h
  · rw [he] at h; cases h
    refine ⟨rfl, rfl, fun _ => ⟨by simp, ?_⟩, ?_, ?_, ?_, ?_, ?_, fun _ _ => by simp⟩
    · simp only [clearAcc, State.withCtx]; omega
    · simp only [clearAcc, State.withCtx]; omega
    · intro a ha
      simp only [clearAcc, State.withCtx] at ha ⊢
      rw [memGet_memSet, if_neg (by omega)]
    · intro a ha ha'
      simp only [clearAcc, State.withCtx] at ha' ⊢
      rw [memGet_memSet, if_pos (by omega)]; rfl
    · exact fun hw => memSet_wf _ _ hw
    · intro c hc _
      simp only [outFull, hc, decide_eq_false_iff_not] at ho
      simp only [clearAcc, State.withCtx]; omega

/-- Bits that are written. -/
theorem writeBits_wrote {bs : Bits} {s t : State} (h : writeBits bs s = .ok () t) : WroteTo s t bs.length := by
  induction bs generalizing s with
  | nil => cases h; exact WroteTo.refl _
  | cons b bs ih =>
    obtain ⟨a, u, hu, ht⟩ := Res.bind_eq_ok.1 h
    have := (writeBit_wrote hu).trans (ih ht)
    rwa [Nat.add_comm] at this

/-- Writing ends in a state, or in an overflow somewhere on the way: never in a stop of the model. -/
theorem writeBits_cases (bs : Bits) (s : State) :
    (∃ t, writeBits bs s = .ok () t) ∨
    (∃ u n, WroteTo s u n ∧ outFull u = true ∧ ∃ v,
      writeBits bs s = .raised (faultEntry .outOverflow 0 (takeBit v u))) := by
  induction bs generalizing s with
  | nil => exact .inl ⟨s, rfl⟩
  | cons b bs ih =>
    have key : ∀ t, writeBit b s = .ok () t → writeBits (b :: bs) s = writeBits bs t := by
      intro t ht; simp [writeBits, ht]
    have step : ∀ t, writeBit b s = .ok () t → (∃ t, writeBits (b :: bs) s = .ok () t) ∨
        (∃ u n, WroteTo s u n ∧ outFull u = true ∧ ∃ v,
          writeBits (b :: bs) s = .raised (faultEntry .outOverflow 0 (takeBit v u))) := by
      intro t ht
      rw [key t ht]
      rcases ih t with h | ⟨u, n, hu, ho, v, hv⟩
      · exact .inl h
      · exact .inr ⟨u, 1 + n, (writeBit_wrote ht).trans hu, ho, v, hv⟩
    rcases writeBit_cases b s with ⟨_, he⟩ | ⟨_, ho, he⟩ | ⟨_, _, he⟩
    · exact step _ he
    · exact .inr ⟨s, 0, WroteTo.refl s, ho, b, by simp [writeBits, he]⟩
    · exact step _ he

/-- A leaf token is written as its ten bits (R94, R190). -/
theorem writeLeaf_eq (e : Bool) (v : Byte) (s : State) :
    writeLeaf e v s = (writeBits (tokenBits (.treeLeaf e v)) s).bind fun _ s => .ok () (addCount 10 s) := by
  simp only [writeLeaf, tokenBits, byteBits, writeBits, writeUInt, bitCountOk, Res.bind_assoc]
  rfl

/-- An inner node's token is written as its one bit (R93, R190). -/
theorem writeInternal_eq (s : State) :
    writeInternal s = (writeBits (tokenBits .treeInternal) s).bind fun _ s => .ok () (addCount 1 s) := by
  simp only [writeInternal, tokenBits, writeBits, Res.bind_assoc]
  rfl

end Sys2Proof.Machine
end

