-- ==== Sys2Proof/Tests/Slice0.lean ====
section
/-! SUPPORT. Tests with results taken from the spec (the vector is named), a refused term for each check, and for each
statement with hypotheses a witness that meets them. -/

namespace Sys2Proof.Machine.Test

/-! ### Helpers -/

/-- CORE in a phase, all else as after reset. -/
def inPhase (p : Phase) : State := { State.reset with phase := p }

/-- `IN` and `IN_LEN` loaded (R107). -/
def withIn (bs : List Byte) (s : State) : State :=
  { s with inLen := bs.length, inMem := (List.range bs.length).map fun j => (j, bs.getD j 0) }

/-- `OUT` holding bytes from address 0 on. -/
def withOut (bs : List Byte) (s : State) : State :=
  { s with outN := bs.length, outMem := (List.range bs.length).map fun j => (j, bs.getD j 0) }

/-- What a step or an instruction left, where it left a next state. -/
def after (o : Host.Outcome State Fault Refusal) (f : State → Bool) : Bool :=
  match o with
  | .next t => f t
  | .fault _ => false
  | .refused _ => false

/-- The operation stopped with this fault of the model. -/
def stopsWith (o : Host.Outcome State Fault Refusal) (r : Fault) : Bool :=
  match o with
  | .fault f => f == r
  | .next _ => false
  | .refused _ => false

/-- The operation was refused so. -/
def refusedWith (o : Host.Outcome State Fault Refusal) (r : Refusal) : Bool :=
  match o with
  | .refused f => f == r
  | .next _ => false
  | .fault _ => false

/-- The completed operation's value and state satisfy `f`. -/
def okAnd {α : Type} (r : Res α) (f : α → State → Bool) : Bool :=
  match r with
  | .ok a s => f a s
  | .raised _ => false
  | .fault _ => false
  | .refused _ => false

/-- The operation raised a fault of the spec with this `ERR` and `ERR_POS`. -/
def raisedWith {α : Type} (r : Res α) (err : BitVec 8) (pos : Nat) : Bool :=
  match r with
  | .raised s => s.err == err && s.errPos == pos && s.phase == .fault && s.outLen == 0
  | .ok _ _ => false
  | .fault _ => false
  | .refused _ => false

/-! ### Well-formedness: a term each check refuses -/

theorem test_params_lenW : Params.wf ⟨0, none, 513, 257⟩ = false ∧ Params.wf ⟨1, some 0, 513, 257⟩ = true := by decide
theorem test_params_nodeCap : Params.wf ⟨32, none, 512, 257⟩ = false := by decide
theorem test_params_depthMax : Params.wf ⟨32, none, 513, 256⟩ = false := by decide
theorem test_bitcode_empty : Bitcode.wf [] = false ∧ Bitcode.wf [false] = true := by decide
theorem test_bitcode_long :
    Bitcode.wf (List.replicate 257 true) = false ∧ Bitcode.wf (List.replicate 256 true) = true := by
  simp only [Bitcode.wf, List.length_replicate]
  decide
theorem test_bitCount : bitCountOk 33 = false ∧ bitCountOk 32 = true := by decide
theorem test_encoderForm :
    (Instr.treeLeaf true 0xFF).encoderForm = false ∧ (Instr.treeLeaf true 0x00).encoderForm = true ∧
    (Instr.treeLeaf true 0xFF).wf = true := by decide
theorem test_isToken : Instr.encode.isToken = false ∧ Instr.treeInternal.isToken = true := by decide
theorem test_fits_depth : Node.fits ⟨32, none, 513, 1⟩ (.internal (.leaf 1 false) (.leaf 0 true)) = false := by decide
theorem test_fits_size : Node.fits ⟨32, none, 2, 257⟩ (.internal (.leaf 1 false) (.leaf 0 true)) = false := by decide
theorem test_memory_wf_refuses :
    Memory.wf [(1, 0), (0, 0)] = false ∧ Memory.wf [(1, 0), (1, 2)] = false ∧ Memory.wf [(0, 7), (1, 0)] = true := by
  decide

/-! ### Decoding: words written out from the spec's encodings -/

/-- R103: `xxxxxx00`; H4 writes `0xFC`. -/
theorem test_decode_nop : decodeCtrl 0b00000000 = .nop ∧ decodeCtrl 0b11111100 = .nop := by decide
/-- R103: `xxxxxx01`. -/
theorem test_decode_encode : decodeCtrl 0b00000001 = .encode ∧ decodeCtrl 0b10101001 = .encode := by decide
/-- R103: `xxxxxx10`; H6 writes `0x06`. -/
theorem test_decode_decode : decodeCtrl 0b00000010 = .decode ∧ decodeCtrl 0x06 = .decode := by decide
/-- R103: `xxxxxx11`. -/
theorem test_decode_reserved : decodeCtrl 0b00000011 = .reserved ∧ decodeCtrl 0b01010111 = .reserved := by decide
/-- R93: `0`. -/
theorem test_decode_treeInternal : decode (.token [false]) = .ok .treeInternal := by decide
/-- R94: `1 0 01000001` is `L41` (K2), `1 1 00000000` is EOB (K1). -/
theorem test_decode_treeLeaf :
    decode (.token [true, false, false, true, false, false, false, false, false, true]) =
      .ok (.treeLeaf false 0x41) ∧
    decode (.token [true, true, false, false, false, false, false, false, false, false]) =
      .ok (.treeLeaf true 0x00) := by decide
/-- R92: a leaf cut short, and bits after a token asked for alone, are rejected by name. -/
theorem test_decode_rejects :
    decode (.token [true, false, false]) = .error .truncatedToken ∧ decode (.token []) = .error .truncatedToken ∧
    decode (.token [false, true]) = .error .excessBits := by decide
/-- Table words: a `CTRL` value, a 1-bit marker, a leaf whose marker is bit 9 (`0x241` is `L41`). -/
theorem test_table_words :
    decodeTableWord 8 0xFE = some .decode ∧ decodeTableWord 1 0 = some .treeInternal ∧
    decodeTableWord 10 0x241 = some (.treeLeaf false 0x41) ∧ decodeTableWord 16 0x300 = some (.treeLeaf true 0x00) ∧
    decodeTableWord 32 0 = none := by decide

/-! ### Placing a word, and one step -/

theorem test_fetch_commands :
    after (step (State.reset.withFetchWord 8 0x00)) (fun t => t == State.reset) = true ∧
    after (step (State.reset.withFetchWord 8 0x01)) (fun t => t.phase == .eFreq) = true ∧
    after (step (State.reset.withFetchWord 8 0x02)) (fun t => t.phase == .dTree) = true ∧
    after (step (State.reset.withFetchWord 8 0x03)) (fun t => t.phase == .fault && t.err == 0x03) = true := by decide
theorem test_fetch_tokens :
    after (step (State.reset.withFetchWord 1 0)) (fun t => t.ctx.readStack == [.awaitLeft] && t.ctx.rPos == 1) = true ∧
    after (step (State.reset.withFetchWord 10 0x241))
      (fun t => t.ctx.root == .leaf 0x41 false && t.phase == .dCheck && t.treeBits == 10) = true := by decide

/-! ### One step each, from the spec's vectors -/

/-- H4: from BadCommand, `CTRL <- 0xFC` changes nothing. -/
theorem test_nop : exec .nop (inPhase .fault) = .next (inPhase .fault) := rfl
/-- P1: `startEncode`. -/
theorem test_encode : after (exec .encode (withIn [0x41, 0x41, 0x41, 0x42] (inPhase .done)))
    (fun t => t.status == 1 && t.ctx.ft == [] && t.outN == 0 && t.inLen == 4) = true := by decide
/-- H7: ignored while BUSY. -/
theorem test_encode_busy : exec .encode (inPhase .eData) = .next (inPhase .eData) := rfl
/-- P2: `startDecode`. -/
theorem test_decode : after (exec .decode (withIn [0xC0, 0x00] (inPhase .fault)))
    (fun t => t.status == 1 && t.ctx.rPos == 0 && t.err == 0) = true := by decide
theorem test_decode_busy : exec .decode (inPhase .dWalk) = .next (inPhase .dWalk) := rfl
/-- H3. -/
theorem test_reserved : after (exec .reserved State.reset)
    (fun t => t.status == 3 && t.err == 0x03 && t.errPos == 0 && t.outLen == 0) = true := by decide
theorem test_reserved_busy : exec .reserved (inPhase .eFreq) = .next (inPhase .eFreq) := rfl
/-- P2: `readNode(1)` reads `0`. -/
theorem test_treeInternal_read : after (step (withIn [0x48, 0x29, 0x0B, 0x00, 0x16] (inPhase .dTree)))
    (fun t => t.ctx.nNodes == 1 && t.ctx.rPos == 1 && t.ctx.readStack == [.awaitLeft]) = true := by decide
/-- K2 begins with `0`: written as bit 0 of the partial byte. -/
theorem test_treeInternal_write : after (exec .treeInternal (inPhase .eTree))
    (fun t => t.ctx.wN == 1 && t.ctx.wAcc == 0 && t.ctx.treeCount == 1 && t.outN == 0) = true := by decide
/-- DV8: `FF C0` is `Leaf(0xFF, eob)`. -/
theorem test_treeLeaf_read : after (step (withIn [0xFF, 0xC0] (inPhase .dTree)))
    (fun t => t.ctx.root == .leaf 0xFF true && t.ctx.hasEob && t.treeBits == 10 && t.ctx.nNodes == 1) = true := by decide
/-- K1 as V1 writes it: `C0`, two bits pending, 10 bits counted. -/
theorem test_treeLeaf_write : after (exec (.treeLeaf true 0x00) (inPhase .eTree))
    (fun t => t.outMem == [(0, 0xC0)] && t.ctx.wN == 2 && t.ctx.treeCount == 10) = true := by decide
/-- DV7: `48` is cut inside the first leaf token: OutOfData at 8. -/
theorem test_truncated :
    after (step { withIn [0x48] (inPhase .dTree) with
        ctx := { Context.reset with rPos := 1, nNodes := 1, readStack := [.awaitLeft] } })
      (fun t => t.err == 0x01 && t.errPos == 8) = true := by decide
/-- DV9: no EOB leaf, at bit 10. -/
theorem test_noEob : after (step { inPhase .dCheck with ctx := { Context.reset with rPos := 10 } })
    (fun t => t.err == 0x32 && t.errPos == 10 && t.status == 3) = true := by decide

/-! ### The units -/

/-- B4, B5. -/
theorem test_writer_straddles :
    okAnd ((writeBits (true :: uintBits 0x41 8) (wInit State.reset)).bind fun _ s => finish s)
      (fun _ s => s.outMem == [(0, 0xA0), (1, 0x80)] && s.ctx.wN == 0 && s.ctx.wTotal == 9) = true := by decide
/-- B7: only the low 8 bits. B10: no padding byte when nothing is pending. -/
theorem test_writer_edges :
    okAnd (writeUInt 0x1FF 8 (wInit State.reset)) (fun _ s => s.outMem == [(0, 0xFF)]) = true ∧
    okAnd (finish (wInit State.reset)) (fun _ s => s.outMem == [] && s.ctx.wTotal == 0) = true := by decide
/-- I34. -/
theorem test_bitCount_refused :
    (writeUInt 0 33 State.reset).toOutcome = .refused .bitCountAbove32 ∧
    (readUInt 33 State.reset).toOutcome = .refused .bitCountAbove32 := ⟨rfl, rfl⟩
/-- B23, B24. -/
theorem test_reader :
    okAnd (readUInt 8 { withIn [0xA0, 0x80] State.reset with ctx := { Context.reset with rPos := 1 } })
      (fun v s => v == 0x41 && s.ctx.rPos == 9) = true ∧
    raisedWith (readUInt 8 { withIn [0xA0] State.reset with ctx := { Context.reset with rPos := 1 } }) 0x01 8 = true := by
  decide
/-- B20, B25, B26. -/
theorem test_reader_end :
    raisedWith (readBit { withIn [0xC0] State.reset with ctx := { Context.reset with rPos := 8 } }) 0x01 8 = true ∧
    readBitAvailable { withIn [0xFF] State.reset with ctx := { Context.reset with rPos := 7 } } = true ∧
    readBitAvailable { withIn [0xFF] State.reset with ctx := { Context.reset with rPos := 8 } } = false ∧
    okAnd (readUInt 0 (withIn [0x48] State.reset)) (fun v s => v == 0 && s.ctx.rPos == 0) = true := by decide
/-- A4, A6. -/
theorem test_analyze :
    analyzeAll [0x42, 0x41, 0x41, 0x41] = [⟨0x42, 1, false⟩, ⟨0x41, 3, false⟩, ⟨0, 0, true⟩] ∧
    analyzeAll [0x00, 0x00] = [⟨0, 2, false⟩, ⟨0, 0, true⟩] := by decide
/-- T3, T2: ties, and the child order. -/
theorem test_build :
    treeOf [0x41, 0x42] = .internal (.internal (.leaf 0x41 false) (.leaf 0 true)) (.leaf 0x42 false) ∧
    treeOf [0x41, 0x41, 0x41, 0x42] =
      .internal (.leaf 0x41 false) (.internal (.leaf 0x42 false) (.leaf 0 true)) := by decide
/-- G1, G4. -/
theorem test_codes :
    generate (.leaf 0 true) = ⟨[], some [false]⟩ ∧
    generate (.internal (.internal (.leaf 0x41 false) (.leaf 0 true)) (.leaf 0x42 false)) =
      ⟨[(0x41, [false, false]), (0x42, [true])], some [false, true]⟩ := by decide
/-- V1, V2. -/
theorem test_payloads :
    encodeBytes [] = [0xC0, 0x00] ∧ encodeBytes [0x41, 0x41, 0x41, 0x42] = [0x48, 0x29, 0x0B, 0x00, 0x16] := by decide
/-- DV8 (`C0 3F`), DV25. -/
theorem test_decodes :
    decodeEnding Params.default [0xC0, 0x3F] = .ok ⟨[], 10, 1⟩ ∧
    decodeEnding Params.default [0x60, 0x12, 0x0E] = .ok ⟨[0x41, 0x41], 21, 3⟩ := by decide
/-- DV9; `NODE_CAP = 4` and `DEPTH_MAX = 2` of section 3.8. -/
theorem test_decode_faults :
    decodeEnding Params.default [0x90, 0x40] = .error (.malformedNoEob, 10) ∧
    decodeEnding ⟨32, none, 4, 257⟩ [0x48, 0x29, 0x0B, 0x00, 0x16] = .error (.malformedCapacity, 22) ∧
    decodeEnding ⟨32, none, 513, 2⟩ [0x48, 0x29, 0x0B, 0x00, 0x16] = .error (.malformedDepth, 12) := by decide

/-! ### HOST -/

/-- H8, H9, H10. -/
theorem test_port :
    (readReg 9 (inPhase .done)).1 = 0 ∧ writeReg 1 0xFF State.reset = .next State.reset ∧
    after (writeReg 3 0x100000005 State.reset) (fun t => t.inLen == 5) = true := ⟨rfl, rfl, by decide⟩
/-- A step on a read of register 2 delivers `ERR`; on a write of `STATUS` it only takes the move (R21). -/
theorem test_port_step :
    after (step { inPhase .fault with err := 0x12, host := [.regRead 2] }) (fun t => t.rdata == 0x12 && t.host == []) = true ∧
    step { inPhase .done with host := [.regWrite 1 0xFF] } = .next (inPhase .done) := ⟨by decide, rfl⟩
/-- R198: after a fault inside the tree the stack is empty. -/
theorem test_stack_empty :
    after (step { inPhase .dTree with ctx := { Context.reset with readStack := [.awaitLeft] } })
      (fun t => t.phase == .fault && t.ctx.readStack == [] && t.ctx.pending == []) = true := by decide
/-- R305, R31. -/
theorem test_host_misuse :
    stopsWith (step { inPhase .eFreq with host := [.inWrite 0 0x41] }) .inWriteWhileBusy = true ∧
    stopsWith (step { State.reset with params := ⟨1, none, 513, 257⟩, host := [.inWrite 1 0x41] }) .noSuchInAddress =
      true ∧
    stopsWith (step { State.reset with params := ⟨1, none, 513, 257⟩, host := [.inRead 1] }) .noSuchInAddress =
      true := by decide
/-- A token is executed in no other phase. -/
theorem test_token_refused :
    refusedWith (exec .treeInternal State.reset) .tokenOutsideTreePhase = true ∧
    refusedWith (exec (.treeLeaf true 0) (inPhase .eData)) .tokenOutsideTreePhase = true := by decide
/-- The two stuck states. -/
theorem test_stuck :
    stopsWith (engineStep (inPhase .eEob)) .missingCode = true ∧
    stopsWith (engineStep (withIn [0x41] (inPhase .eData))) .missingCode = true ∧
    stopsWith (engineStep (inPhase .eBuild)) .emptyFrequencyList = true := by decide

/-! ### Witnesses: for each statement with hypotheses, a state and operands that meet them -/

/-- `(L41 EOB)`. -/
def pair : Node := .internal (.leaf 0x41 false) (.leaf 0 true)

/-- `LEN_W = 1`, `OUT_CAP`, `NODE_CAP`, `DEPTH_MAX` at small values. -/
def small (cap : Option Nat) (s : State) : State := { s with params := ⟨1, cap, 1, 1⟩ }

theorem witness_DecodeEncodeAgree : (Instr.treeLeaf true 0xFF).wf = true ∧ (Instr.treeLeaf true 0xFF).isToken = true ∧
    Instr.reserved.wf = true := by decide

theorem witness_StepRunsCtrlWrite : ({ State.reset with host := [.regWrite 0 0x1FD] } : State).host =
    .regWrite 0 0x1FD :: [] ∧ decodeCtrl (BitVec.ofNat 8 0x1FD) = .encode := ⟨rfl, by decide⟩

theorem witness_StepRunsFetchedToken :
    (withIn [0x40] (inPhase .dTree)).phase = .dTree ∧
    decodeToken (streamBits (withIn [0x40] (inPhase .dTree)) 10) =
      .ok (.treeInternal, [true, false, false, false, false, false, false]) ∧
    (withIn [0x40] (inPhase .dTree)).host = [] ∧
    ({ withIn [0x40] (inPhase .dTree) with host := [.yield] } : State).host = .yield :: [] ∧
    ({ withIn [0x40] (inPhase .dTree) with host := [.wait] } : State).host = .wait :: [] := by decide

theorem witness_StepRunsWrittenToken :
    let s := { inPhase .eTree with ctx := { Context.reset with pending := [pair, .leaf 7 false] } }
    s.phase = .eTree ∧ s.ctx.pending = pair :: [.leaf 7 false] ∧ s.host = [] ∧
    ({ s with host := [.yield] } : State).host = .yield :: [] ∧
    ({ s with host := [.wait] } : State).host = .wait :: [] := by decide

/-- Both cases: a token that ends with the input, and one cut one bit short. -/
theorem witness_FetchAgreesWithBitReads :
    let s := { withIn [0xC0, 0x00] (inPhase .dTree) with ctx := { Context.reset with rPos := 6 } }
    s.ctx.rPos ≤ 8 * s.inLen ∧ peekToken s = some .treeInternal ∧
    peekToken (withIn [0xFF, 0xC0] (inPhase .dTree)) = some (.treeLeaf true 0xFF) ∧
    peekToken (withIn [0xFF] (inPhase .dTree)) = none := by decide

theorem witness_NopChangesNothing : ({ State.reset with host := [.regWrite 0 (0b111111#6 ++ 0b00#2).toNat] } : State).host =
    .regWrite 0 (0b111111#6 ++ 0b00#2).toNat :: [] := rfl

theorem witness_not_busy :
    State.reset.busy = false ∧ (inPhase .done).busy = false ∧ (inPhase .fault).busy = false := by decide

theorem witness_EncodeStarts : (inPhase .done).busy = false := by decide
theorem witness_DecodeStarts : (inPhase .fault).busy = false := by decide
theorem witness_ReservedRaisesBadCommand : State.reset.busy = false := by decide

theorem witness_BusyIgnoresWrites :
    (inPhase .eFinish).busy = true ∧ (inPhase .dTree).busy = true ∧
    ({ inPhase .eFinish with host := [.regWrite 0 1] } : State).host = .regWrite 0 1 :: [] ∧
    ({ inPhase .eFinish with host := [.regWrite 3 9] } : State).host = .regWrite 3 9 :: [] := by decide

/-- The last node within both limits. -/
theorem witness_TreeInternalRead :
    let s := small none (inPhase .dTree)
    s.phase = .dTree ∧ s.ctx.readStack.length + 1 ≤ s.params.depthMax ∧ s.ctx.nNodes < s.params.nodeCap := by decide

/-- With no call waiting, with one that waits for its right child, and with one that waits for its left child. -/
theorem witness_TreeLeafRead :
    let l := pair
    let s := small none (inPhase .dTree)
    let t := { inPhase .dTree with ctx := { Context.reset with readStack := [.awaitRight l] } }
    let u := { inPhase .dTree with ctx := { Context.reset with readStack := [.awaitRight l, .awaitLeft] } }
    (s.phase = .dTree ∧ s.ctx.readStack.length + 1 ≤ s.params.depthMax ∧ s.ctx.nNodes < s.params.nodeCap ∧
      s.ctx.readStack = [].map Frame.awaitRight) ∧
    (t.ctx.readStack.length + 1 ≤ t.params.depthMax ∧ t.ctx.nNodes < t.params.nodeCap ∧
      t.ctx.readStack = [l].map Frame.awaitRight) ∧
    (u.ctx.readStack.length + 1 ≤ u.params.depthMax ∧ u.ctx.nNodes < u.params.nodeCap ∧
      u.ctx.readStack = [l].map Frame.awaitRight ++ .awaitLeft :: []) := by decide

/-- The byte a token completes is the last one that fits. -/
theorem witness_TokenWritten :
    let s := small (some 1) { inPhase .eTree with ctx := { Context.reset with wN := 7 } }
    Instr.treeInternal.isToken = true ∧ s.phase = .eTree ∧ s.ctx.wN < 8 ∧
    (∀ c, s.params.outCap = some c → (8 * s.outN + s.ctx.wN + (tokenBits .treeInternal).length) / 8 ≤ c) := by
  refine ⟨rfl, rfl, by decide, ?_⟩
  intro c hc
  cases hc
  decide

/-- The byte a token completes is the first one that does not fit: the marker's, or a leaf's second. -/
theorem witness_TokenWriteOverflows :
    let s := small (some 0) { inPhase .eTree with ctx := { Context.reset with wN := 7 } }
    let t := small (some 1) { inPhase .eTree with ctx := { Context.reset with wN := 6 } }
    (s.phase = .eTree ∧ s.ctx.wN < 8 ∧ s.params.outCap = some 0 ∧ s.outN ≤ 0 ∧
      0 < (8 * s.outN + s.ctx.wN + (tokenBits .treeInternal).length) / 8) ∧
    (t.phase = .eTree ∧ t.ctx.wN < 8 ∧ t.params.outCap = some 1 ∧ t.outN ≤ 1 ∧
      1 < (8 * t.outN + t.ctx.wN + (tokenBits (.treeLeaf true 0)).length) / 8) := by decide

/-- One node too deep, and within the depth one node too many. -/
theorem witness_NodeLimitsTestedFirst :
    let s := small none { inPhase .dTree with ctx := { Context.reset with readStack := [.awaitLeft], nNodes := 1 } }
    let t := small none { inPhase .dTree with ctx := { Context.reset with nNodes := 1 } }
    (s.phase = .dTree ∧ s.params.depthMax < s.ctx.readStack.length + 1) ∧
    (t.phase = .dTree ∧ t.ctx.readStack.length + 1 ≤ t.params.depthMax ∧ t.ctx.nNodes = t.params.nodeCap) := by decide

/-- A leaf cut before its last bits, and no bit at all. -/
theorem witness_TruncatedTokenRaisesOutOfData :
    let s := small none (withIn [0xFF] (inPhase .dTree))
    let t := small none (inPhase .dTree)
    (s.phase = .dTree ∧ s.ctx.rPos ≤ 8 * s.inLen ∧ s.ctx.readStack.length + 1 ≤ s.params.depthMax ∧
      s.ctx.nNodes < s.params.nodeCap ∧ peekToken s = none) ∧
    (t.phase = .dTree ∧ t.ctx.rPos ≤ 8 * t.inLen ∧ t.ctx.readStack.length + 1 ≤ t.params.depthMax ∧
      t.ctx.nNodes < t.params.nodeCap ∧ peekToken t = none) := by decide

theorem witness_EobIsChecked :
    (inPhase .dCheck).phase = .dCheck ∧ (inPhase .dCheck).ctx.hasEob = false ∧
    ({ inPhase .dCheck with ctx := { Context.reset with hasEob := true } } : State).ctx.hasEob = true := by decide

/-- The last bit of the input leads to the left child: an inner node or EOB with `OUT` full, a symbol with room for it. -/
theorem witness_WalkReadsOneBit :
    ∀ x ∈ [(pair, 0), (.leaf 0x41 false, 1), (.leaf 0 true, 0)],
    let l := x.1
    let s := small (some x.2) { withIn [0x00] (inPhase .dWalk) with
      ctx := { Context.reset with rPos := 7, cur := .internal l pair } }
    s.phase = .dWalk ∧ s.ctx.rPos < 8 * s.inLen ∧ (l = .leaf 0x41 false → outFull s = false) ∧
    (l = match s.ctx.cur with
      | .leaf v e => .leaf v e
      | .internal l r => if inBit s s.ctx.rPos then r else l) := by decide

/-- A leaf root (R234), and a full `OUT`. -/
theorem witness_WalkReadsOneBit_leaf :
    let s := small (some 0) { withIn [0xFF] (inPhase .dWalk) with
      ctx := { Context.reset with rPos := 7, cur := .leaf 0 true } }
    s.phase = .dWalk ∧ s.ctx.rPos < 8 * s.inLen ∧ outFull s = true ∧
    (Node.leaf 0 true = match s.ctx.cur with
      | .leaf v e => .leaf v e
      | .internal l r => if inBit s s.ctx.rPos then r else l) := by decide

/-- No bit left, also with `OUT` full; and a symbol at a full `OUT`. -/
theorem witness_WalkFaults :
    let s := small (some 0) (inPhase .dWalk)
    let t := small (some 0) { withIn [0x00] (inPhase .dWalk) with
      ctx := { Context.reset with rPos := 7, cur := .leaf 5 false } }
    (s.phase = .dWalk ∧ 8 * s.inLen ≤ s.ctx.rPos ∧ outFull s = true) ∧
    (t.phase = .dWalk ∧ t.ctx.rPos < 8 * t.inLen ∧ t.params.outCap = some t.outN ∧
      descend (inBit t t.ctx.rPos) t.ctx.cur = .leaf 5 false) := by decide

theorem witness_EmitStoresOneByte :
    (small (some 0) State.reset).params.outCap = some (small (some 0) State.reset).outN ∧
    (∀ c, (small (some 1) State.reset).params.outCap = some c → (small (some 1) State.reset).outN < c) := by
  refine ⟨rfl, ?_⟩
  intro c hc
  cases hc
  decide

theorem witness_RegisterPort :
    ((inPhase .done).phase = .idle ∨ (inPhase .done).phase = .done) ∧ 8 < 9 ∧ (1 ≠ 0 ∧ 1 ≠ 3) ∧ (9 ≠ 0 ∧ 9 ≠ 3) ∧
    ({ inPhase .done with host := [.regRead 2] } : State).host = .regRead 2 :: [] ∧
    ({ inPhase .done with host := [.regWrite 1 0xFF] } : State).host = .regWrite 1 0xFF :: [] := by decide

theorem witness_StatusOfPhase : (inPhase .dWalk).status = 1 ∧ (inPhase .fault).status = 3 ∧ State.reset.status = 0 ∧
    (inPhase .done).status = 2 := by decide

theorem witness_InLenWrite :
    ({ State.reset with host := [.regWrite 3 7] } : State).host = .regWrite 3 7 :: [] ∧
    ({ State.reset with host := [.regWrite 3 7] } : State).busy = false ∧
    ({ inPhase .eData with host := [.regWrite 3 7] } : State).busy = true := by decide

/-- The highest address of `IN` for `LEN_W = 1`: written, read where written, read where not. -/
theorem witness_HostLoadsIn :
    let s := { small none (inPhase .done) with host := [.inWrite 0 0x41] }
    let t := { small none (withIn [0x41] (inPhase .done)) with host := [.inRead 0] }
    let u := { small none (inPhase .done) with host := [.inRead 0] }
    (s.host = .inWrite 0 0x41 :: [] ∧ s.busy = false ∧ 0 ≤ 2 ^ s.params.lenW - 2 ∧ 1 ≤ s.params.lenW) ∧
    (t.host = .inRead 0 :: [] ∧ t.busy = false ∧ memGet t.inMem 0 = some 0x41) ∧
    (u.host = .inRead 0 :: [] ∧ u.busy = false ∧ memGet u.inMem 0 = none) := by decide

/-- The last byte of the result, and the first one beyond it. -/
theorem witness_HostReadsResult :
    let s := { withOut [0xC0, 0x00] (inPhase .done) with outLen := 2, host := [.outRead 1] }
    let t := { withOut [0xC0, 0x00] (inPhase .done) with outLen := 2, host := [.outRead 2] }
    (s.host = .outRead 1 :: [] ∧ s.phase = .done ∧ 1 < s.outLen ∧ memGet s.outMem 1 = some 0x00) ∧
    (t.host = .outRead 2 :: [] ∧ ¬ (t.phase = .done ∧ 2 < t.outLen)) := by decide

/-- The reset input while BUSY. -/
theorem witness_ResetState :
    let s := { inPhase .eData with host := [.reset] }
    s.host = .reset :: [] ∧ step s = .next (resetInput { s with host := [] }) := ⟨rfl, rfl⟩

/-- Nine bits (B4), and none. -/
theorem witness_WriterLaw :
    State.reset.params.outCap = none ∧
    okAnd (writeBits (true :: uintBits 0x41 8) (wInit State.reset)) (fun _ t => okAnd (finish t) fun _ _ => true) = true ∧
    okAnd (writeBits [] (wInit State.reset)) (fun _ t => okAnd (finish t) fun _ _ => true) = true := by decide

/-- B23's bytes: a bit, a padding bit, the end; and `readUInt(8)` over the bits of `writeUInt(0x41, 8)`. -/
theorem witness_ReaderReturnsWrittenBits :
    let s := withIn [0xA0, 0x80] (inPhase .dTree)
    let bs := [true, false, true, false, false, false, false, false, true]
    s.inLen = (bs.length + 7) / 8 ∧ (∀ j < s.inLen, memGet s.inMem j = (packBits bs)[j]?) ∧ s.ctx.rPos < bs.length ∧
    (bs.length ≤ 15 ∧ 15 < 8 * s.inLen) ∧ 16 = 8 * s.inLen ∧
    (let t := { s with ctx := { Context.reset with rPos := 1 } }
     8 ≤ 32 ∧ t.ctx.rPos + 8 ≤ 8 * t.inLen ∧ streamBits t 8 = uintBits 0x41 8) := by decide

/-- Inside a byte, at a byte boundary, and at the end. -/
theorem witness_RegisterReaderEquivalent :
    let s := { withIn [0xA0] (inPhase .dTree) with ctx := { Context.reset with rPos := 5 } }
    let t := { withIn [0xA0] (inPhase .dTree) with ctx := { Context.reset with rPos := 8 } }
    let r : RegReader := ⟨1, 0xA0, 3⟩
    let z : RegReader := ⟨0, 0xFF, 0⟩
    let e : RegReader := ⟨1, 0xFF, 0⟩
    (r.rem ≤ 8 ∧ r.idx ≤ s.inLen ∧ r.rem ≤ 8 * r.idx ∧ s.ctx.rPos = 8 * r.idx - r.rem ∧ r.cur = inByte s (r.idx - 1)) ∧
    (z.idx ≤ 1 ∧ z.rem = 0 ∧ (withIn [0xA0] State.reset).ctx.rPos = 8 * z.idx - z.rem) ∧
    (e.rem = 0 ∧ e.idx ≤ t.inLen ∧ t.ctx.rPos = 8 * e.idx - e.rem) := by decide

theorem witness_StableSortResult :
    [Entry.mk (.leaf 1 false) 1, Entry.mk (.leaf 2 false) 1].Pairwise (fun a b => a.weight ≤ b.weight) := by simp

theorem witness_MergeJoinsTwoLightest : 2 ≤ (initWL (analyzeAll [0x41])).length := by decide

theorem witness_ResortIsInsertion :
    [Entry.mk (.leaf 1 false) 1, Entry.mk (.leaf 2 false) 1].Pairwise (fun a b => a.weight ≤ b.weight) ∧
    ([] : List Entry).Pairwise (fun a b => a.weight ≤ b.weight) := by simp

theorem witness_DegenerateTrees : 1 ≤ 1 ∧ List.replicate 1 (0x41 : Byte) = [0x41] := by decide

theorem witness_EobCodeEndsInOne : ([0x41] : List Byte) ≠ [] := by decide

theorem witness_CodesArePrefixFree :
    codeOf (generate (treeOf [0x41, 0x42])).slots 0x41 = some [false, false] ∧
    codeOf (generate (treeOf [0x41, 0x42])).slots 0x42 = some [true] ∧ ([] : List Byte) = [] := by decide

theorem witness_CodeLengths :
    (generate (treeOf [])).eob = some [false] ∧ codeOf (generate (treeOf [0x41, 0x42])).slots 0x41 = some [false, false] :=
  by decide

theorem witness_TreeIsWritten :
    let s := { inPhase .eTree with ctx := { Context.reset with pending := [pair], wN := 7 } }
    s.phase = .eTree ∧ s.host = [] ∧ s.ctx.pending = [pair] ∧ s.ctx.wN < 8 ∧ s.params.outCap = none := by decide

/-- A tree at both limits: one leaf. -/
theorem witness_TreeIsReadBack :
    let s := small none (withIn [0xC0, 0x00] (inPhase .dTree))
    let t := Node.leaf 0 true
    s.phase = .dTree ∧ s.host = [] ∧ s.ctx.readStack = [] ∧ s.ctx.nNodes = 0 ∧ t.fits s.params = true ∧
    streamBits s (treeStream t).length = treeStream t := by decide

theorem witness_EncodeRuns : (inPhase .fault).busy = false ∧ (inPhase .fault).host = [] := by decide
theorem witness_DecodeRuns : (inPhase .done).busy = false ∧ (inPhase .done).host = [] := by decide

/-- The least legal parameters, and a result that fills `OUT`. -/
theorem witness_RoundTrip :
    Params.wf ⟨1, some 1, 513, 257⟩ = true ∧ overCap ⟨1, some 1, 513, 257⟩ [(0x41 : Byte)].length = false := by decide

theorem witness_RoundtripProgramRuns :
    let s := { State.reset with host := roundtripProgram }
    s.busy = false ∧ s.host = roundtripProgram ∧ s.params.wf = true ∧ s.params.outCap = none ∧
    (encodeBytes (inData (startEncode s))).length < 2 ^ s.params.lenW := by decide

theorem witness_ShortenedPayloadFaults :
    Params.default.wf = true ∧ Params.default.outCap = none ∧ 0 < (encodeBytes []).length ∧
    1 < (encodeBytes []).length := by decide

theorem witness_TrailingBitsIgnored : decodeBits Params.default (bytesBits [0xC0, 0x00]) = .ok ⟨[], 10, 1⟩ := by decide

/-- DV8, `C0 3F`: the bits behind V1's EOB code turned round; and none of them. -/
theorem test_padding_ignored :
    decodeBits Params.default ((bytesBits [0xC0, 0x00]).take 11 ++ List.replicate 5 true) = .ok ⟨[], 10, 1⟩ ∧
    decodeBits Params.default ((bytesBits [0xC0, 0x00]).take 11) = .ok ⟨[], 10, 1⟩ := by decide

theorem witness_EncodeDependsOnInputOnly :
    let s := withIn [0x41] (inPhase .done)
    let t := { withIn [0x41, 0x42] (inPhase .fault) with err := 0x03, draws := 5, inLen := 1, params := ⟨1, none, 1, 1⟩ }
    s.busy = false ∧ t.busy = false ∧ s.host = [] ∧ t.host = [] ∧ s.params.outCap = t.params.outCap ∧
    inData (startEncode s) = inData (startEncode t) := by decide

theorem witness_CountersNeverOverflow : 1 ≤ (1 : Nat) ∧ [(0x41 : Byte)].length < 2 ^ 1 := by decide

theorem witness_PhaseGraphIsFollowed :
    engineStep (inPhase .idle) = .next (inPhase .idle) ∧
    engineStep (inPhase .dWalk) = .next (faultEntry .outOfData 0 (inPhase .dWalk)) := ⟨rfl, rfl⟩

/-- An operation that stores, and one that raises. -/
theorem witness_EngineFrame :
    after (engineStep { inPhase .eFinish with ctx := { Context.reset with wN := 1 } })
      (fun t => t.phase == .done && t.outN == 1) = true ∧
    after (engineStep (inPhase .dTree)) (fun t => t.phase == .fault) = true := by decide

theorem witness_HostReadsChangeNothing :
    step { State.reset with host := [.regRead 1] } = .next State.reset ∧
    after (step { withIn [0x41] State.reset with host := [.inRead 0] }) (fun t => t.rdata == 0x41) = true ∧
    after (step { withOut [0x42] (inPhase .done) with outLen := 1, host := [.outRead 0] }) (fun t => t.rdata == 0x42) =
      true := ⟨rfl, by decide, by decide⟩

/-- A state in the middle of nothing, with a result in `OUT`, meets the invariant; and HOST's read of it is a step. -/
theorem witness_InvIsKept :
    let s := { inPhase .done with host := [.regRead 4] }
    Inv s ∧ step s = .next (inPhase .done) := by
  refine ⟨⟨⟨rfl, rfl⟩, ⟨by decide, by decide, fun _ => ⟨rfl, rfl⟩, ?_, fun _ => rfl, fun _ => rfl⟩, ⟨?_, ?_, ?_, ?_⟩,
    ?_, ?_, fun _ => rfl, fun _ => rfl, fun _ => rfl⟩, rfl⟩
  · exact fun h => nomatch h
  · exact fun h => nomatch h
  · exact fun _ a => by simp [inPhase, State.reset]
  · exact fun _ => rfl
  · exact fun c hc => nomatch hc
  · exact fun h => nomatch h
  · exact fun h => nomatch h

/-- After `generate`, where the code of EOB is needed. -/
theorem witness_NoCodeIsMissing :
    let s := { inPhase .eEob with ctx := { Context.reset with eobCode := some [false] } }
    CodeInv s ∧ after (step s) (fun t => t.phase == .eFinish) = true := by
  refine ⟨⟨?_, ?_, ?_, ?_⟩, by decide⟩
  · exact fun h => nomatch h
  · exact fun h => nomatch h
  · exact fun h => nomatch h
  · exact fun _ => ⟨fun b hb => (List.not_mem_nil hb).elim, rfl⟩

theorem witness_OnlyHostMisuseStops :
    CodeInv { inPhase .eFinish with host := [.inWrite 0 1] } ∧
    stopsWith (step { inPhase .eFinish with host := [.inWrite 0 1] }) .inWriteWhileBusy = true := by
  refine ⟨⟨?_, ?_, ?_, ?_⟩, by decide⟩
  · exact fun h => nomatch h
  · exact fun h => nomatch h
  · exact fun h => nomatch h
  · rintro (h | h | h) <;> exact nomatch h

end Sys2Proof.Machine.Test
end

section
/-! PROOF. O53: the length of a payload (R15, R76). A tree of `L` leaves takes `11 * L - 1` bits (R102) and each code at
most `max 1 (L - 1)` (R183); `L` is one more than the number of distinct input bytes (R153, R166), so it is at most 257
and at most one more than the length of the input. -/

namespace Sys2Proof.Machine

/-! ### The frequency list -/

/-- The rows of the input bytes, before the EOB row (R150). -/
def byteRows (data : List Byte) : List FEntry := data.foldl (fun ft b => countByte b ft) []

theorem analyzeAll_eq (data : List Byte) : analyzeAll data = byteRows data ++ [eobRow] := rfl

@[simp] theorem byteRows_nil : byteRows [] = [] := rfl

@[simp] theorem byteRows_append_singleton (data : List Byte) (b : Byte) :
    byteRows (data ++ [b]) = countByte b (byteRows data) := by
  simp [byteRows]

@[simp] theorem firstSeen_nil : firstSeen [] = [] := rfl

@[simp] theorem firstSeen_append_singleton (data : List Byte) (b : Byte) :
    firstSeen (data ++ [b]) = if b ∈ firstSeen data then firstSeen data else firstSeen data ++ [b] :=
  List.foldl_append ..

/-- Counting a byte makes no EOB row. -/
theorem countByte_isEob {b : Byte} {ft : List FEntry} (h : ∀ r ∈ ft, r.isEob = false) :
    ∀ r ∈ countByte b ft, r.isEob = false := by
  induction ft with
  | nil => simp [countByte]
  | cons r rs ih =>
    obtain ⟨hr, hrs⟩ := List.forall_mem_cons.1 h
    unfold countByte
    split
    · exact List.forall_mem_cons.2 ⟨hr, hrs⟩
    · exact List.forall_mem_cons.2 ⟨hr, ih hrs⟩

/-- Counting a byte keeps the values of the rows, and adds the byte at the end if it is new (R150). -/
theorem countByte_values {b : Byte} {ft : List FEntry} (h : ∀ r ∈ ft, r.isEob = false) :
    (countByte b ft).map FEntry.value =
      if b ∈ ft.map FEntry.value then ft.map FEntry.value else ft.map FEntry.value ++ [b] := by
  induction ft with
  | nil => simp [countByte]
  | cons r rs ih =>
    obtain ⟨hr, hrs⟩ := List.forall_mem_cons.1 h
    unfold countByte
    by_cases hv : r.value = b
    · simp [hr, hv]
    · simp only [hr, hv, and_false, if_false, List.map_cons, ih hrs, List.mem_cons, Ne.symm hv, false_or]
      split <;> rfl

theorem byteRows_isEob (data : List Byte) : ∀ r ∈ byteRows data, r.isEob = false := by
  induction data using List.reverseRecOn with
  | nil => simp
  | append_singleton data b ih => simpa using countByte_isEob ih

/-- The rows stand in first-occurrence order (R150, R153). -/
theorem byteRows_values (data : List Byte) : (byteRows data).map FEntry.value = firstSeen data := by
  induction data using List.reverseRecOn with
  | nil => rfl
  | append_singleton data b ih =>
    simp only [byteRows_append_singleton, firstSeen_append_singleton, countByte_values (byteRows_isEob data), ih]

theorem firstSeen_nodup (data : List Byte) : (firstSeen data).Nodup := by
  induction data using List.reverseRecOn with
  | nil => simp
  | append_singleton data b ih =>
    rw [firstSeen_append_singleton]
    split
    · exact ih
    · next hb => simpa using List.Nodup.concat hb ih

theorem firstSeen_length_le (data : List Byte) : (firstSeen data).length ≤ data.length := by
  induction data using List.reverseRecOn with
  | nil => simp
  | append_singleton data b ih =>
    rw [firstSeen_append_singleton, List.length_append]
    split
    · omega
    · simpa using ih

/-- There are only 256 byte values. -/
theorem firstSeen_length_le_256 (data : List Byte) : (firstSeen data).length ≤ 256 :=
  calc (firstSeen data).length ≤ Fintype.card Byte := (firstSeen_nodup data).length_le_card
    _ = FinEnum.card Byte := FinEnum.card_eq_fintypeCard.symm
    _ = 256 := FinEnum.card_bitVec 8

/-- One row for each distinct byte, and the EOB row (R153). -/
theorem analyzeAll_length (data : List Byte) : (analyzeAll data).length = (firstSeen data).length + 1 := by
  rw [analyzeAll_eq, List.length_append, ← byteRows_values, List.length_map, List.length_singleton]

/-! ### The tree builder -/

theorem insertAhead_perm (e : Entry) (l : List Entry) : (insertAhead e l).Perm (e :: l) := by
  induction l with
  | nil => rfl
  | cons x xs ih =>
    unfold insertAhead
    split
    · rfl
    · exact (ih.cons x).trans (.swap e x xs)

/-- Sorting only rearranges (R161). -/
theorem stableSort_perm (l : List Entry) : (stableSort l).Perm l := by
  induction l with
  | nil => rfl
  | cons e es ih => exact (insertAhead_perm e _).trans (ih.cons e)

/-- A merge replaces the first two entries of the sorted list by one at the end (R162). -/
theorem mergeStep_eq {wl : List Entry} (h : 2 ≤ wl.length) :
    ∃ min second rest, stableSort wl = min :: second :: rest ∧
      mergeStep wl = rest ++ [mergePair min second] := by
  rw [← stableSort_length] at h
  unfold mergeStep
  match hs : stableSort wl, h with
  | min :: second :: rest, _ => exact ⟨min, second, rest, rfl, rfl⟩

/-- A merge makes the list one shorter (R162). -/
theorem mergeStep_length {wl : List Entry} (h : 2 ≤ wl.length) : (mergeStep wl).length + 1 = wl.length := by
  obtain ⟨min, second, rest, hs, hm⟩ := mergeStep_eq h
  rw [hm, ← stableSort_length wl, hs]
  simp

/-- What a merge keeps holds of the one entry that is left in the end (R163). -/
theorem mergeAll_induction {P : List Entry → Prop}
    (hstep : ∀ wl, 2 ≤ wl.length → P wl → P (mergeStep wl)) (n : Nat) (wl : List Entry)
    (hne : wl ≠ []) (hlen : wl.length ≤ n + 1) (hP : P wl) : ∃ e, mergeAll n wl = [e] ∧ P [e] := by
  induction n generalizing wl with
  | zero =>
    match wl, hne, hlen with
    | [e], _, _ => exact ⟨e, rfl, hP⟩
  | succ n ih =>
    match wl, hne with
    | [e], _ => exact ⟨e, rfl, hP⟩
    | e₁ :: e₂ :: es, _ =>
      have h2 : 2 ≤ (e₁ :: e₂ :: es).length := by simp
      have hl := mergeStep_length h2
      exact ih _ (List.ne_nil_of_length_pos (by omega)) (by omega) (hstep _ h2 hP)

/-- What holds of the first working list and is kept by a merge holds of the tree's entry (R163). -/
theorem treeOf_induction {P : List Entry → Prop} (data : List Byte)
    (hstep : ∀ wl, 2 ≤ wl.length → P wl → P (mergeStep wl)) (hinit : P (initWL (analyzeAll data))) :
    ∃ e, treeOf data = e.node ∧ P [e] := by
  have hlen : (initWL (analyzeAll data)).length = (analyzeAll data).length := List.length_map ..
  have hpos : 0 < (analyzeAll data).length := by rw [analyzeAll_length]; omega
  obtain ⟨e, he, hP⟩ := mergeAll_induction hstep (analyzeAll data).length (initWL (analyzeAll data))
    (List.ne_nil_of_length_pos (by omega)) (by omega) hinit
  exact ⟨e, by rw [treeOf, buildTree, he], hP⟩

/-- Leaves of all the trees in a working list. -/
def totalLeaves (wl : List Entry) : Nat := (wl.map fun e => e.node.leaves).sum

theorem totalLeaves_perm {l m : List Entry} (h : l.Perm m) : totalLeaves l = totalLeaves m :=
  (h.map _).sum_nat

theorem totalLeaves_mergeStep {wl : List Entry} (h : 2 ≤ wl.length) :
    totalLeaves (mergeStep wl) = totalLeaves wl := by
  obtain ⟨min, second, rest, hs, hm⟩ := mergeStep_eq h
  rw [hm, ← totalLeaves_perm (stableSort_perm wl), hs]
  simp [totalLeaves, mergePair, Node.leaves]
  omega

theorem totalLeaves_initWL (ft : List FEntry) : totalLeaves (initWL ft) = ft.length := by
  induction ft with
  | nil => rfl
  | cons r rs ih =>
    simp only [totalLeaves, initWL, List.map_cons, List.sum_cons, Node.leaves, List.length_cons] at ih ⊢
    omega

/-- The tree has a leaf for each row (R166). -/
theorem treeOf_leaves (data : List Byte) : (treeOf data).leaves = (analyzeAll data).length := by
  obtain ⟨e, he, hP⟩ := treeOf_induction (P := fun wl => totalLeaves wl = (analyzeAll data).length) data
    (fun _ h2 h => (totalLeaves_mergeStep h2).trans h) (totalLeaves_initWL _)
  simpa [he, totalLeaves] using hP

/-- At most 256 values and EOB (R35). -/
theorem treeOf_leaves_le_257 (data : List Byte) : (treeOf data).leaves ≤ 257 := by
  have := firstSeen_length_le_256 data
  rw [treeOf_leaves, analyzeAll_length]
  omega

theorem treeOf_leaves_le_length (data : List Byte) : (treeOf data).leaves ≤ data.length + 1 := by
  have := firstSeen_length_le data
  rw [treeOf_leaves, analyzeAll_length]
  omega

/-! ### The two sections of the payload -/

theorem one_le_leaves (t : Node) : 1 ≤ t.leaves := by
  induction t with
  | leaf v e => exact Nat.le_refl 1
  | internal l r ihl _ => simp only [Node.leaves]; omega

/-- The tree section has `11 * L - 1` bits (R102). -/
theorem treeStream_length (t : Node) : (treeStream t).length + 1 = 11 * t.leaves := by
  induction t with
  | leaf v e => simp [treeStream, tokenBits, byteBits, Node.leaves]
  | internal l r ihl ihr => simp [treeStream, tokenBits, Node.leaves]; omega

/-- No code of the table, EOB's included, has more than `k` bits. -/
def CodesWithin (k : Nat) (t : CodeTable) : Prop :=
  (∀ b c, codeOf t.slots b = some c → c.length ≤ k) ∧ ∀ c, t.eob = some c → c.length ≤ k

theorem CodesWithin.empty (k : Nat) : CodesWithin k emptyTable :=
  ⟨fun _ _ h => (nomatch h), fun _ h => (nomatch h)⟩

theorem leafCode_length (path : Bits) : (leafCode path).length = max 1 path.length := by
  cases path <;> simp [leafCode]

/-- A walk below a path of `p` bits gives codes of at most `p.length + leaves - 1` bits, or of 1 (R180, R183). -/
theorem walkCodes_within {k : Nat} (n : Node) {p : Bits} {t : CodeTable} (hk : 1 ≤ k)
    (hp : p.length + n.leaves ≤ k + 1) (ht : CodesWithin k t) : CodesWithin k (walkCodes n p t) := by
  induction n generalizing p t with
  | leaf v e =>
    have hcode : (leafCode p).length ≤ k := by
      simp only [Node.leaves] at hp
      rw [leafCode_length]
      omega
    obtain ⟨hslots, heob⟩ := ht
    cases e with
    | true => exact ⟨hslots, fun c hc => Option.some.inj hc ▸ hcode⟩
    | false =>
      refine ⟨fun b c hc => ?_, heob⟩
      simp only [walkCodes, codeOf, tabGet_tabSet, Bool.false_eq_true, if_false] at hc
      split at hc
      · exact Option.some.inj hc ▸ hcode
      · exact hslots b c hc
  | internal l r ihl ihr =>
    simp only [Node.leaves] at hp
    have hl := one_le_leaves l
    have hr := one_le_leaves r
    exact ihr (by simp; omega) (ihl (by simp; omega) ht)

/-- A code has at most `max 1 (L - 1)` bits (R183). -/
theorem generate_within (root : Node) : CodesWithin (max 1 (root.leaves - 1)) (generate root) :=
  walkCodes_within root (by omega) (by simp; omega) (.empty _)

theorem CodesWithin.codeOf_getD_length_le {k : Nat} {t : CodeTable} (h : CodesWithin k t) (b : Byte) :
    ((codeOf t.slots b).getD []).length ≤ k := by
  cases hc : codeOf t.slots b with
  | none => simp
  | some c => exact h.1 b c hc

theorem CodesWithin.eob_getD_length_le {k : Nat} {t : CodeTable} (h : CodesWithin k t) :
    (t.eob.getD []).length ≤ k := by
  cases hc : t.eob with
  | none => simp
  | some c => exact h.2 c hc

/-- The data section is one code for each input byte, and EOB's (R90). -/
theorem dataStream_length_le {k : Nat} {t : CodeTable} (h : CodesWithin k t) (data : List Byte) :
    (dataStream t data).length ≤ k * (data.length + 1) := by
  induction data with
  | nil => simpa [dataStream] using h.eob_getD_length_le
  | cons b bs ih =>
    have hb := h.codeOf_getD_length_le b
    simp only [dataStream, List.flatMap_cons, List.append_assoc, List.length_append, List.length_cons] at ih ⊢
    calc _ ≤ k + k * (bs.length + 1) := Nat.add_le_add hb ih
      _ = k * (bs.length + 1 + 1) := by ring

/-- Codes have at most 256 bits, so the length of a payload is bounded by its tree's leaves and its input's length. -/
theorem payloadBits_length_le (data : List Byte) :
    (payloadBits data).length + 1 ≤ 11 * (treeOf data).leaves + 256 * (data.length + 1) := by
  have hL := treeOf_leaves_le_257 data
  have htree := treeStream_length (treeOf data)
  have hdata : (dataStream (generate (treeOf data)) data).length ≤ 256 * (data.length + 1) :=
    (dataStream_length_le (generate_within _) data).trans (Nat.mul_le_mul_right _ (by omega))
  rw [payloadBits, List.length_append]
  omega

@[simp] theorem packBits_length (bs : Bits) : (packBits bs).length = (bs.length + 7) / 8 := by
  simp [packBits]

/-- R15: `11 * (n + 1) + 256 * (n + 1)` stays below `512 * (n + 1)`, and `n + 1 ≤ 2 ^ LEN_W`. -/
theorem payloadBits_length_lt (p : Params) {data : List Byte} (h : data.length < 2 ^ p.lenW) :
    (payloadBits data).length < 2 ^ bitcntW p := by
  have hbits := payloadBits_length_le data
  have hL := treeOf_leaves_le_length data
  rw [bitcntW, Nat.pow_add]
  omega

/-- R76: the tree section has at most `11 * 257 - 1` bits. -/
theorem encodeBytes_length_le (data : List Byte) :
    (encodeBytes data).length ≤ (2826 + 256 * (data.length + 1) + 7) / 8 := by
  have hbits := payloadBits_length_le data
  have hL := treeOf_leaves_le_257 data
  rw [encodeBytes, packBits_length]
  exact Nat.div_le_div_right (by omega)

/-- Settles O53: the payload's length is bounded by the leaves of its tree and the length of the input; R15 needs that
there are at most as many leaves as codes written, R76 that there are at most 257. -/
theorem countersNeverOverflow : Obligations.CountersNeverOverflow :=
  ⟨fun p _ _ h => payloadBits_length_lt p h,
    fun data => ⟨packBits_length (payloadBits data), encodeBytes_length_le data⟩⟩

end Sys2Proof.Machine
end

section
/-! SUPPORT. What a move of ENGINE can do: how bytes are stored in `OUT`, and for each phase the next states of its
move. The statements about every move (O54, O55, O58) are put together from these. -/

namespace Sys2Proof.Machine

/-! ### Storing to OUT, and taking a fault -/

/-- Between `s` and `t` bytes were stored at `OUT_N`, upward, and the context may have changed; nothing else (R32, R75). -/
structure Appended (s t : State) : Prop where
  same : t = { s with outMem := t.outMem, outN := t.outN, ctx := t.ctx }
  up : s.outN ≤ t.outN
  outside : ∀ a, a < s.outN ∨ t.outN ≤ a → memGet t.outMem a = memGet s.outMem a
  stored : ∀ a, s.outN ≤ a → a < t.outN → (memGet t.outMem a).isSome = true
  canonical : Memory.wf s.outMem = true → Memory.wf t.outMem = true
  room : ∀ c, s.params.outCap = some c → s.outN ≤ c → t.outN ≤ c

/-- Nothing is stored. -/
theorem Appended.withCtx (s : State) (c : Context) : Appended s (s.withCtx c) :=
  ⟨rfl, le_refl _, fun _ _ => rfl, fun _ h h' => absurd h' (Nat.not_lt.2 h), id, fun _ _ => id⟩

/-- One byte is stored where there is room for it. -/
theorem Appended.store {s : State} (h : outFull s = false) (b : Byte) (c : Context) :
    Appended s { s with outMem := memSet s.outMem s.outN b, outN := s.outN + 1, ctx := c } where
  same := rfl
  up := Nat.le_succ _
  outside a ha := by simp only at ha ⊢; rw [memGet_memSet, if_neg (by omega)]
  stored a ha ha' := by simp only at ha' ⊢; rw [memGet_memSet, if_pos (by omega)]; rfl
  canonical := memSet_wf _ _
  room c hc _ := by simp only [outFull, hc, decide_eq_false_iff_not] at h; simp only; omega

/-- Written bits are stored byte by byte; what the context becomes behind them plays no part. -/
theorem WroteTo.appended {s u : State} {n : Nat} (h : WroteTo s u n) (c : Context) : Appended s (u.withCtx c) where
  same := by rw [h.same]; rfl
  up := h.up
  outside := h.outside
  stored := h.stored
  canonical := h.canonical
  room := h.room

/-- The context before the writing plays no part either. -/
theorem Appended.of_withCtx {s t : State} {c : Context} (h : Appended (s.withCtx c) t) : Appended s t :=
  ⟨h.same, h.up, h.outside, h.stored, h.canonical, h.room⟩

/-- The move from `s` to `t` raises a fault of the spec, with the input still that of `s` (R277). -/
def Fails (s t : State) : Prop := ∃ f pos u, SameInput s u ∧ t = faultEntry f pos u

theorem Fails.phase {s t : State} (h : Fails s t) : t.phase = .fault := by
  obtain ⟨f, pos, u, -, rfl⟩ := h
  rfl

theorem Fails.sameInput {s t : State} (h : Fails s t) : SameInput s t := by
  obtain ⟨f, pos, u, hu, rfl⟩ := h
  exact hu

theorem SameInput.refl (s : State) : SameInput s s := ⟨rfl, rfl, rfl, rfl, rfl⟩

theorem Fails.raised (f : FaultKind) (pos : Nat) (s : State) : Fails s (faultEntry f pos s) :=
  ⟨f, pos, s, .refl s, rfl⟩

theorem Appended.sameInput {s t : State} (h : Appended s t) : SameInput s t := by
  rw [h.same]
  exact .refl s

/-! ### Operations as moves -/

/-- A move that writes bits and then updates the state, or overflows (R121, R75). -/
theorem writeBits_move {bs : Bits} {s t : State} {f : State → State}
    (h : ((writeBits bs s).bind fun _ u => Res.ok () (f u)).toOutcome = .next t) :
    (∃ u, WroteTo s u bs.length ∧ t = f u) ∨ Fails s t := by
  rcases writeBits_cases bs s with ⟨u, hu⟩ | ⟨u, n, hu, -, v, hr⟩
  · rw [hu] at h
    cases h
    exact .inl ⟨u, writeBits_wrote hu, rfl⟩
  · rw [hr] at h
    cases h
    exact .inr ⟨.outOverflow, 0, takeBit v u, (hu.appended u.ctx).sameInput, rfl⟩

/-- A move that reads a node's token passes the two limits first, or fails (R193). -/
theorem enterNode_move {s t : State} {f : State → Res Unit}
    (h : ((enterNode s).bind fun _ u => f u).toOutcome = .next t) :
    (readDepth s ≤ s.params.depthMax ∧ s.ctx.nNodes < s.params.nodeCap ∧
      (f (s.withCtx { s.ctx with nNodes := s.ctx.nNodes + 1 })).toOutcome = .next t) ∨ Fails s t := by
  rcases enterNode_cases s with ⟨-, he⟩ | ⟨-, -, he⟩ | ⟨hd, hc, he⟩ <;> rw [he] at h
  · cases h; exact .inr (.raised ..)
  · cases h; exact .inr (.raised ..)
  · exact .inl ⟨hd, hc, h⟩

/-- In `PH_E_TREE` the token of a node is written as its bits, and they are counted (R190). -/
theorem exec_tokenOf_move {n : Node} {s t : State} (h : exec (tokenOf n) s = .next t) (hp : s.phase = .eTree) :
    (∃ u, WroteTo s u (tokenBits (tokenOf n)).length ∧ t = addCount (tokenBits (tokenOf n)).length u) ∨
    Fails s t := by
  cases n with
  | leaf v e =>
    simp only [exec, tokenOf, execTreeLeaf, hp, writeLeaf_eq] at h
    exact writeBits_move h
  | internal l r =>
    simp only [exec, tokenOf, execTreeInternal, hp, writeInternal_eq] at h
    exact writeBits_move h

/-- `finish` stores the partial byte if there is one, or overflows doing so (R124). -/
theorem finish_cases (s : State) :
    (∃ u, finish s = .ok () u ∧ Appended s u ∧ u.ctx = { s.ctx with wAcc := u.ctx.wAcc, wN := u.ctx.wN }) ∨
    finish s = .raised (faultEntry .outOverflow 0 s) := by
  unfold finish
  split
  · rcases emit_cases (s.ctx.wAcc <<< (8 - s.ctx.wN)) s with ⟨-, he⟩ | ⟨ho, he⟩ <;> rw [he]
    · exact .inr rfl
    · exact .inl ⟨_, rfl, .store ho _ _, rfl⟩
  · exact .inl ⟨s, rfl, .withCtx s s.ctx, rfl⟩

/-! ### The moves of ENCODE -/

/-- `PH_E_FREQ` counts the next input byte, or adds the EOB row and goes on (R150, R152). -/
theorem analyzeStep_next {s t : State} (h : analyzeStep s = .next t) :
    (s.ctx.eIdx < s.inLen ∧ t = s.withCtx { s.ctx with
      ft := countByte (inByte s s.ctx.eIdx) s.ctx.ft, eIdx := s.ctx.eIdx + 1 }) ∨
    (s.inLen ≤ s.ctx.eIdx ∧ t = (s.withCtx { s.ctx with ft := s.ctx.ft ++ [eobRow] }).withPhase .eBuild) := by
  unfold analyzeStep at h
  split at h <;> cases h
  · exact .inl ⟨‹_›, rfl⟩
  · exact .inr ⟨Nat.not_lt.1 ‹_›, rfl⟩

/-- `PH_E_BUILD` makes the working list, merges once, or takes the root and goes on (R160, R162, R163). -/
theorem buildStep_next {s t : State} (h : buildStep s = .next t) :
    (s.ctx.wl = [] ∧ s.ctx.ft ≠ [] ∧ t = s.withCtx { s.ctx with wl := initWL s.ctx.ft }) ∨
    (2 ≤ s.ctx.wl.length ∧ t = s.withCtx { s.ctx with wl := mergeStep s.ctx.wl }) ∨
    (∃ e, s.ctx.wl = [e] ∧ t = (s.withCtx { s.ctx with root := e.node }).withPhase .eCodes) := by
  unfold buildStep at h
  split at h
  · next hwl =>
    split at h <;> cases h
    next hft => exact .inl ⟨hwl, by simp [hft], by rw [hft]⟩
  · next e hwl => cases h; exact .inr (.inr ⟨e, hwl, rfl⟩)
  · next hwl => cases h; exact .inr (.inl ⟨by simp [hwl], by rw [hwl]⟩)

/-- `PH_E_TREE` writes the token of the next node and puts its children next in line, or begins the data pass
(R190, R212). -/
theorem writeTreeStep_next {s t : State} (hp : s.phase = .eTree) (h : writeTreeStep s = .next t) :
    (s.ctx.pending = [] ∧ t = beginData s) ∨
    (∃ n rest u, s.ctx.pending = n :: rest ∧
      WroteTo (s.withCtx { s.ctx with pending := childrenOf n ++ rest }) u (tokenBits (tokenOf n)).length ∧
      t = addCount (tokenBits (tokenOf n)).length u) ∨ Fails s t := by
  unfold writeTreeStep at h
  split at h
  · cases h; exact .inl ⟨‹_›, rfl⟩
  · next n rest hpend =>
    rcases exec_tokenOf_move h hp with ⟨u, hu, ht⟩ | hf
    · exact .inr (.inl ⟨n, rest, u, hpend, hu, ht⟩)
    · exact .inr (.inr hf)

/-- `PH_E_DATA` writes the code of the next input byte, or goes on (R212). -/
theorem dataStep_next {s t : State} (h : dataStep s = .next t) :
    (s.ctx.eIdx < s.inLen ∧ ∃ code u, codeOf s.ctx.ct (inByte s s.ctx.eIdx) = some code ∧
      WroteTo s u code.length ∧ t = u.withCtx { u.ctx with eIdx := u.ctx.eIdx + 1 }) ∨
    (s.inLen ≤ s.ctx.eIdx ∧ t = s.withPhase .eEob) ∨ Fails s t := by
  unfold dataStep at h
  split at h
  · split at h
    · cases h
    · next hlt _ code hcode =>
      rcases writeBits_move h with ⟨u, hu, ht⟩ | hf
      · exact .inl ⟨hlt, code, u, hcode, hu, ht⟩
      · exact .inr (.inr hf)
  · cases h; exact .inr (.inl ⟨Nat.not_lt.1 ‹_›, rfl⟩)

/-- `PH_E_EOB` writes the EOB code and goes on (R98, R212). -/
theorem eobStep_next {s t : State} (h : eobStep s = .next t) :
    (∃ code u, s.ctx.eobCode = some code ∧ WroteTo s u code.length ∧ t = u.withPhase .eFinish) ∨ Fails s t := by
  unfold eobStep at h
  split at h
  · cases h
  · next code hcode =>
    rcases writeBits_move h with ⟨u, hu, ht⟩ | hf
    · exact .inl ⟨code, u, hcode, hu, ht⟩
    · exact .inr hf

/-- `PH_E_FINISH` stores the partial byte and completes ENCODE (R212 to R214). -/
theorem finishStep_next {s t : State} (h : finishStep s = .next t) :
    (∃ u, Appended s u ∧ u.ctx = { s.ctx with wAcc := u.ctx.wAcc, wN := u.ctx.wN } ∧
      t = complete (encodeAccounting u)) ∨ Fails s t := by
  unfold finishStep at h
  rcases finish_cases s with ⟨u, hu, ha, hc⟩ | hr
  · rw [hu] at h; cases h; exact .inl ⟨u, ha, hc, rfl⟩
  · rw [hr] at h; cases h; exact .inr (.raised ..)

/-! ### The moves of DECODE -/

/-- `PH_D_TREE` reads one token that stands in the input whole, within the limits (R192, R193). -/
theorem readTreeStep_next {s t : State} (hp : s.phase = .dTree) (h : readTreeStep s = .next t) :
    (readDepth s ≤ s.params.depthMax ∧ s.ctx.nNodes < s.params.nodeCap ∧
      ((s.ctx.rPos + 1 ≤ 8 * s.inLen ∧ t = s.withCtx { s.ctx with
          nNodes := s.ctx.nNodes + 1, rPos := s.ctx.rPos + 1, readStack := .awaitLeft :: s.ctx.readStack }) ∨
       (s.ctx.rPos + 10 ≤ 8 * s.inLen ∧ ∃ e v, t = finishNode (.leaf v e) (s.withCtx { s.ctx with
          nNodes := s.ctx.nNodes + 1, rPos := s.ctx.rPos + 10, hasEob := s.ctx.hasEob || e })))) ∨
    Fails s t := by
  unfold readTreeStep at h
  split at h
  · next i hpeek =>
    rcases peekToken_cases hpeek with ⟨rfl, hpos⟩ | ⟨e, v, rfl, hpos⟩
    · simp only [exec, execTreeInternal, hp] at h
      rcases enterNode_move h with ⟨hd, hc, ht⟩ | hf
      · cases ht; exact .inl ⟨hd, hc, .inl ⟨hpos, rfl⟩⟩
      · exact .inr hf
    · simp only [exec, execTreeLeaf, hp] at h
      rcases enterNode_move h with ⟨hd, hc, ht⟩ | hf
      · cases ht; exact .inl ⟨hd, hc, .inr ⟨hpos, e, v, rfl⟩⟩
      · exact .inr hf
  · rcases enterNode_move h with ⟨-, -, ht⟩ | hf
    · cases ht; exact .inr ⟨_, _, _, .refl s, rfl⟩
    · exact .inr hf

/-- `PH_D_CHECK` goes on to the walk from the root where there is an EOB leaf (R194, R233). -/
theorem checkEobStep_next {s t : State} (h : checkEobStep s = .next t) :
    (s.ctx.hasEob = true ∧ t = (s.withCtx { s.ctx with cur := s.ctx.root }).withPhase .dWalk) ∨ Fails s t := by
  unfold checkEobStep at h
  split at h <;> cases h
  · exact .inl ⟨‹_›, rfl⟩
  · exact .inr (.raised ..)

/-- `PH_D_WALK` reads one bit; it completes DECODE at an EOB leaf, else it stands on some node, with a byte stored in
`OUT` or none (R233, R235). -/
theorem walkStep_next {s t : State} (h : walkStep s = .next t) :
    (s.ctx.rPos < 8 * s.inLen ∧
      (t = complete (decodeAccounting (s.withCtx { s.ctx with rPos := s.ctx.rPos + 1 })) ∨
       (Appended s t ∧ ∃ n, t.ctx = { s.ctx with rPos := s.ctx.rPos + 1, cur := n }))) ∨ Fails s t := by
  unfold walkStep at h
  rcases readBit_cases s with ⟨hpos, hr⟩ | ⟨-, hr⟩ <;> rw [hr] at h
  · simp only [Res.bind_ok, arrive] at h
    split at h
    · next v e _ =>
      split at h
      · cases h; exact .inl ⟨hpos, .inl rfl⟩
      · rcases emit_cases v (s.withCtx { s.ctx with rPos := s.ctx.rPos + 1 }) with ⟨-, he⟩ | ⟨ho, he⟩ <;>
          rw [he] at h <;> cases h
        · exact .inr ⟨_, _, _, .refl s, rfl⟩
        · exact .inl ⟨hpos, .inr ⟨.store (s := s) ho v _, _, rfl⟩⟩
    · cases h; exact .inl ⟨hpos, .inr ⟨.withCtx s _, _, rfl⟩⟩
  · cases h; exact .inr (.raised ..)

end Sys2Proof.Machine
end

section
/-! PROOF. O54 and O55: every move of ENGINE is of one of four kinds, and follows the phase graph (R43). -/

namespace Sys2Proof.Machine

/-- The kinds of ENGINE's moves: none outside a command; a fault; a move inside a command, which changes `OUT` upward,
the context, `PHASE` and `TREE_BITS`; a completion. -/
inductive EngineMove (s : State) : State → Prop where
  | rest (hs : s.busy = false) : EngineMove s s
  | fault {t : State} (hs : s.busy = true) (hnext : .fault ∈ s.phase.next) (hf : Fails s t) : EngineMove s t
  | go {u : State} (p : Phase) (n : Nat) (hs : s.busy = true) (hp : p.busy = true) (hnext : p ∈ s.phase.next)
      (hu : Appended s u) : EngineMove s { u with phase := p, treeBits := n }
  | complete {u : State} (m n k : Nat) (hs : s.busy = true) (hnext : .done ∈ s.phase.next) (hu : Appended s u) :
      EngineMove s (complete { u with treeBits := m, dataBits := n, totalBits := k })

/-- A move inside a command that leaves `TREE_BITS` alone. -/
theorem EngineMove.advance {s u : State} (p : Phase) (hs : s.busy = true) (hp : p.busy = true)
    (hnext : p ∈ s.phase.next) (hu : Appended s u) : EngineMove s (u.withPhase p) :=
  .go p u.treeBits hs hp hnext hu

/-- A move that stays in its phase and leaves `TREE_BITS` alone. -/
theorem EngineMove.stay {s u : State} (hs : s.busy = true) (hnext : s.phase ∈ s.phase.next) (hu : Appended s u) :
    EngineMove s u := by
  have h := EngineMove.advance s.phase hs hs hnext hu
  have hphase : u.phase = s.phase := by rw [hu.same]
  rwa [← hphase] at h

/-- A finished node is returned within `PH_D_TREE`, or the tree is complete (R192, R232). -/
theorem finishNode_move (n : Node) {s : State} (c : Context) (hp : s.phase = .dTree) :
    EngineMove s (finishNode n (s.withCtx c)) := by
  have hs : s.busy = true := by simp [State.busy, hp, Phase.busy]
  rcases finishNode_cases n (s.withCtx c) with ⟨gs, -, -, he⟩ | ⟨root, he⟩ <;> rw [he]
  · exact .stay hs (by simp [hp, Phase.next]) (.withCtx s _)
  · exact .go (u := s.withCtx _) .dCheck _ hs rfl (by simp [hp, Phase.next]) (.withCtx s _)

/-- What a move of ENGINE can do, in every phase (R43). -/
theorem engineStep_move {s t : State} (h : engineStep s = .next t) : EngineMove s t := by
  unfold engineStep at h
  cases hp : s.phase <;> simp only [hp] at h
  case idle | done | fault =>
    cases h
    exact .rest (by simp [State.busy, hp, Phase.busy])
  all_goals
    have hs : s.busy = true := by simp [State.busy, hp, Phase.busy]
  case eFreq =>
    rcases analyzeStep_next h with ⟨-, rfl⟩ | ⟨-, rfl⟩
    · exact .stay hs (by simp [hp, Phase.next]) (.withCtx s _)
    · exact .advance _ hs rfl (by simp [hp, Phase.next]) (.withCtx s _)
  case eBuild =>
    rcases buildStep_next h with ⟨-, -, rfl⟩ | ⟨-, rfl⟩ | ⟨e, -, rfl⟩
    · exact .stay hs (by simp [hp, Phase.next]) (.withCtx s _)
    · exact .stay hs (by simp [hp, Phase.next]) (.withCtx s _)
    · exact .advance _ hs rfl (by simp [hp, Phase.next]) (.withCtx s _)
  case eCodes =>
    cases h
    exact .advance _ hs rfl (by simp [hp, Phase.next]) (.withCtx s _)
  case eTree =>
    rcases writeTreeStep_next hp h with ⟨-, rfl⟩ | ⟨n, rest, u, -, hu, rfl⟩ | hf
    · exact .advance _ hs rfl (by simp [hp, Phase.next]) (.withCtx s _)
    · exact .stay hs (by simp [hp, Phase.next]) (hu.appended _).of_withCtx
    · exact .fault hs (by simp [hp, Phase.next]) hf
  case eData =>
    rcases dataStep_next h with ⟨-, code, u, -, hu, rfl⟩ | ⟨-, rfl⟩ | hf
    · exact .stay hs (by simp [hp, Phase.next]) (hu.appended _)
    · exact .advance _ hs rfl (by simp [hp, Phase.next]) (.withCtx s s.ctx)
    · exact .fault hs (by simp [hp, Phase.next]) hf
  case eEob =>
    rcases eobStep_next h with ⟨code, u, -, hu, rfl⟩ | hf
    · exact .advance _ hs rfl (by simp [hp, Phase.next]) (hu.appended u.ctx)
    · exact .fault hs (by simp [hp, Phase.next]) hf
  case eFinish =>
    rcases finishStep_next h with ⟨u, hu, -, rfl⟩ | hf
    · exact .complete _ _ _ hs (by simp [hp, Phase.next]) hu
    · exact .fault hs (by simp [hp, Phase.next]) hf
  case dTree =>
    rcases readTreeStep_next hp h with ⟨-, -, ⟨-, rfl⟩ | ⟨-, e, v, rfl⟩⟩ | hf
    · exact .stay hs (by simp [hp, Phase.next]) (.withCtx s _)
    · exact finishNode_move _ _ hp
    · exact .fault hs (by simp [hp, Phase.next]) hf
  case dCheck =>
    rcases checkEobStep_next h with ⟨-, rfl⟩ | hf
    · exact .advance _ hs rfl (by simp [hp, Phase.next]) (.withCtx s _)
    · exact .fault hs (by simp [hp, Phase.next]) hf
  case dWalk =>
    rcases walkStep_next h with ⟨-, rfl | ⟨hu, -⟩⟩ | hf
    · exact .complete (u := s.withCtx _) _ _ _ hs (by simp [hp, Phase.next]) (.withCtx s _)
    · exact .stay hs (by simp [hp, Phase.next]) hu
    · exact .fault hs (by simp [hp, Phase.next]) hf

/-- Outside a command ENGINE stays where it is, which the phase graph allows. -/
theorem Phase.self_mem_next : ∀ {p : Phase}, p.busy = false → p ∈ p.next
  | .idle, _ | .done, _ | .fault, _ => List.mem_singleton_self _

theorem EngineMove.phase_mem_next {s t : State} (h : EngineMove s t) : t.phase ∈ s.phase.next := by
  cases h with
  | rest hs => exact Phase.self_mem_next hs
  | fault _ hnext hf => rwa [hf.phase]
  | go p n _ _ hnext _ => exact hnext
  | complete m n k _ hnext _ => exact hnext

/-- Settles O54: each kind of move goes along an edge of the graph. -/
theorem phaseGraphIsFollowed : Obligations.PhaseGraphIsFollowed :=
  fun _ _ h => (engineStep_move h).phase_mem_next

theorem EngineMove.sameInput {s t : State} (h : EngineMove s t) : SameInput s t := by
  cases h with
  | rest _ => exact .refl s
  | fault _ _ hf => exact hf.sameInput
  | go p n _ _ _ hu => exact hu.sameInput
  | complete m n k _ _ hu => exact hu.sameInput

/-- Unless the move raises a fault, `OUT` is stored to upward only (R32). -/
theorem EngineMove.stores_upward {s t : State} (h : EngineMove s t) (ht : t.phase ≠ .fault) :
    s.outN ≤ t.outN ∧ ∀ a, a < s.outN ∨ t.outN ≤ a → memGet t.outMem a = memGet s.outMem a := by
  cases h with
  | rest _ => exact ⟨le_refl _, fun _ _ => rfl⟩
  | fault _ _ hf => exact absurd hf.phase ht
  | go p n _ _ _ hu => exact ⟨hu.up, hu.outside⟩
  | complete m n k _ _ hu => exact ⟨hu.up, hu.outside⟩

/-- Inside a command the registers it writes at its ends only are untouched (R24, R26, R30). -/
theorem EngineMove.registers_kept {s t : State} (h : EngineMove s t) (ht : t.busy = true) :
    t.err = s.err ∧ t.errPos = s.errPos ∧ t.outLen = s.outLen ∧ t.era = s.era := by
  cases h with
  | rest _ => exact ⟨rfl, rfl, rfl, rfl⟩
  | fault _ _ hf => simp [State.busy, hf.phase, Phase.busy] at ht
  | go p n _ _ _ hu => rw [hu.same]; exact ⟨rfl, rfl, rfl, rfl⟩
  | complete m n k _ _ _ => cases ht

/-- Settles O55: each kind of move keeps the input, and stores upward or raises a fault. -/
theorem engineFrame : Obligations.EngineFrame := fun _ _ h =>
  have hm := engineStep_move h
  ⟨hm.sameInput, hm.stores_upward, hm.registers_kept⟩

end Sys2Proof.Machine
end

section
/-! PROOF. O58: every step keeps the invariant. The invariant has two parts. What HOST can see, the port, is kept by
each of the four kinds of ENGINE's moves alike. What one command works with is said phase by phase, and kept by the
move of each phase. -/

namespace Sys2Proof.Machine

theorem Phase.ne_of_busy {p q : Phase} (hp : p.busy = true) (hq : q.busy = false) : p ≠ q :=
  fun h => by rw [h, hq] at hp; cases hp

/-! ### The invariant in two parts -/

/-- The invariants of what HOST sees: the memories, the registers, and the extent of `OUT`. -/
def PortInv (s : State) : Prop := MemInv s ∧ RegInv s ∧ OutInv s

/-- The stacks of `readNode` and `writeTree` are empty (R198). -/
def StacksEmpty (c : Context) : Prop := c.readStack = [] ∧ c.pending = []

/-- The writer's registers in range (R39, R125). -/
def WriterRegs (s : State) : Prop :=
  s.ctx.wN < 8 ∧ s.ctx.wAcc.toNat < 2 ^ s.ctx.wN ∧ s.ctx.wTotal = 8 * s.outN + s.ctx.wN

/-- The invariants of a command's own registers, phase by phase. -/
def PhaseInv (s : State) : Prop :=
  match s.phase with
  | .idle | .fault => StacksEmpty s.ctx
  | .eFreq => WriterRegs s ∧ s.ctx.wTotal = 0 ∧ s.ctx.eIdx ≤ s.inLen ∧ StacksEmpty s.ctx
  | .eBuild | .eCodes => WriterRegs s ∧ s.ctx.wTotal = 0 ∧ StacksEmpty s.ctx
  | .eTree => WriterRegs s ∧ s.ctx.treeCount = s.ctx.wTotal ∧ s.ctx.readStack = []
  | .eData => WriterRegs s ∧ s.ctx.treeCount ≤ s.ctx.wTotal ∧ s.ctx.eIdx ≤ s.inLen ∧ StacksEmpty s.ctx
  | .eEob | .eFinish => WriterRegs s ∧ s.ctx.treeCount ≤ s.ctx.wTotal ∧ StacksEmpty s.ctx
  | .dTree => s.ctx.rPos ≤ 8 * s.inLen ∧ s.ctx.nNodes ≤ s.params.nodeCap ∧
      s.ctx.readStack.length ≤ s.params.depthMax ∧ s.ctx.pending = []
  | .dCheck => s.ctx.rPos ≤ 8 * s.inLen ∧ s.treeBits = s.ctx.rPos ∧ StacksEmpty s.ctx
  | .dWalk => s.ctx.rPos ≤ 8 * s.inLen ∧ s.treeBits ≤ s.ctx.rPos ∧ StacksEmpty s.ctx
  | .done => s.totalBits = s.treeBits + s.dataBits ∧ StacksEmpty s.ctx

theorem phaseInv_iff (s : State) : PhaseInv s ↔ WriterInv s ∧ ReaderInv s ∧ CountInv s ∧ StackInv s := by
  cases hp : s.phase <;>
    simp [PhaseInv, WriterInv, ReaderInv, CountInv, StackInv, WriterRegs, StacksEmpty, hp, Phase.encoding,
      Phase.decoding, and_assoc]

theorem inv_iff (s : State) : Inv s ↔ PortInv s ∧ PhaseInv s := by
  rw [phaseInv_iff]
  unfold Inv PortInv
  tauto

/-- Outside a command no operation is in progress (R198). -/
theorem PhaseInv.stacksEmpty {s : State} (h : PhaseInv s) (hb : s.busy = false) : StacksEmpty s.ctx := by
  obtain ⟨-, -, -, hread, hpend⟩ := (phaseInv_iff s).1 h
  exact ⟨hread (Phase.ne_of_busy rfl hb).symm, hpend (Phase.ne_of_busy rfl hb).symm⟩

/-- The registers of a state that is not in ERROR (R24, R30). -/
theorem RegInv.of_no_error {s : State} (hlen : s.inLen < 2 ^ s.params.lenW) (herr : s.err = 0) (hpos : s.errPos = 0)
    (hfault : s.phase ≠ .fault) (hout : s.phase ≠ .done → s.outLen = 0) : RegInv s := by
  have hmem : (0 : BitVec 8) ∈ errValues := by decide
  exact ⟨hlen, herr ▸ hmem, fun _ => ⟨herr, hpos⟩, fun h => absurd h hfault, fun _ => hpos, hout⟩

/-- `OUT` in IDLE and in ERROR (R302, R277). -/
theorem OutInv.of_empty {s : State} (hb : s.busy = false) (hdone : s.phase ≠ .done) (hout : s.outMem = []) :
    OutInv s := by
  have hnb : s.busy ≠ true := by simp [hb]
  exact ⟨fun h => absurd h hnb, fun h => absurd h hdone, fun _ => hout,
    fun _ _ => ⟨fun h => absurd h hnb, fun h => absurd h hdone⟩⟩

/-- `OUT` while a command runs (R32, R75). -/
theorem OutInv.of_busy {s : State} (hb : s.busy = true) (hlist : ∀ a, (memGet s.outMem a).isSome = decide (a < s.outN))
    (hcap : ∀ c, s.params.outCap = some c → s.outN ≤ c) : OutInv s := by
  have hdone : s.phase ≠ .done := Phase.ne_of_busy hb rfl
  refine ⟨fun _ => hlist, fun h => absurd h hdone, ?_, fun c hc => ⟨fun _ => hcap c hc, fun h => absurd h hdone⟩⟩
  rintro (h | h)
  · exact absurd h (Phase.ne_of_busy hb rfl)
  · exact absurd h (Phase.ne_of_busy hb rfl)

/-- `OUT` when DONE (R256, R75). -/
theorem OutInv.of_done {s : State} (hp : s.phase = .done)
    (hlist : ∀ a, (memGet s.outMem a).isSome = decide (a < s.outLen))
    (hcap : ∀ c, s.params.outCap = some c → s.outLen ≤ c) : OutInv s := by
  have hnb : s.busy ≠ true := by simp [State.busy, hp, Phase.busy]
  exact ⟨fun h => absurd h hnb, fun _ => hlist, by simp [hp],
    fun c hc => ⟨fun h => absurd h hnb, fun _ => hcap c hc⟩⟩

/-! ### Faults, and starts of commands -/

theorem FaultKind.err_mem (f : FaultKind) : f.err ∈ errValues ∧ f.err ≠ 0 := by
  cases f <;> decide

theorem FaultKind.recordsPos_of_err {f : FaultKind} (h : f.err = 0x03 ∨ f.err = 0x04) : f.recordsPos = false := by
  cases f <;> revert h <;> decide

/-- A fault may be taken anywhere: it needs nothing but the input (R277). -/
theorem faultEntry_inv (f : FaultKind) (pos : Nat) {s : State} (hmem : Memory.wf s.inMem = true)
    (hlen : s.inLen < 2 ^ s.params.lenW) : Inv (faultEntry f pos s) := by
  obtain ⟨herr, hne⟩ := f.err_mem
  have hpos : f.err = 0x03 ∨ f.err = 0x04 → (faultEntry f pos s).errPos = 0 := fun h => by
    rw [faultEntry_errPos, FaultKind.recordsPos_of_err h]
    rfl
  have hreg : RegInv (faultEntry f pos s) := ⟨hlen, herr, fun h => absurd rfl h, fun _ => hne, hpos, fun _ => rfl⟩
  exact (inv_iff _).2 ⟨⟨⟨hmem, rfl⟩, hreg, .of_empty rfl nofun rfl⟩, rfl, rfl⟩

theorem Fails.inv {s t : State} (h : Fails s t) (hs : PortInv s) : Inv t := by
  obtain ⟨f, pos, u, ⟨hmem, hlen, hparams, -, -⟩, rfl⟩ := h
  obtain ⟨⟨hin, -⟩, ⟨hw, -⟩, -⟩ := hs
  exact faultEntry_inv f pos (hmem ▸ hin) (by rw [hlen, hparams]; exact hw)

/-- The start of a command clears what HOST sees of the last one (R211, R231, R308). -/
theorem clearResults_portInv {s : State} (c : Context) {p : Phase} (hp : p.busy = true) (hs : PortInv s) :
    PortInv (((clearResults s).withCtx c).withPhase p) := by
  obtain ⟨⟨hin, -⟩, ⟨hlen, -⟩, -⟩ := hs
  exact ⟨⟨hin, rfl⟩, .of_no_error hlen rfl rfl (Phase.ne_of_busy hp rfl) fun _ => rfl,
    .of_busy hp (fun _ => by simp) fun _ _ => Nat.zero_le _⟩

theorem startEncode_inv {s : State} (hb : s.busy = false) (hs : Inv s) : Inv (startEncode s) := by
  obtain ⟨hport, hphase⟩ := (inv_iff s).1 hs
  refine (inv_iff _).2 ⟨clearResults_portInv (s := s) _ rfl hport, ?_, rfl, Nat.zero_le _, hphase.stacksEmpty hb⟩
  exact ⟨(by decide : 0 < 8), (by decide : (0 : Byte).toNat < 2 ^ 0), rfl⟩

theorem startDecode_inv {s : State} (hb : s.busy = false) (hs : Inv s) : Inv (startDecode s) := by
  obtain ⟨hport, hphase⟩ := (inv_iff s).1 hs
  obtain ⟨-, hpend⟩ := hphase.stacksEmpty hb
  exact (inv_iff _).2 ⟨clearResults_portInv (s := s) _ rfl hport, Nat.zero_le _, Nat.zero_le _, Nat.zero_le _, hpend⟩

theorem startBad_inv {s : State} (hs : Inv s) : Inv (startBad s) := by
  obtain ⟨⟨hin, -⟩, ⟨hlen, -⟩, -⟩ := hs
  exact faultEntry_inv .badCommand 0 (s := clearResults s) hin hlen

/-- A command keeps the invariant (R250). -/
theorem exec_decodeCtrl_inv {w : Byte} {s t : State} (h : exec (decodeCtrl w) s = .next t) (hs : Inv s) : Inv t := by
  rcases decodeCtrl_cases w with hw | hw | hw | hw <;>
    simp only [hw, exec, execNop, execEncode, execDecode, execReserved] at h
  · cases h; exact hs
  · split at h <;> cases h
    · exact hs
    · exact startEncode_inv (Bool.eq_false_of_not_eq_true ‹_›) hs
  · split at h <;> cases h
    · exact hs
    · exact startDecode_inv (Bool.eq_false_of_not_eq_true ‹_›) hs
  · split at h <;> cases h
    · exact hs
    · exact startBad_inv hs

/-! ### ENGINE and the port -/

/-- What HOST sees while a command runs: `OUT` lists the bytes below `OUT_N`, and no result is announced. -/
theorem PortInv.appended {s u : State} (hs : PortInv s) (hb : s.busy = true) (hu : Appended s u) :
    MemInv u ∧ u.inLen < 2 ^ u.params.lenW ∧ u.err = 0 ∧ u.errPos = 0 ∧ u.outLen = 0 ∧
      (∀ a, (memGet u.outMem a).isSome = decide (a < u.outN)) ∧ ∀ c, u.params.outCap = some c → u.outN ≤ c := by
  obtain ⟨⟨hin, hout⟩, ⟨hlen, -, herr, -, -, houtLen⟩, hlist, -, -, hcap⟩ := hs
  have hdone : s.phase ≠ .done := Phase.ne_of_busy hb rfl
  have hfault : s.phase ≠ .fault := Phase.ne_of_busy hb rfl
  have hlisted : ∀ a, (memGet u.outMem a).isSome = decide (a < u.outN) := by
    intro a
    have hup := hu.up
    by_cases ha : s.outN ≤ a ∧ a < u.outN
    · simpa [ha.2] using hu.stored a ha.1 ha.2
    · rw [hu.outside a (by omega), hlist hb]
      exact decide_eq_decide.2 (by omega)
  have hcap' : ∀ c, s.params.outCap = some c → u.outN ≤ c := fun c hc => hu.room c hc ((hcap c hc).1 hb)
  have hwf := hu.canonical hout
  obtain ⟨he, hpos⟩ := herr hfault
  rw [hu.same] at hlisted hcap' hwf ⊢
  exact ⟨⟨hin, hwf⟩, hlen, he, hpos, houtLen hdone, hlisted, hcap'⟩

/-- Every kind of move keeps what HOST sees in order. -/
theorem EngineMove.portInv {s t : State} (h : EngineMove s t) (hs : PortInv s) : PortInv t := by
  cases h with
  | rest _ => exact hs
  | fault _ _ hf => exact ((inv_iff t).1 (hf.inv hs)).1
  | go p n hb hp _ hu =>
    obtain ⟨hmem, hlen, herr, hpos, houtLen, hlist, hcap⟩ := hs.appended hb hu
    exact ⟨hmem, .of_no_error hlen herr hpos (Phase.ne_of_busy hp rfl) fun _ => houtLen, .of_busy hp hlist hcap⟩
  | complete m n k hb _ hu =>
    obtain ⟨hmem, hlen, herr, hpos, -, hlist, hcap⟩ := hs.appended hb hu
    exact ⟨hmem, .of_no_error hlen herr hpos nofun fun h => absurd rfl h, .of_done rfl hlist hcap⟩

/-! ### ENGINE and a command's own registers -/

theorem Fails.phaseInv {s t : State} (h : Fails s t) : PhaseInv t := by
  obtain ⟨f, pos, u, -, rfl⟩ := h
  exact ⟨rfl, rfl⟩

/-- Writing keeps the writer's registers in range (R125). -/
theorem WroteTo.writerRegs {s u : State} {n : Nat} (h : WroteTo s u n) (hs : WriterRegs s) : WriterRegs u := by
  obtain ⟨hn, hacc, htotal⟩ := hs
  obtain ⟨hn', hplace⟩ := h.place hn
  exact ⟨hn', h.acc hn hacc, by have := h.total; omega⟩

/-- Writing touches none of the context's registers but the writer's. -/
theorem WroteTo.ctx_frame {s u : State} {n : Nat} (h : WroteTo s u n) :
    u.ctx.treeCount = s.ctx.treeCount ∧ u.ctx.eIdx = s.ctx.eIdx ∧ u.ctx.readStack = s.ctx.readStack ∧
      u.ctx.pending = s.ctx.pending := by
  rw [h.same]
  exact ⟨rfl, rfl, rfl, rfl⟩

theorem WroteTo.phase_eq {s u : State} {n : Nat} (h : WroteTo s u n) : u.phase = s.phase := by rw [h.same]

theorem WroteTo.inLen_eq {s u : State} {n : Nat} (h : WroteTo s u n) : u.inLen = s.inLen := by rw [h.same]

section
variable {s t : State}

theorem analyzeStep_phaseInv (hp : s.phase = .eFreq) (hs : PhaseInv s) (h : analyzeStep s = .next t) : PhaseInv t := by
  simp only [PhaseInv, hp] at hs
  obtain ⟨hw, h0, -, hst⟩ := hs
  rcases analyzeStep_next h with ⟨hlt, rfl⟩ | ⟨-, rfl⟩
  · simp only [PhaseInv, State.withCtx_phase, hp]
    exact ⟨hw, h0, hlt, hst⟩
  · exact ⟨hw, h0, hst⟩

theorem buildStep_phaseInv (hp : s.phase = .eBuild) (hs : PhaseInv s) (h : buildStep s = .next t) : PhaseInv t := by
  simp only [PhaseInv, hp] at hs
  rcases buildStep_next h with ⟨-, -, rfl⟩ | ⟨-, rfl⟩ | ⟨e, -, rfl⟩
  · simp only [PhaseInv, State.withCtx_phase, hp]; exact hs
  · simp only [PhaseInv, State.withCtx_phase, hp]; exact hs
  · exact hs

theorem generateStep_phaseInv (hp : s.phase = .eCodes) (hs : PhaseInv s) (h : generateStep s = .next t) :
    PhaseInv t := by
  simp only [PhaseInv, hp] at hs
  obtain ⟨hw, h0, hread, -⟩ := hs
  cases h
  exact ⟨hw, h0.symm, hread⟩

theorem writeTreeStep_phaseInv (hp : s.phase = .eTree) (hs : PhaseInv s) (h : writeTreeStep s = .next t) :
    PhaseInv t := by
  simp only [PhaseInv, hp] at hs
  obtain ⟨hw, hcount, hread⟩ := hs
  rcases writeTreeStep_next hp h with ⟨hpend, rfl⟩ | ⟨n, rest, u, -, hu, rfl⟩ | hf
  · exact ⟨hw, hcount.le, Nat.zero_le _, hread, hpend⟩
  · obtain ⟨hcount', -, hread', -⟩ := hu.ctx_frame
    simp only [PhaseInv, addCount, State.withCtx_phase, hu.phase_eq, hp]
    refine ⟨hu.writerRegs hw, ?_, hread'.trans hread⟩
    calc u.ctx.treeCount + _ = s.ctx.treeCount + _ := by rw [hcount']; rfl
      _ = s.ctx.wTotal + _ := by rw [hcount]
      _ = u.ctx.wTotal := hu.total.symm
  · exact hf.phaseInv

theorem dataStep_phaseInv (hp : s.phase = .eData) (hs : PhaseInv s) (h : dataStep s = .next t) : PhaseInv t := by
  simp only [PhaseInv, hp] at hs
  obtain ⟨hw, hcount, hidx, hst⟩ := hs
  rcases dataStep_next h with ⟨hlt, code, u, -, hu, rfl⟩ | ⟨-, rfl⟩ | hf
  · obtain ⟨hcount', hidx', hread, hpend⟩ := hu.ctx_frame
    have htotal := hu.total
    simp only [PhaseInv, State.withCtx_phase, State.withCtx_ctx, State.withCtx_inLen, StacksEmpty, hu.phase_eq,
      hu.inLen_eq, hp, hcount', hidx', hread, hpend]
    exact ⟨hu.writerRegs hw, by omega, hlt, hst⟩
  · exact ⟨hw, hcount, hst⟩
  · exact hf.phaseInv

theorem eobStep_phaseInv (hp : s.phase = .eEob) (hs : PhaseInv s) (h : eobStep s = .next t) : PhaseInv t := by
  simp only [PhaseInv, hp] at hs
  obtain ⟨hw, hcount, hst⟩ := hs
  rcases eobStep_next h with ⟨code, u, -, hu, rfl⟩ | hf
  · obtain ⟨hcount', -, hread, hpend⟩ := hu.ctx_frame
    have htotal := hu.total
    simp only [PhaseInv, State.withPhase_phase, State.withPhase_ctx, StacksEmpty, hcount', hread, hpend]
    exact ⟨hu.writerRegs hw, by omega, hst⟩
  · exact hf.phaseInv

theorem finishStep_phaseInv (hp : s.phase = .eFinish) (hs : PhaseInv s) (h : finishStep s = .next t) : PhaseInv t := by
  simp only [PhaseInv, hp] at hs
  obtain ⟨-, hcount, -⟩ := hs
  rcases finishStep_next h with ⟨u, -, hctx, rfl⟩ | hf
  · have hcount' : u.ctx.treeCount ≤ u.ctx.wTotal := by rw [hctx]; exact hcount
    exact ⟨(Nat.add_sub_of_le hcount').symm, rfl, rfl⟩
  · exact hf.phaseInv

theorem readTreeStep_phaseInv (hp : s.phase = .dTree) (hs : PhaseInv s) (h : readTreeStep s = .next t) :
    PhaseInv t := by
  simp only [PhaseInv, hp] at hs
  obtain ⟨-, -, -, hpend⟩ := hs
  rcases readTreeStep_next hp h with ⟨hdepth, hcap, ⟨hpos, rfl⟩ | ⟨hpos, e, v, rfl⟩⟩ | hf
  · simp only [PhaseInv, State.withCtx_phase, hp]
    exact ⟨hpos, hcap, hdepth, hpend⟩
  · rcases finishNode_cases (.leaf v e) (s.withCtx { s.ctx with
        nNodes := s.ctx.nNodes + 1, rPos := s.ctx.rPos + 10, hasEob := s.ctx.hasEob || e })
      with ⟨gs, -, hlen, he⟩ | ⟨root, he⟩ <;> rw [he]
    · simp only [PhaseInv, State.withCtx_phase, hp]
      exact ⟨hpos, hcap, hlen.trans (Nat.le_of_succ_le hdepth), hpend⟩
    · exact ⟨hpos, rfl, rfl, hpend⟩
  · exact hf.phaseInv

theorem checkEobStep_phaseInv (hp : s.phase = .dCheck) (hs : PhaseInv s) (h : checkEobStep s = .next t) :
    PhaseInv t := by
  simp only [PhaseInv, hp] at hs
  obtain ⟨hpos, hbits, hst⟩ := hs
  rcases checkEobStep_next h with ⟨-, rfl⟩ | hf
  · exact ⟨hpos, hbits.le, hst⟩
  · exact hf.phaseInv

theorem walkStep_phaseInv (hp : s.phase = .dWalk) (hs : PhaseInv s) (h : walkStep s = .next t) : PhaseInv t := by
  simp only [PhaseInv, hp] at hs
  obtain ⟨-, hbits, hst⟩ := hs
  rcases walkStep_next h with ⟨hpos, rfl | ⟨hu, n, hctx⟩⟩ | hf
  · exact ⟨(Nat.add_sub_of_le (Nat.le_succ_of_le hbits)).symm, rfl, rfl⟩
  · have hphase : t.phase = .dWalk := by rw [hu.same]; exact hp
    have hlen : t.inLen = s.inLen := by rw [hu.same]
    have htree : t.treeBits = s.treeBits := by rw [hu.same]
    simp only [PhaseInv, hphase, StacksEmpty, hctx, hlen, htree]
    exact ⟨hpos, Nat.le_succ_of_le hbits, hst⟩
  · exact hf.phaseInv

/-- ENGINE's move keeps a command's registers in order, in every phase. -/
theorem engineStep_phaseInv (hs : PhaseInv s) (h : engineStep s = .next t) : PhaseInv t := by
  unfold engineStep at h
  cases hp : s.phase <;> simp only [hp] at h
  case idle | done | fault => cases h; exact hs
  case eFreq => exact analyzeStep_phaseInv hp hs h
  case eBuild => exact buildStep_phaseInv hp hs h
  case eCodes => exact generateStep_phaseInv hp hs h
  case eTree => exact writeTreeStep_phaseInv hp hs h
  case eData => exact dataStep_phaseInv hp hs h
  case eEob => exact eobStep_phaseInv hp hs h
  case eFinish => exact finishStep_phaseInv hp hs h
  case dTree => exact readTreeStep_phaseInv hp hs h
  case dCheck => exact checkEobStep_phaseInv hp hs h
  case dWalk => exact walkStep_phaseInv hp hs h

theorem engineStep_inv (hs : Inv s) (h : engineStep s = .next t) : Inv t := by
  obtain ⟨hport, hphase⟩ := (inv_iff s).1 hs
  exact (inv_iff t).2 ⟨(engineStep_move h).portInv hport, engineStep_phaseInv hphase h⟩

end

/-! ### HOST -/

/-- The invariant says nothing of HOST's moves, of what a read returned, and of the free values drawn. -/
theorem inv_with_host {s : State} (ms : List HostMove) (r d : Nat) :
    Inv { s with host := ms, rdata := r, draws := d } ↔ Inv s := Iff.rfl

/-- Any canonical `IN` does. -/
theorem Inv.with_inMem {s : State} (hs : Inv s) {m : Memory} (hm : Memory.wf m = true) : Inv { s with inMem := m } := by
  obtain ⟨⟨-, hout⟩, hrest⟩ := hs
  exact ⟨⟨hm, hout⟩, hrest⟩

/-- Outside a command any `IN_LEN` within its width does (R25). -/
theorem Inv.with_inLen {s : State} (hs : Inv s) (hb : s.busy = false) {n : Nat} (hn : n < 2 ^ s.params.lenW) :
    Inv { s with inLen := n } := by
  obtain ⟨⟨hmem, ⟨-, hreg⟩, hout⟩, hphase⟩ := (inv_iff s).1 hs
  refine (inv_iff _).2 ⟨⟨hmem, ⟨hn, hreg⟩, hout⟩, ?_⟩
  cases hp : s.phase <;> simp only [State.busy, hp, Phase.busy, reduceCtorEq] at hb <;>
    simpa only [PhaseInv, hp] using hphase

theorem resetInput_inv (s : State) : Inv (resetInput s) :=
  (inv_iff _).2 ⟨⟨⟨rfl, rfl⟩, .of_no_error (Nat.two_pow_pos _) rfl rfl nofun fun _ => rfl, .of_empty rfl nofun rfl⟩,
    rfl, rfl⟩

theorem writeReg_inv {n v : Nat} {s t : State} (hs : Inv s) (h : writeReg n v s = .next t) : Inv t := by
  rcases writeReg_cases n v s with ⟨-, he⟩ | ⟨-, hb, he⟩ | ⟨-, -, he⟩ <;> rw [he] at h
  · exact exec_decodeCtrl_inv h hs
  · cases h; exact hs.with_inLen hb (Nat.mod_lt _ (Nat.two_pow_pos _))
  · cases h; exact hs

theorem writeIn_inv {a : Nat} {b : Byte} {s t : State} (hs : Inv s) (h : writeIn a b s = .next t) : Inv t := by
  unfold writeIn at h
  split at h
  · cases h
  · split at h <;> cases h
    obtain ⟨⟨hin, -⟩, -⟩ := id hs
    exact hs.with_inMem (memSet_wf a b hin)

theorem copyBackMove_inv {s t : State} (hs : Inv s) (h : copyBackMove s = .next t) : Inv t := by
  unfold copyBackMove at h
  split at h
  · cases h
  · next hb =>
    split at h <;> cases h
    next hlen =>
    obtain ⟨⟨hin, -⟩, -⟩ := id hs
    obtain ⟨hwf, -⟩ := copyBytes_memories s.outLen 0 s hin
    rw [copyBytes_same]
    exact (hs.with_inMem hwf).with_inLen (Bool.eq_false_of_not_eq_true hb) hlen

/-- A move of HOST, or ENGINE's that it gives the turn to, keeps the invariant. -/
theorem hostStep_inv {m : HostMove} {s t : State} (hs : Inv s) (h : hostStep m s = .next t) : Inv t := by
  cases m with
  | regWrite n v => exact writeReg_inv hs h
  | regRead n =>
    cases h
    rw [readReg_same]
    exact (inv_with_host s.host _ _).2 hs
  | inWrite a b => exact writeIn_inv hs h
  | inRead a =>
    simp only [hostStep, readInMove] at h
    split at h <;> cases h
    rw [readIn_same]
    exact (inv_with_host s.host _ _).2 hs
  | outRead a =>
    cases h
    rw [readOut_same]
    exact (inv_with_host s.host _ _).2 hs
  | reset => cases h; exact resetInput_inv s
  | yield => exact engineStep_inv hs h
  | wait =>
    rw [hostStep_wait] at h
    split at h
    · exact engineStep_inv ((inv_with_host _ s.rdata s.draws).2 hs) h
    · cases h; exact hs
  | copyBack => exact copyBackMove_inv hs h

/-- Settles O58: a step is ENGINE's move or HOST's, and each keeps the invariant. -/
theorem invIsKept : Obligations.InvIsKept := by
  intro s t hs h
  rcases step_cases s with ⟨-, he⟩ | ⟨m, ms, -, he⟩ <;> rw [he] at h
  · exact engineStep_inv hs h
  · exact hostStep_inv ((inv_with_host ms s.rdata s.draws).2 hs) h

end Sys2Proof.Machine
end

section
/-! PROOF. O25, O26, O56, O57: the register port, `STATUS`, HOST's reads, and the invariants at reset. -/

namespace Sys2Proof.Machine

/-- Settles O57: after reset CORE is idle, `OUT` is empty and every register 0. -/
theorem invHoldsAtReset : Obligations.InvHoldsAtReset := by
  have hport : PortInv State.reset :=
    ⟨reset_memories_wf, .of_no_error (Nat.two_pow_pos _) rfl rfl nofun fun _ => rfl, .of_empty rfl nofun rfl⟩
  have hphase : PhaseInv State.reset := ⟨rfl, rfl⟩
  refine ⟨(inv_iff _).2 ⟨hport, hphase⟩, nofun, nofun, nofun, ?_⟩
  rintro (h | h | h) <;> exact nomatch h

/-- Settles O26: the phases are finitely many, and `STATUS` depends on nothing else. -/
theorem statusOfPhase : Obligations.StatusOfPhase := by
  refine ⟨rfl, fun s => ?_⟩
  unfold State.status
  cases s.phase <;> decide

/-! ### Reads by HOST -/

/-- A step while HOST has a move waiting is that move. -/
theorem step_hostMove {s : State} {m : HostMove} {ms : List HostMove} (h : s.host = m :: ms) :
    step s = hostStep m { s with host := ms } := by
  simp [step, moveNext, h]

theorem readCounter_with_host (v : Nat) (s : State) (ms : List HostMove) :
    readCounter v { s with host := ms } = ((readCounter v s).1, { (readCounter v s).2 with host := ms }) := by
  unfold readCounter
  split <;> rfl

/-- HOST's moves that are still to come play no part in a read of a register. -/
theorem readReg_with_host (n : Nat) (s : State) (ms : List HostMove) :
    readReg n { s with host := ms } = ((readReg n s).1, { (readReg n s).2 with host := ms }) :=
  match n with
  | 0 | 1 | 2 | 3 | 4 | 8 => rfl
  | 5 | 6 | 7 => readCounter_with_host _ s ms
  | _ + 9 => rfl

/-- A delivered read changes nothing of CORE when the read drew at most a free value. -/
theorem deliver_same {v : Nat} {s u t : State} (hu : u = { s with draws := u.draws }) (h : deliver v u = .next t) :
    t = { s with rdata := t.rdata, draws := t.draws } := by
  cases h
  rw [hu]

/-- Settles O56: each of the three reads delivers a value and draws at most a free value. -/
theorem hostReadsChangeNothing : Obligations.HostReadsChangeNothing := by
  intro s t m ms hhost hm h
  rw [step_hostMove hhost] at h
  rcases hm with ⟨n, rfl⟩ | ⟨a, rfl⟩ | ⟨a, rfl⟩
  · exact deliver_same (readReg_same n _) h
  · simp only [hostStep, readInMove] at h
    split at h
    · exact deliver_same (readIn_same a _) h
    · cases h
  · exact deliver_same (readOut_same a _) h

/-- A register above 8 reads 0 (R21). -/
theorem readReg_above {n : Nat} (h : 8 < n) (s : State) : readReg n s = (0, s) :=
  match n, h with
  | _ + 9, _ => rfl

/-- In IDLE and DONE a counter reads its value (R27 to R29). -/
theorem readCounter_of_defined {s : State} (h : s.phase = .idle ∨ s.phase = .done) (v : Nat) :
    readCounter v s = (v, s) := by
  have hd : s.phase.countersDefined = true := by rcases h with h | h <;> rw [h] <;> rfl
  simp [readCounter, hd]

/-- A write of another register than `CTRL` and `IN_LEN` is ignored (R21). -/
theorem writeReg_ignored {n : Nat} (h0 : n ≠ 0) (h3 : n ≠ 3) (v : Nat) (s : State) : writeReg n v s = .next s := by
  rcases writeReg_cases n v s with ⟨h, -⟩ | ⟨h, -⟩ | ⟨-, -, he⟩
  · exact absurd h h0
  · exact absurd h h3
  · exact he

/-- A step on a read of a register delivers what the register reads. -/
theorem step_regRead {s : State} {n : Nat} {ms : List HostMove} (h : s.host = .regRead n :: ms) :
    step s = .next { s with host := ms, rdata := (readReg n s).1, draws := (readReg n s).2.draws } := by
  rw [step_hostMove h, hostStep, readReg_with_host, readReg_same]
  rfl

/-- Settles O25: the registers by number, then the two moves. -/
theorem registerPort : Obligations.RegisterPort := by
  intro s
  refine ⟨rfl, rfl, rfl, rfl, rfl, rfl, fun h => ?_, fun n h => by rw [readReg_above h], fun n => readReg_same n s,
    fun n v h0 h3 => writeReg_ignored h0 h3 v s, fun n ms h => ⟨_, step_regRead h⟩, fun n v ms h h0 h3 => ?_⟩
  · simp only [readReg, readCounter_of_defined h, and_self]
  · rw [step_hostMove h]
    exact writeReg_ignored h0 h3 v _

end Sys2Proof.Machine
end

section
/-! PROOF. O17, O24: `emit` at a full `OUT` and below, and a token that does not fit. -/

namespace Sys2Proof.Machine

/-- `OUT` has room for a byte exactly when `OUT_N` lies below every finite `OUT_CAP` (R75). -/
theorem outFull_eq_false_iff (s : State) :
    outFull s = false ↔ ∀ c, s.params.outCap = some c → s.outN < c := by
  unfold outFull
  cases s.params.outCap <;> simp

theorem outFull_of_outCap_eq {s : State} (h : s.params.outCap = some s.outN) : outFull s = true := by
  simp [outFull, h]

/-- Settles O24, by the two cases of `emit`. -/
theorem emitStoresOneByte : Obligations.EmitStoresOneByte := by
  intro b s
  refine ⟨fun hcap => ?_, fun hroom => ?_⟩
  · simp [emit, outFull_of_outCap_eq hcap, raise]
  · exact ⟨_, emit_room ((outFull_eq_false_iff s).2 hroom) b, rfl, fun a => memGet_memSet .., rfl, rfl, .refl s,
      rfl, rfl, rfl, rfl, rfl, rfl, rfl, rfl⟩

/-- In `PH_E_TREE` a token is executed by writing its bits and counting them (R190). -/
theorem exec_token_writes {s : State} {i : Instr} (hi : i.isToken = true) (hp : s.phase = .eTree) :
    exec i s =
      ((writeBits (tokenBits i) s).bind fun _ u => .ok () (addCount (tokenBits i).length u)).toOutcome := by
  cases i with
  | nop | encode | decode | reserved => cases hi
  | treeInternal => simp only [exec, execTreeInternal, hp, writeInternal_eq]; rfl
  | treeLeaf e v => simp only [exec, execTreeLeaf, hp, writeLeaf_eq]; rfl

/-- Bits that complete more bytes than `OUT_CAP` cannot all be written: where they were, `OUT_N` would be that number of
bytes (R125), and writing keeps it within `OUT_CAP` (R75). -/
theorem writeBits_overflow {bs : Bits} {s : State} {c : Nat} (hn : s.ctx.wN < 8) (hcap : s.params.outCap = some c)
    (hout : s.outN ≤ c) (hover : c < (8 * s.outN + s.ctx.wN + bs.length) / 8) :
    ∃ u, SameInput s u ∧ writeBits bs s = .raised (faultEntry .outOverflow 0 u) := by
  rcases writeBits_cases bs s with ⟨t, ht⟩ | ⟨u, n, hu, -, v, hr⟩
  · have hw := writeBits_wrote ht
    have hroom : t.outN ≤ c := hw.room c hcap hout
    obtain ⟨hn', hplace⟩ := hw.place hn
    omega
  · exact ⟨takeBit v u, (hu.appended _).sameInput, hr⟩

/-- Settles O17: the token's bits overflow, and the fault's entry is the next state. -/
theorem tokenWriteOverflows : Obligations.TokenWriteOverflows := by
  intro s i c hi hp hn hcap hout hover
  obtain ⟨u, hu, hr⟩ := writeBits_overflow hn hcap hout hover
  refine ⟨faultEntry .outOverflow 0 u, ?_, rfl, rfl, rfl, rfl, hu⟩
  rw [exec_token_writes hi hp, hr]
  rfl

end Sys2Proof.Machine
end

section
/-! PROOF. O1 to O4, O43 and O51: bits and what they stand for. A byte and its 8 bits determine each other (R62, R95),
so a token and its bits do (R92 to R94). What `readNode` and `walk` have read is therefore fixed by their result, and the
bits behind it play no part (R100, R101, R235). -/

namespace Sys2Proof.Machine

/-! ### CTRL values -/

/-- A `CTRL` value stands for the same command as its `CMD` bits alone (R103). -/
theorem decodeCtrl_append (h : BitVec 6) (cmd : BitVec 2) : decodeCtrl (h ++ cmd) = decodeCtrl (0#6 ++ cmd) := by
  have low (h : BitVec 6) : (h ++ cmd).toNat % 4 = cmd.toNat := by
    rw [BitVec.toNat_append, ← Nat.shiftLeft_add_eq_or_of_lt cmd.isLt, Nat.shiftLeft_eq]
    omega
  unfold decodeCtrl
  rw [low h, low 0#6]

/-- Settles O1: bits 7:2 are dropped, and the four words left are evaluated. -/
theorem ctrlLowBitsSelectCommand : Obligations.CtrlLowBitsSelectCommand := by
  intro h
  refine ⟨?_, ?_, ?_, ?_⟩ <;> exact (decodeCtrl_append h _).trans (by decide)

/-- Settles O2, by evaluating the decoder. -/
theorem specWordsDecode : Obligations.SpecWordsDecode := by
  unfold Obligations.SpecWordsDecode
  decide

/-! ### Numbers and their bits -/

/-- The first bit of a sequence is the most significant (R95). -/
theorem natOfBits_cons (b : Bool) (bs : Bits) : natOfBits (b :: bs) = 2 ^ bs.length * b.toNat + natOfBits bs := by
  have scaled (a : Nat) : bs.foldl (fun v b => 2 * v + b.toNat) a = 2 ^ bs.length * a + natOfBits bs := by
    unfold natOfBits
    induction bs using List.reverseRecOn with
    | nil => simp
    | append_singleton bs c ih => simp [ih, pow_succ]; ring
  simpa [natOfBits] using scaled b.toNat

theorem natOfBits_lt (bs : Bits) : natOfBits bs < 2 ^ bs.length := by
  induction bs with
  | nil => decide
  | cons b bs ih =>
    rw [natOfBits_cons, List.length_cons, pow_succ]
    cases b <;> simp <;> omega

/-- Reading back what `writeUInt` writes (R122, R129). -/
theorem natOfBits_uintBits (v n : Nat) : natOfBits (uintBits v n) = v % 2 ^ n := by
  induction n with
  | zero => simp [uintBits, natOfBits, Nat.mod_one]
  | succ n ih =>
    rw [uintBits, natOfBits_cons, uintBits_length, ih, Nat.toNat_testBit, pow_succ, Nat.mod_mul, Nat.add_comm]

theorem uintBits_congr {v w n : Nat} (h : ∀ i < n, v.testBit i = w.testBit i) : uintBits v n = uintBits w n := by
  induction n with
  | zero => rfl
  | succ n ih => rw [uintBits, uintBits, h n (Nat.lt_succ_self n), ih fun i hi => h i (Nat.lt_succ_of_lt hi)]

theorem uintBits_natOfBits (bs : Bits) : uintBits (natOfBits bs) bs.length = bs := by
  induction bs with
  | nil => rfl
  | cons b bs ih =>
    have bit (i : Nat) := Nat.testBit_two_pow_mul_add b.toNat (natOfBits_lt bs) i
    have htop : (natOfBits (b :: bs)).testBit bs.length = b := by
      rw [natOfBits_cons, bit, if_neg (Nat.lt_irrefl _)]
      cases b <;> simp
    have hlow : uintBits (natOfBits (b :: bs)) bs.length = uintBits (natOfBits bs) bs.length :=
      uintBits_congr fun i hi => by rw [natOfBits_cons, bit, if_pos hi]
    rw [List.length_cons, uintBits, htop, hlow, ih]

theorem byteOfBits_byteBits (v : Byte) : byteOfBits (byteBits v) = v := by
  rw [byteOfBits, byteBits, natOfBits_uintBits, Nat.mod_eq_of_lt v.isLt, BitVec.ofNat_toNat, BitVec.setWidth_eq]

theorem byteBits_byteOfBits {bs : Bits} (h : bs.length = 8) : byteBits (byteOfBits bs) = bs := by
  have hlt : natOfBits bs < 2 ^ 8 := h ▸ natOfBits_lt bs
  rw [byteBits, byteOfBits, BitVec.toNat_ofNat, Nat.mod_eq_of_lt hlt, ← h, uintBits_natOfBits]

/-! ### Tokens and their bits -/

theorem decodeToken_treeInternal (rest : Bits) :
    decodeToken (tokenBits .treeInternal ++ rest) = .ok (.treeInternal, rest) := rfl

theorem decodeToken_treeLeaf (e : Bool) (v : Byte) (rest : Bits) :
    decodeToken (tokenBits (.treeLeaf e v) ++ rest) = .ok (.treeLeaf e v, rest) := by
  have h : decodeToken (tokenBits (.treeLeaf e v) ++ rest) = .ok (.treeLeaf e (byteOfBits (byteBits v)), rest) := rfl
  rw [h, byteOfBits_byteBits]

/-- A token is found at the front of any stream that begins with its bits (R92). -/
theorem decodeToken_tokenBits {i : Instr} (hi : i.isToken = true) (rest : Bits) :
    decodeToken (tokenBits i ++ rest) = .ok (i, rest) := by
  cases i with
  | nop | encode | decode | reserved => cases hi
  | treeInternal => exact decodeToken_treeInternal rest
  | treeLeaf e v => exact decodeToken_treeLeaf e v rest

/-- Settles O4, along the decoder's own cases; a stream of 10 bits or more is in one of the first two. -/
theorem noTokenIsIllegal : Obligations.NoTokenIsIllegal := by
  intro bs
  fun_cases decodeToken bs with
  | case1 rest => exact ⟨rfl, rfl⟩
  | case2 e v7 v6 v5 v4 v3 v2 v1 v0 rest => exact ⟨rfl, by simp [tokenBits, byteBits_byteOfBits]⟩
  | case3 _ hinternal hleaf =>
    refine ⟨rfl, Nat.lt_of_not_le fun hlen => ?_, hinternal⟩
    match bs, hlen with
    | false :: rest, _ => exact hinternal rest rfl
    | true :: e :: v7 :: v6 :: v5 :: v4 :: v3 :: v2 :: v1 :: v0 :: rest, _ => exact hleaf _ _ _ _ _ _ _ _ _ rest rfl

/-- A token that is found is what the stream begins with (R104). -/
theorem eq_tokenBits_append {bs rest : Bits} {i : Instr} (h : decodeToken bs = .ok (i, rest)) :
    i.isToken = true ∧ bs = tokenBits i ++ rest := by
  simpa [h] using noTokenIsIllegal bs

theorem decode_token {i : Instr} (hi : i.isToken = true) : decode (.token (tokenBits i)) = .ok i := by
  have h := decodeToken_tokenBits hi []
  rw [List.append_nil] at h
  simp [decode, h]

/-- Settles O3: the commands are evaluated, and a token is found at the front of its own bits. -/
theorem decodeEncodeAgree : Obligations.DecodeEncodeAgree := by
  refine ⟨fun i _ => ?_, fun i rest hi => decodeToken_tokenBits hi rest⟩
  cases i with
  | nop | encode | decode | reserved => decide
  | treeInternal | treeLeaf e v => exact decode_token rfl

/-! ### The tree section -/

theorem size_add_one (t : Node) : t.size + 1 = 2 * t.leaves := by
  induction t with
  | leaf v e => rfl
  | internal l r ihl ihr => simp only [Node.size, Node.leaves]; omega

/-- Settles O43: the length is `11 * L - 1` for every tree, and an encoder-built one has 1 to 257 leaves. -/
theorem treeSectionLength : Obligations.TreeSectionLength := by
  refine ⟨fun t => ?_, fun data => ?_⟩
  · have hsize := size_add_one t
    have hlen := treeStream_length t
    have hpos := one_le_leaves t
    omega
  · have hlen := treeStream_length (treeOf data)
    have hpos := one_le_leaves (treeOf data)
    have hmax := treeOf_leaves_le_257 data
    omega

/-! ### What DECODE reads -/

/-- How `readNode` completes: a leaf, or two subtrees read one after the other (R192). -/
theorem parseNode_eq_ok {p : Params} {fuel d n pos : Nat} {he : Bool} {bs : Bits} {t : Parsed} :
    parseNode p (fuel + 1) d n he pos bs = .ok t ↔
      d ≤ p.depthMax ∧ n < p.nodeCap ∧
      ((∃ e v rest, bs = tokenBits (.treeLeaf e v) ++ rest ∧
          t = ⟨.leaf v e, n + 1, he || e, pos + 10, rest⟩) ∨
        ∃ rest l r, bs = tokenBits .treeInternal ++ rest ∧
          parseNode p fuel (d + 1) (n + 1) he (pos + 1) rest = .ok l ∧
          parseNode p fuel (d + 1) l.nNodes l.hasEob l.pos l.rest = .ok r ∧
          t = ⟨.internal l.node r.node, r.nNodes, r.hasEob, r.pos, r.rest⟩) := by
  constructor
  · intro h
    simp only [parseNode] at h
    split_ifs at h with hd hn
    refine ⟨not_lt.1 hd, not_le.1 hn, ?_⟩
    split at h
    · cases h
    · next e v rest htok =>
      cases h
      exact .inl ⟨e, v, rest, (eq_tokenBits_append htok).2, rfl⟩
    · next i rest hnot htok =>
      obtain ⟨hi, rfl⟩ := eq_tokenBits_append htok
      obtain rfl : i = .treeInternal := by
        cases i with
        | nop | encode | decode | reserved => cases hi
        | treeInternal => rfl
        | treeLeaf e v => exact (hnot e v rfl).elim
      split at h
      · cases h
      next l hl =>
      split at h
      · cases h
      next r hr =>
      cases h
      exact .inr ⟨rest, l, r, rfl, hl, hr, rfl⟩
  · rintro ⟨hd, hn, ⟨e, v, rest, rfl, rfl⟩ | ⟨rest, l, r, rfl, hl, hr, rfl⟩⟩
    · simp [parseNode, not_lt.2 hd, not_le.2 hn, decodeToken_treeLeaf]
    · simp [parseNode, not_lt.2 hd, not_le.2 hn, decodeToken_treeInternal, hl, hr]

/-- A tree that is read is the one whose serialization lies at the cursor, and is read the same whatever lies behind
it (R101, R196). -/
theorem parseNode_reads {p : Params} {fuel d n pos : Nat} {he : Bool} {bs : Bits} {t : Parsed}
    (h : parseNode p fuel d n he pos bs = .ok t) :
    bs = treeStream t.node ++ t.rest ∧ t.pos = pos + (treeStream t.node).length ∧
      ∀ rest, parseNode p fuel d n he pos (treeStream t.node ++ rest) = .ok { t with rest := rest } := by
  induction fuel generalizing d n pos he bs t with
  | zero => cases h
  | succ fuel ih =>
    obtain ⟨hd, hn, ⟨e, v, rest, rfl, rfl⟩ | ⟨rest, l, r, rfl, hl, hr, rfl⟩⟩ := parseNode_eq_ok.1 h
    · exact ⟨rfl, rfl, fun rest' => parseNode_eq_ok.2 ⟨hd, hn, .inl ⟨e, v, rest', rfl, rfl⟩⟩⟩
    · obtain ⟨hrest, hlpos, hl'⟩ := ih hl
      obtain ⟨hlrest, hrpos, hr'⟩ := ih hr
      refine ⟨?_, ?_, fun rest' => parseNode_eq_ok.2 ⟨hd, hn, .inr
        ⟨treeStream l.node ++ (treeStream r.node ++ rest'), _, _, ?_, hl' _, hr' rest', rfl⟩⟩⟩
      · simp [treeStream, ← hlrest, ← hrest]
      · simp only [treeStream, tokenBits, List.length_append, List.length_singleton]; omega
      · simp [treeStream]

/-- One bit of `walk`, whatever lies behind it: the walk stops at EOB, overflows, or goes on (R233, R235, R75). -/
theorem walkFrom_cons_cases (p : Params) (root : Node) (b : Bool) (pos : Nat) (cur : Node) (out : List Byte) :
    (∀ bs, walkFrom p root (b :: bs) pos cur out = .ok (out, pos + 1)) ∨
    (∀ bs, walkFrom p root (b :: bs) pos cur out = .error (.outOverflow, 0)) ∨
    ∃ cur' out', ∀ bs, walkFrom p root (b :: bs) pos cur out = walkFrom p root bs (pos + 1) cur' out' := by
  simp only [walkFrom]
  split
  · split_ifs
    · exact .inl fun _ => rfl
    · exact .inr (.inl fun _ => rfl)
    · exact .inr (.inr ⟨_, _, fun _ => rfl⟩)
  · exact .inr (.inr ⟨_, _, fun _ => rfl⟩)

/-- A walk that ends reads a beginning of the bits, and ends the same whatever lies behind it (R235). -/
theorem walkFrom_reads {p : Params} {root cur : Node} {bs : Bits} {pos : Nat} {out : List Byte}
    {res : List Byte × Nat} (h : walkFrom p root bs pos cur out = .ok res) :
    ∃ used rest, bs = used ++ rest ∧ res.2 = pos + used.length ∧
      ∀ rest', walkFrom p root (used ++ rest') pos cur out = .ok res := by
  induction bs generalizing pos cur out with
  | nil => cases h
  | cons b bs ih =>
    obtain hend | hover | ⟨cur', out', hon⟩ := walkFrom_cons_cases p root b pos cur out
    · obtain rfl := Except.ok.inj ((hend bs).symm.trans h)
      exact ⟨[b], bs, rfl, rfl, hend⟩
    · cases (hover bs).symm.trans h
    · obtain ⟨used, rest, rfl, hpos, hsame⟩ := ih ((hon bs).symm.trans h)
      refine ⟨b :: used, rest, rfl, ?_, fun rest' => (hon _).trans (hsame rest')⟩
      rw [hpos, List.length_cons]; omega

/-- A DECODE completes when its tree is read, has an EOB leaf, and the walk over the bits behind it ends (R232). -/
theorem decodeBits_eq_ok {p : Params} {bs : Bits} {r : Report} :
    decodeBits p bs = .ok r ↔
      ∃ t res, parseNode p (p.depthMax + 1) 1 0 false 0 bs = .ok t ∧ t.hasEob = true ∧
        walkFrom p t.node t.rest t.pos t.node [] = .ok res ∧ r = ⟨res.1, t.pos, res.2 - t.pos⟩ := by
  constructor
  · intro h
    simp only [decodeBits] at h
    split at h
    · cases h
    next t ht =>
    split_ifs at h with heob
    split at h
    · cases h
    next out pos hwalk =>
    cases h
    exact ⟨t, (out, pos), ht, heob, hwalk, rfl⟩
  · rintro ⟨t, res, ht, heob, hwalk, rfl⟩
    simp [decodeBits, ht, heob, hwalk]

/-- Settles O51: the tree and the walk read a beginning of the bits, whose length the two counters add up to. -/
theorem trailingBitsIgnored : Obligations.TrailingBitsIgnored := by
  intro p bs r h
  obtain ⟨t, res, ht, heob, hwalk, rfl⟩ := decodeBits_eq_ok.1 h
  obtain ⟨hbs, hpos, ht'⟩ := parseNode_reads ht
  obtain ⟨used, rest, hrest, hend, hwalk'⟩ := walkFrom_reads hwalk
  have hread : t.pos + (res.2 - t.pos) = (treeStream t.node ++ used).length := by
    rw [List.length_append]; omega
  have hsplit : bs = (treeStream t.node ++ used) ++ rest := by rw [hbs, hrest, List.append_assoc]
  refine ⟨?_, fun extra => ?_⟩
  · simp only [hread, hsplit, List.length_append]; omega
  · simp only [hread, hsplit, List.take_left]
    rw [List.append_assoc]
    exact decodeBits_eq_ok.2 ⟨_, res, ht' _, heob, hwalk' extra, rfl⟩

end Sys2Proof.Machine
end

section
/-! SUPPORT. Bytes and the bits they hold (R62, R63): bit `k` and block `j` of a byte sequence, bits packed into bytes
(R100), and the bits of an accumulator that is shifted (R121, R124). -/

namespace Sys2Proof.Machine

/-! ### The bits of bytes -/

@[simp] theorem byteBits_length (b : Byte) : (byteBits b).length = 8 := uintBits_length _ _

theorem uintBits_getElem? (v n i : Nat) :
    (uintBits v n)[i]? = if i < n then some (v.testBit (n - 1 - i)) else none := by
  induction n generalizing i with
  | zero => rfl
  | succ n ih =>
    cases i with
    | zero => simp [uintBits]
    | succ i => simp only [uintBits, List.getElem?_cons_succ, ih, Nat.add_lt_add_iff_right]; congr 3; omega

theorem byteBits_getElem? (b : Byte) {i : Nat} (h : i < 8) : (byteBits b)[i]? = some (b.getLsbD (7 - i)) := by
  rw [byteBits, uintBits_getElem?, if_pos h, BitVec.testBit_toNat, Nat.sub_sub, Nat.add_comm]

/-- Bit `k` of a byte sequence is bit `7 - k mod 8` of byte `k div 8` (R62). -/
theorem bytesBits_getElem? (l : List Byte) (k : Nat) :
    (bytesBits l)[k]? = l[k / 8]?.map fun b => b.getLsbD (7 - k % 8) := by
  induction l generalizing k with
  | nil => simp [bytesBits]
  | cons b l ih =>
    rw [show bytesBits (b :: l) = byteBits b ++ bytesBits l from rfl]
    by_cases hk : k < 8
    · rw [List.getElem?_append_left (by simpa using hk), Nat.div_eq_of_lt hk, Nat.mod_eq_of_lt hk]
      exact byteBits_getElem? b hk
    · obtain ⟨m, rfl⟩ : ∃ m, k = m + 8 := ⟨k - 8, by omega⟩
      rw [List.getElem?_append_right (by simp), byteBits_length, Nat.add_sub_cancel, ih,
        Nat.add_div_right _ (by decide), Nat.add_mod_right, List.getElem?_cons_succ]

@[simp] theorem bytesBits_append (l m : List Byte) : bytesBits (l ++ m) = bytesBits l ++ bytesBits m :=
  List.flatMap_append

theorem bytesBits_singleton (b : Byte) : bytesBits [b] = byteBits b := List.flatMap_singleton ..

theorem bytesBits_length (l : List Byte) : (bytesBits l).length = 8 * l.length := by
  induction l with
  | nil => rfl
  | cons b l ih =>
    rw [bytesBits, List.flatMap_cons, List.length_append, ← bytesBits, ih, byteBits_length, List.length_cons]
    omega

/-- The bits from the start of byte `j` on (R62). -/
theorem drop_bytesBits_append {l : List Byte} (tail : Bits) {j : Nat} (h : j ≤ l.length) :
    (bytesBits l ++ tail).drop (8 * j) = bytesBits (l.drop j) ++ tail := by
  have hfirst : (bytesBits (l.take j)).length = 8 * j := by rw [bytesBits_length, List.length_take_of_le h]
  conv_lhs => rw [← List.take_append_drop j l, bytesBits_append, List.append_assoc]
  exact List.drop_left' hfirst

theorem byteOfBits_block {l : List Byte} (tail : Bits) {j : Nat} {b : Byte} (h : l[j]? = some b) :
    byteOfBits (((bytesBits l ++ tail).drop (8 * j)).take 8) = b := by
  obtain ⟨hj, rfl⟩ := List.getElem?_eq_some_iff.1 h
  rw [drop_bytesBits_append tail hj.le, List.drop_eq_getElem_cons hj, bytesBits, List.flatMap_cons, List.append_assoc,
    List.take_left' (byteBits_length _), byteOfBits_byteBits]

theorem bytesBits_injective : Function.Injective bytesBits := by
  intro l m h
  have hlen : l.length = m.length := by
    have := congrArg List.length h
    rw [bytesBits_length, bytesBits_length] at this
    omega
  refine List.ext_getElem hlen fun j hl hm => ?_
  rw [← byteOfBits_block [] (List.getElem?_eq_getElem hl), h, byteOfBits_block [] (List.getElem?_eq_getElem hm)]

/-! ### Bits packed into bytes -/

/-- The bytes of a bit sequence hold its bits, then zeros up to the byte boundary (R62, R100). -/
theorem bytesBits_packBits (bs : Bits) :
    bytesBits (packBits bs) = bs ++ List.replicate (8 * ((bs.length + 7) / 8) - bs.length) false := by
  refine List.ext_getElem? fun k => ?_
  rw [bytesBits_getElem?, packBits, List.getElem?_map]
  by_cases hk : k / 8 < (bs.length + 7) / 8
  · have hblock : ((bs.drop (8 * (k / 8)) ++ List.replicate 8 false).take 8).length = 8 := by simp
    have hmod : k % 8 < 8 := Nat.mod_lt _ (by decide)
    rw [List.getElem?_range hk, Option.map_some, Option.map_some, ← byteBits_getElem? _ hmod,
      byteBits_byteOfBits hblock, List.getElem?_take_of_lt hmod]
    by_cases hbit : k < bs.length
    · rw [List.getElem?_append_left (by rw [List.length_drop]; omega), List.getElem?_append_left hbit,
        List.getElem?_drop, Nat.div_add_mod]
    · rw [List.getElem?_append_right (by rw [List.length_drop]; omega), List.getElem?_append_right (by omega),
        List.getElem?_replicate_of_lt (by omega), List.getElem?_replicate_of_lt (by omega)]
  · rw [List.getElem?_eq_none (by simpa using hk), List.getElem?_eq_none (by simp; omega)]
    rfl

/-- Bytes that hold some bits and then less than a byte of zeros are those bits packed (R62, R100). -/
theorem packBits_eq {l : List Byte} {bs : Bits} {k : Nat} (hk : k < 8)
    (h : bytesBits l = bs ++ List.replicate k false) : packBits bs = l := by
  have hlen := congrArg List.length h
  rw [bytesBits_length, List.length_append, List.length_replicate] at hlen
  apply bytesBits_injective
  rw [bytesBits_packBits, h, show 8 * ((bs.length + 7) / 8) - bs.length = k by omega]

/-! ### Bits shifted in -/

/-- The high bits of a sum come from the scaled part, the low ones from the rest (R121). -/
theorem uintBits_add (a n : Nat) {m k : Nat} (h : m < 2 ^ k) :
    uintBits (2 ^ k * a + m) (n + k) = uintBits a n ++ uintBits m k := by
  have bit (i : Nat) := Nat.testBit_two_pow_mul_add a h i
  induction n with
  | zero => rw [Nat.zero_add]; exact uintBits_congr fun i hi => by rw [bit, if_pos hi]
  | succ n ih => rw [Nat.add_right_comm, uintBits, bit, if_neg (by omega), Nat.add_sub_cancel, ih]; rfl

theorem uintBits_zero (k : Nat) : uintBits 0 k = List.replicate k false := by
  induction k with
  | zero => rfl
  | succ k ih => rw [uintBits, ih, Nat.zero_testBit, List.replicate_succ]

/-- The bits of a byte below bit `n ≤ 8` are those of the number it was cut from (R121). -/
theorem uintBits_mod {v n : Nat} (h : n ≤ 8) : uintBits (v % 2 ^ 8) n = uintBits v n :=
  uintBits_congr fun i hi => by rw [Nat.testBit_mod_two_pow, decide_eq_true (by omega), Bool.true_and]

/-- A bit shifted in goes behind the bits held (R121). -/
theorem uintBits_shiftIn (acc : Byte) (v : Bool) {n : Nat} (h : n < 8) :
    uintBits (shiftIn acc v).toNat (n + 1) = uintBits acc.toNat n ++ [v] := by
  have hv : v.toNat < 2 ^ 1 := Bool.toNat_lt v
  have hshift : (shiftIn acc v).toNat = (2 ^ 1 * acc.toNat + v.toNat) % 2 ^ 8 := by
    have hbit : (if v then 1 else 0 : Byte).toNat = v.toNat % 2 ^ 8 := by cases v <;> rfl
    rw [shiftIn, BitVec.toNat_or, BitVec.toNat_shiftLeft, hbit, ← Nat.or_mod_two_pow,
      ← Nat.shiftLeft_add_eq_or_of_lt hv, Nat.shiftLeft_eq, Nat.mul_comm]
  rw [hshift, uintBits_mod h, uintBits_add _ _ hv]
  cases v <;> rfl

/-- The accumulator shifted to the top of its byte holds its bits, then zeros (R124). -/
theorem byteBits_shiftLeft (acc : Byte) {n : Nat} (h : n ≤ 8) :
    byteBits (acc <<< (8 - n)) = uintBits acc.toNat n ++ List.replicate (8 - n) false := by
  rw [byteBits, BitVec.toNat_shiftLeft, uintBits_mod (le_refl 8), Nat.shiftLeft_eq, Nat.mul_comm, ← uintBits_zero,
    ← uintBits_add _ _ (Nat.two_pow_pos _), Nat.add_sub_cancel' h]
  rfl

end Sys2Proof.Machine
end

section
/-! PROOF. O32 and O33: the reader. What it returns is known where the bytes of `IN` pack a bit sequence (R131). The
register-level reader agrees with it because filling keeps the correspondence `R_POS = 8 * R_IDX - R_REM` (R130). -/

namespace Sys2Proof.Machine

/-! ### readBit, and the registers of R130 -/

theorem readBitAvailable_iff (s : State) : readBitAvailable s = true ↔ s.ctx.rPos < 8 * s.inLen :=
  decide_eq_true_iff

theorem readBit_below {s : State} (h : s.ctx.rPos < 8 * s.inLen) :
    readBit s = .ok (inBit s s.ctx.rPos) (s.withCtx { s.ctx with rPos := s.ctx.rPos + 1 }) := by
  simp [readBit, (readBitAvailable_iff s).2 h]

theorem readBit_at_end {s : State} (h : s.ctx.rPos = 8 * s.inLen) :
    readBit s = .raised (faultEntry .outOfData (8 * s.inLen) s) := by
  simp [readBit, readBitAvailable, h, raise]

/-- R130: the registers `r` stand where the cursor of `s` stands. -/
structure RegReader.Agrees (s : State) (r : RegReader) : Prop where
  rem_le : r.rem ≤ 8
  idx_le : r.idx ≤ s.inLen
  rem_le_idx : r.rem ≤ 8 * r.idx
  pos : s.ctx.rPos = 8 * r.idx - r.rem
  cur : 0 < r.rem → r.cur = inByte s (r.idx - 1)

/-- Filling moves no cursor: it fails where all of `IN` has been read, and else there is a bit in `R_CUR` (R130). -/
theorem RegReader.Agrees.fill_cases {s : State} {r : RegReader} (h : r.Agrees s) :
    (s.ctx.rPos = 8 * s.inLen ∧ regReaderFill s r = none) ∨
    ∃ r', regReaderFill s r = some r' ∧ r'.Agrees s ∧ 0 < r'.rem := by
  obtain ⟨hrem, hidx, hremIdx, hpos, hcur⟩ := h
  by_cases hempty : r.rem = 0
  · by_cases hend : r.idx = s.inLen
    · exact .inl ⟨by omega, by simp [regReaderFill, hempty, hend]⟩
    · refine .inr ⟨⟨r.idx + 1, inByte s r.idx, 8⟩, by simp [regReaderFill, hempty, hend], ?_, Nat.zero_lt_succ 7⟩
      exact ⟨le_refl 8, by dsimp only; omega, by dsimp only; omega, by dsimp only; omega, fun _ => rfl⟩
  · exact .inr ⟨r, by simp [regReaderFill, hempty], ⟨hrem, hidx, hremIdx, hpos, hcur⟩, by omega⟩

/-- Bit `R_REM - 1` of `R_CUR` is the stream bit at the cursor (R62, R130). -/
theorem RegReader.Agrees.bit_eq {s : State} {r : RegReader} (h : r.Agrees s) (hr : 0 < r.rem) :
    r.cur.getLsbD (r.rem - 1) = inBit s s.ctx.rPos := by
  obtain ⟨hrem, -, hremIdx, hpos, hcur⟩ := h
  have hbyte : s.ctx.rPos / 8 = r.idx - 1 := by omega
  have hbit : 7 - s.ctx.rPos % 8 = r.rem - 1 := by omega
  rw [inBit, hbyte, hbit, hcur hr]

theorem RegReader.Agrees.pos_lt {s : State} {r : RegReader} (h : r.Agrees s) (hr : 0 < r.rem) :
    s.ctx.rPos < 8 * s.inLen := by
  obtain ⟨-, hidx, hremIdx, hpos, -⟩ := h
  omega

/-- Taking a bit out of `R_CUR` moves both cursors by one (R130). -/
theorem RegReader.Agrees.advance {s : State} {r : RegReader} (h : r.Agrees s) (hr : 0 < r.rem) :
    RegReader.Agrees (s.withCtx { s.ctx with rPos := s.ctx.rPos + 1 }) { r with rem := r.rem - 1 } := by
  obtain ⟨hrem, hidx, hremIdx, hpos, hcur⟩ := h
  exact ⟨by dsimp only; omega, hidx, by dsimp only; omega, by simp only [State.withCtx_ctx]; omega, fun _ => hcur hr⟩

/-- Settles O33: after filling, both readers take the same bit, and the correspondence holds behind it. -/
theorem registerReaderEquivalent : Obligations.RegisterReaderEquivalent := by
  refine ⟨fun s => ?_, fun s r hrem hidx hremIdx hpos hcur => ⟨?_, fun _ => ⟨rfl, rfl⟩, ?_⟩⟩
  · rw [readBitAvailable_iff]
    rcases readBit_cases s with ⟨hlt, hr⟩ | ⟨hge, hr⟩
    · exact iff_of_true hlt ⟨_, _, hr⟩
    · exact iff_of_false (Nat.not_lt.2 hge) fun ⟨b, t, h⟩ => by cases hr.symm.trans h
  · rw [Bool.eq_iff_iff, readBitAvailable_iff]
    simp only [regReadBitAvailable, Bool.or_eq_true, decide_eq_true_eq]
    omega
  · rcases RegReader.Agrees.fill_cases ⟨hrem, hidx, hremIdx, hpos, hcur⟩ with ⟨hend, hf⟩ | ⟨r', hf, hr', hbits⟩
    · simp [regReadBit, hf, readBit_at_end hend, hend]
    · obtain ⟨hrem', hidx', hremIdx', hpos', hcur'⟩ := hr'.advance hbits
      simp only [regReadBit, hf, Option.map_some, hr'.bit_eq hbits]
      exact ⟨readBit_below (hr'.pos_lt hbits), hrem', hidx', hremIdx', hpos', hcur'⟩

/-! ### The stream of IN -/

/-- The stream of `IN` is its bytes' bits (R62, R63). -/
theorem bytesBits_inData (s : State) {k : Nat} (h : k < 8 * s.inLen) :
    (bytesBits (inData s))[k]? = some (inBit s k) := by
  rw [bytesBits_getElem?, inData, List.getElem?_map, List.getElem?_range (by omega)]
  rfl

/-- The bytes HOST loaded are the bytes ENGINE reads (R31). -/
theorem inData_eq {s : State} {l : List Byte} (hlen : s.inLen = l.length)
    (h : ∀ j < s.inLen, memGet s.inMem j = l[j]?) : inData s = l := by
  refine List.ext_getElem? fun j => ?_
  rw [inData, List.getElem?_map]
  by_cases hj : j < s.inLen
  · have hb : memGet s.inMem j = some l[j] := by rw [h j hj, List.getElem?_eq_getElem]
    simp [hj, inByte, hb]
  · rw [List.getElem?_eq_none (by simpa using hj), List.getElem?_eq_none (by omega)]
    rfl

/-- The next bit at the cursor is the first of the stream from there on (R127). -/
theorem streamBits_succ {s : State} {n : Nat} (h : s.ctx.rPos < 8 * s.inLen) :
    streamBits s (n + 1) =
      inBit s s.ctx.rPos :: streamBits (s.withCtx { s.ctx with rPos := s.ctx.rPos + 1 }) n := by
  have hmin : min (n + 1) (8 * s.inLen - s.ctx.rPos) = min n (8 * s.inLen - (s.ctx.rPos + 1)) + 1 := by omega
  simp only [streamBits, hmin, List.range_succ_eq_map, List.map_cons, List.map_map, State.withCtx_ctx,
    State.withCtx_inLen, Nat.add_zero]
  congr 1
  refine List.map_congr_left fun k _ => ?_
  simp only [Function.comp, Nat.succ_eq_add_one, Nat.add_comm k 1, ← Nat.add_assoc]
  rfl

/-- Within the input the loop of `readUInt` appends the next `n` stream bits to the value (R129). -/
theorem readUIntFrom_eq {n : Nat} (a : Nat) {s : State} (h : s.ctx.rPos + n ≤ 8 * s.inLen) :
    readUIntFrom a n s =
      .ok (2 ^ n * a + natOfBits (streamBits s n)) (s.withCtx { s.ctx with rPos := s.ctx.rPos + n }) := by
  induction n generalizing a s with
  | zero => simp [readUIntFrom, streamBits, natOfBits, State.withCtx]
  | succ n ih =>
    have hlt : s.ctx.rPos < 8 * s.inLen := by omega
    have hrest : s.ctx.rPos + 1 + n ≤ 8 * s.inLen := by omega
    have hlen : (streamBits (s.withCtx { s.ctx with rPos := s.ctx.rPos + 1 }) n).length = n := by simp; omega
    rw [readUIntFrom, readBit_below hlt, Res.bind_ok, ih _ (by simpa using hrest), streamBits_succ hlt, natOfBits_cons,
      hlen]
    congr 1
    · ring
    · simp [State.withCtx]; omega

/-- Settles O32: the stream of `IN` is the bits and their padding, and `readUInt` returns the number they stand for. -/
theorem readerReturnsWrittenBits : Obligations.ReaderReturnsWrittenBits := by
  refine ⟨fun s bs hlen hmem => ?_, fun s v n hn hpos hbits => ?_⟩
  · have hdata : inData s = packBits bs := inData_eq (by rw [packBits_length, hlen]) hmem
    have hstream (h : s.ctx.rPos < 8 * s.inLen) : some (inBit s s.ctx.rPos) =
        (bs ++ List.replicate (8 * ((bs.length + 7) / 8) - bs.length) false)[s.ctx.rPos]? := by
      rw [← bytesBits_packBits, ← hdata, bytesBits_inData s h]
    refine ⟨fun hlt => ?_, fun hge hlt => ?_, readBit_at_end⟩
    · have hin : s.ctx.rPos < 8 * s.inLen := by omega
      rw [List.getElem?_append_left hlt] at hstream
      exact ⟨_, (hstream hin).symm, readBit_below hin⟩
    · rw [List.getElem?_append_right hge, List.getElem?_replicate_of_lt (by omega)] at hstream
      have hzero : inBit s s.ctx.rPos = false := Option.some.inj (hstream hlt)
      rw [readBit_below hlt, hzero]
      rfl
  · rw [readUInt, bitCountOk, decide_eq_true hn, if_pos rfl, readUIntFrom_eq 0 hpos, hbits, natOfBits_uintBits,
      Nat.mul_zero, Nat.zero_add]
    rfl

end Sys2Proof.Machine
end

section
/-! PROOF. O31: the writer law (R125). What the registers hold, `writtenBits`, grows by each bit written, so after
`wInit` it is the bits written; `finish` completes the last byte with zeros, and then `OUT` holds `packBits` of them. -/

namespace Sys2Proof.Machine

/-! ### Bytes stored -/

/-- The bytes stored since `wInit` (R125). -/
def emitted (s : State) : List Byte := (List.range s.outN).map fun j => (memGet s.outMem j).getD 0

theorem writtenBits_eq (s : State) : writtenBits s = bytesBits (emitted s) ++ uintBits s.ctx.wAcc.toNat s.ctx.wN := rfl

@[simp] theorem emitted_length (s : State) : (emitted s).length = s.outN := by simp [emitted]

theorem emitted_getElem? {s : State} {j : Nat} (hj : j < s.outN) (h : (memGet s.outMem j).isSome = true) :
    (emitted s)[j]? = memGet s.outMem j := by
  obtain ⟨b, hb⟩ := Option.isSome_iff_exists.1 h
  simp [emitted, hj, hb]

/-- A byte stored at `OUT_N` goes behind those stored before (R75). -/
theorem emitted_store (s : State) (b : Byte) (c : Context) :
    emitted { s with outMem := memSet s.outMem s.outN b, outN := s.outN + 1, ctx := c } = emitted s ++ [b] := by
  simp only [emitted, List.range_succ, List.map_append, List.map_singleton, memGet_memSet, if_pos, Option.getD_some]
  congr 1
  exact List.map_congr_left fun j hj => by rw [if_neg (Nat.ne_of_lt (List.mem_range.1 hj))]

/-! ### The operations of the writer -/

@[simp] theorem writtenBits_wInit (s : State) : writtenBits (wInit s) = [] := rfl

theorem writeBit_written {v : Bool} {s t : State} (hn : s.ctx.wN < 8) (h : writeBit v s = .ok () t) :
    writtenBits t = writtenBits s ++ [v] := by
  have hshift := uintBits_shiftIn s.ctx.wAcc v hn
  rcases writeBit_cases v s with ⟨-, he⟩ | ⟨-, -, he⟩ | ⟨h7, -, he⟩ <;> rw [he] at h <;> cases h
  · rw [writtenBits_eq, writtenBits_eq, List.append_assoc, ← hshift]
    rfl
  · rw [writtenBits_eq, writtenBits_eq, List.append_assoc, ← hshift, h7]
    refine (congrArg (bytesBits · ++ []) (emitted_store s (shiftIn s.ctx.wAcc v) _)).trans ?_
    rw [List.append_nil, bytesBits_append, bytesBits_singleton]
    rfl

theorem writeBits_written {bs : Bits} {s t : State} (hn : s.ctx.wN < 8) (h : writeBits bs s = .ok () t) :
    writtenBits t = writtenBits s ++ bs := by
  induction bs generalizing s with
  | nil => cases h; rw [List.append_nil]
  | cons b bs ih =>
    obtain ⟨_, u, hu, ht⟩ := Res.bind_eq_ok.1 h
    rw [ih ((writeBit_wrote hu).place hn).1 ht, writeBit_written hn hu, List.append_assoc]
    rfl

/-- `finish` has nothing to complete, or stores the partial byte, its bits at the top, or overflows doing so (R124). -/
theorem finish_outcomes (s : State) :
    (s.ctx.wN = 0 ∧ finish s = .ok () s) ∨
    (0 < s.ctx.wN ∧ outFull s = true ∧ finish s = .raised (faultEntry .outOverflow 0 s)) ∨
    (0 < s.ctx.wN ∧ outFull s = false ∧ finish s = .ok () { s with
      outMem := memSet s.outMem s.outN (s.ctx.wAcc <<< (8 - s.ctx.wN)), outN := s.outN + 1,
      ctx := { s.ctx with wAcc := 0, wN := 0 } }) := by
  by_cases hn : s.ctx.wN = 0
  · exact .inl ⟨hn, by simp [finish, hn]⟩
  · have hpos : 0 < s.ctx.wN := Nat.pos_of_ne_zero hn
    rcases emit_cases (s.ctx.wAcc <<< (8 - s.ctx.wN)) s with ⟨ho, he⟩ | ⟨ho, he⟩
    · exact .inr (.inl ⟨hpos, ho, by rw [finish, if_pos hpos, he]; rfl⟩)
    · exact .inr (.inr ⟨hpos, ho, by rw [finish, if_pos hpos, he]; rfl⟩)

/-- When `finish` completes, the bytes stored are the bits written, packed (R125). -/
theorem finish_emitted {s u : State} (hn : s.ctx.wN < 8) (h : finish s = .ok () u) :
    emitted u = packBits (writtenBits s) := by
  rcases finish_outcomes s with ⟨h0, he⟩ | ⟨-, -, he⟩ | ⟨hpos, -, he⟩ <;> rw [he] at h <;> cases h
  · refine (packBits_eq (k := 0) (by decide) ?_).symm
    rw [writtenBits_eq, h0]
    simp [uintBits]
  · refine (packBits_eq (k := 8 - s.ctx.wN) (by omega) ?_).symm
    rw [emitted_store, writtenBits_eq, bytesBits_append, bytesBits_singleton, byteBits_shiftLeft _ hn.le,
      List.append_assoc]

theorem finish_unbounded {s : State} (h : s.params.outCap = none) : ∃ u, finish s = .ok () u := by
  rcases finish_outcomes s with ⟨-, he⟩ | ⟨-, ho, -⟩ | ⟨-, -, he⟩
  · exact ⟨_, he⟩
  · rw [outFull_unbounded h] at ho
    cases ho
  · exact ⟨_, he⟩

theorem writeBits_unbounded {s : State} (bs : Bits) (h : s.params.outCap = none) : ∃ t, writeBits bs s = .ok () t := by
  rcases writeBits_cases bs s with ht | ⟨u, n, hu, ho, -⟩
  · exact ht
  · have hp : u.params = s.params := by rw [hu.same]
    rw [outFull_unbounded (hp ▸ h)] at ho
    cases ho

theorem finish_wTotal {s u : State} (h : finish s = .ok () u) : u.ctx.wTotal = s.ctx.wTotal := by
  rcases finish_outcomes s with ⟨-, he⟩ | ⟨-, -, he⟩ | ⟨-, -, he⟩ <;> rw [he] at h <;> cases h <;> rfl

/-- `finish` leaves no address below `OUT_N` without a byte (R124). -/
theorem finish_stored {s u : State} (hs : ∀ j < s.outN, (memGet s.outMem j).isSome = true) (h : finish s = .ok () u) :
    ∀ j < u.outN, (memGet u.outMem j).isSome = true := by
  intro j hj
  rcases finish_outcomes s with ⟨-, he⟩ | ⟨-, -, he⟩ | ⟨-, -, he⟩ <;> rw [he] at h <;> cases h
  · exact hs j hj
  · simp only [memGet_memSet]
    split_ifs with hlast
    · rfl
    · exact hs j (by simp only at hj; omega)

/-- Settles O31: after `wInit` the bits written are `writtenBits`, and `finish` packs them. -/
theorem writerLaw : Obligations.WriterLaw := by
  refine ⟨fun s t bs h => ?_, fun s bs hcap => ?_⟩
  · have hempty : (wInit s).ctx.wN < 8 := Nat.zero_lt_succ 7
    have hw := writeBits_wrote h
    have hbits : writtenBits t = bs := by rw [writeBits_written hempty h, writtenBits_wInit, List.nil_append]
    have hstored (j : Nat) (hj : j < t.outN) : (memGet t.outMem j).isSome = true := hw.stored j (Nat.zero_le j) hj
    obtain ⟨hn, hplace⟩ := hw.place hempty
    have hcount : 8 * t.outN + t.ctx.wN = bs.length := by simpa [wInit] using hplace
    have hacc : t.ctx.wAcc.toNat < 2 ^ t.ctx.wN := hw.acc hempty Nat.one_pos
    have htotal : t.ctx.wTotal = bs.length := hw.total.trans (Nat.zero_add _)
    refine ⟨htotal, by omega, by omega, fun j hj => ?_, ?_, fun u hu => ?_⟩
    · obtain ⟨b, hb⟩ := Option.isSome_iff_exists.1 (hstored j hj)
      have hblock : (emitted t)[j]? = some b := (emitted_getElem? hj (hstored j hj)).trans hb
      rw [hb, ← hbits, writtenBits_eq, byteOfBits_block _ hblock]
    · have hrest : bs.drop (8 * t.outN) = uintBits t.ctx.wAcc.toNat t.ctx.wN := by
        rw [← hbits, writtenBits_eq, drop_bytesBits_append _ (emitted_length t).ge, ← emitted_length, List.drop_length]
        rfl
      rw [hrest, byteOfBits, natOfBits_uintBits, Nat.mod_eq_of_lt hacc, BitVec.ofNat_toNat, BitVec.setWidth_eq]
    · have hpack : emitted u = packBits bs := by rw [finish_emitted hn hu, hbits]
      refine ⟨?_, (finish_wTotal hu).trans htotal, fun j hj => ?_⟩
      · rw [← packBits_length, ← hpack, emitted_length]
      · rw [← emitted_getElem? hj (finish_stored hstored hu j hj), hpack]
  · obtain ⟨t, ht⟩ := writeBits_unbounded (s := wInit s) bs hcap
    have hp : t.params = s.params := by rw [(writeBits_wrote ht).same]; rfl
    obtain ⟨u, hu⟩ := finish_unbounded (hp ▸ hcap)
    exact ⟨t, u, ht, hu⟩

end Sys2Proof.Machine
end

section
/-! PROOF. O34: the frequency list (R150, R152, R153). The rows of the input bytes are read off `firstSeen` and
`List.count`: counting one more byte raises the count in its row, or adds a row with count 1. -/

namespace Sys2Proof.Machine

/-- The row of a byte value in the frequency list of `data` (R150). -/
def byteRow (data : List Byte) (v : Byte) : FEntry := ⟨v, data.count v, false⟩

theorem mem_firstSeen {v : Byte} {data : List Byte} : v ∈ firstSeen data ↔ v ∈ data := by
  induction data using List.reverseRecOn with
  | nil => rfl
  | append_singleton data b ih =>
    rw [firstSeen_append_singleton, List.mem_append, List.mem_singleton]
    split
    · next hb =>
      have hmem : v = b → v ∈ data := fun h => h ▸ ih.1 (h ▸ hb)
      rw [ih, or_iff_left_of_imp hmem]
    · rw [List.mem_append, List.mem_singleton, ih]

/-- One more occurrence of another value leaves a row as it is. -/
theorem byteRow_append_ne {data : List Byte} {v b : Byte} (h : v ≠ b) : byteRow (data ++ [b]) v = byteRow data v := by
  simp [byteRow, Ne.symm h]

theorem map_byteRow_append_notMem {data seen : List Byte} {b : Byte} (h : b ∉ seen) :
    seen.map (byteRow (data ++ [b])) = seen.map (byteRow data) :=
  List.map_congr_left fun _ hv => byteRow_append_ne fun he => h (he ▸ hv)

/-- A byte that has a row is counted in it (R150). -/
theorem countByte_map_byteRow_mem {data seen : List Byte} {b : Byte} (hn : seen.Nodup) (hb : b ∈ seen) :
    countByte b (seen.map (byteRow data)) = seen.map (byteRow (data ++ [b])) := by
  induction seen with
  | nil => cases hb
  | cons v vs ih =>
    obtain ⟨hv, hvs⟩ := List.nodup_cons.1 hn
    rw [List.map_cons, List.map_cons, countByte]
    by_cases hvb : v = b
    · subst hvb
      rw [map_byteRow_append_notMem hv, if_pos ⟨rfl, rfl⟩]
      simp [byteRow]
    · have hmem : b ∈ vs := (List.mem_cons.1 hb).resolve_left (Ne.symm hvb)
      rw [if_neg fun h => hvb h.2, ih hvs hmem, byteRow_append_ne hvb]

/-- A byte that has no row gets one at the end, with count 1 (R150). -/
theorem countByte_notMem {b : Byte} {ft : List FEntry} (h : b ∉ ft.map FEntry.value) :
    countByte b ft = ft ++ [⟨b, 1, false⟩] := by
  induction ft with
  | nil => rfl
  | cons r rs ih =>
    obtain ⟨hr, hrs⟩ := not_or.1 (mt List.mem_cons.2 h)
    rw [countByte, if_neg fun hrow => hr hrow.2.symm, ih hrs, List.cons_append]

/-- The rows of the input bytes: the values in first-occurrence order, each with its number of occurrences (R150). -/
theorem byteRows_eq (data : List Byte) : byteRows data = (firstSeen data).map (byteRow data) := by
  induction data using List.reverseRecOn with
  | nil => rfl
  | append_singleton data b ih =>
    rw [byteRows_append_singleton, firstSeen_append_singleton]
    split
    · next hb => rw [ih, countByte_map_byteRow_mem (firstSeen_nodup data) hb]
    · next hb =>
      have hzero : data.count b = 0 := List.count_eq_zero_of_not_mem (mt mem_firstSeen.2 hb)
      have hnew : byteRow (data ++ [b]) b = ⟨b, 1, false⟩ := by simp [byteRow, hzero]
      rw [countByte_notMem (byteRows_values data ▸ hb), ih, List.map_append, map_byteRow_append_notMem hb,
        List.map_singleton, hnew]

/-- Counting a byte adds one to the sum of the counts. -/
theorem countByte_sum (b : Byte) (ft : List FEntry) :
    ((countByte b ft).map FEntry.count).sum = (ft.map FEntry.count).sum + 1 := by
  induction ft with
  | nil => rfl
  | cons r rs ih =>
    rw [countByte]
    split
    · simp only [List.map_cons, List.sum_cons]; omega
    · simp only [List.map_cons, List.sum_cons, ih]; omega

/-- The counts of the rows add up to the length of the input (R153). -/
theorem byteRows_sum (data : List Byte) : ((byteRows data).map FEntry.count).sum = data.length := by
  induction data using List.reverseRecOn with
  | nil => rfl
  | append_singleton data b ih =>
    rw [byteRows_append_singleton, countByte_sum, ih, List.length_append, List.length_singleton]

/-- Settles O34, by induction on the input, one byte more at its end: `byteRows_eq` gives the rows, and the EOB row adds
nothing to the counts. -/
theorem frequenciesInFirstOccurrenceOrder : Obligations.FrequenciesInFirstOccurrenceOrder := by
  intro data
  have hrows : analyzeAll data = (firstSeen data).map (byteRow data) ++ [eobRow] := by
    rw [analyzeAll_eq, byteRows_eq]
  have hsum : ((analyzeAll data).map FEntry.count).sum = data.length := by
    rw [analyzeAll_eq, List.map_append, List.sum_append, byteRows_sum]
    rfl
  have hlen := analyzeAll_length data
  have hle := firstSeen_length_le_256 data
  exact ⟨hrows, firstSeen_nodup data, fun _ => mem_firstSeen, hsum, by omega, by omega⟩

end Sys2Proof.Machine
end

section
/-! PROOF. O35, O36 and O37: the stable sort and the merge (R161, R162, R164). A sorted list is determined by its
entries of each weight in their order, and inserting an entry ahead of its equals keeps that order. -/

namespace Sys2Proof.Machine

/-! ### The stable sort -/

/-- Weights ascend. -/
def Ascending (l : List Entry) : Prop := l.Pairwise fun a b => a.weight ≤ b.weight

theorem ascending_cons {e : Entry} {l : List Entry} :
    Ascending (e :: l) ↔ (∀ x ∈ l, e.weight ≤ x.weight) ∧ Ascending l := List.pairwise_cons

/-- The entries of one weight, in their order. -/
def ofWeight (w : Nat) (l : List Entry) : List Entry := l.filter fun e => e.weight = w

theorem mem_ofWeight {w : Nat} {e : Entry} {l : List Entry} : e ∈ ofWeight w l ↔ e ∈ l ∧ e.weight = w := by
  simp [ofWeight]

theorem ofWeight_cons (w : Nat) (e : Entry) (l : List Entry) :
    ofWeight w (e :: l) = if e.weight = w then e :: ofWeight w l else ofWeight w l := by
  simp [ofWeight, List.filter_cons]

theorem insertAhead_ascending (e : Entry) {l : List Entry} (h : Ascending l) : Ascending (insertAhead e l) := by
  induction l with
  | nil => exact List.pairwise_singleton ..
  | cons x xs ih =>
    obtain ⟨hx, hxs⟩ := ascending_cons.1 h
    unfold insertAhead
    split
    · next he =>
      exact ascending_cons.2 ⟨List.forall_mem_cons.2 ⟨he, fun y hy => he.trans (hx y hy)⟩, h⟩
    · next he =>
      refine ascending_cons.2 ⟨fun y hy => ?_, ih hxs⟩
      obtain rfl | hy := mem_insertAhead.1 hy
      · omega
      · exact hx y hy

theorem stableSort_ascending (l : List Entry) : Ascending (stableSort l) := by
  induction l with
  | nil => exact List.Pairwise.nil
  | cons e es ih => exact insertAhead_ascending e ih

/-- Inserting ahead of the first entry that is not lighter passes no entry of the same weight. -/
theorem ofWeight_insertAhead (w : Nat) (e : Entry) (l : List Entry) :
    ofWeight w (insertAhead e l) = ofWeight w (e :: l) := by
  induction l with
  | nil => rfl
  | cons x xs ih =>
    unfold insertAhead
    split
    · rfl
    · next hx =>
      rw [ofWeight_cons, ih, ofWeight_cons, ofWeight_cons, ofWeight_cons]
      by_cases he : e.weight = w
      · have hxw : x.weight ≠ w := by omega
        simp [he, hxw]
      · simp [he]

/-- Sorting keeps entries of equal weight in their order (R161). -/
theorem ofWeight_stableSort (w : Nat) (l : List Entry) : ofWeight w (stableSort l) = ofWeight w l := by
  induction l with
  | nil => rfl
  | cons e es ih => rw [stableSort, ofWeight_insertAhead, ofWeight_cons, ofWeight_cons, ih]

/-- The first entry of an ascending list is no heavier than any entry of a list with the same entries. -/
theorem Ascending.head_le {a x : Entry} {l m : List Entry} (h : Ascending (a :: l))
    (hw : ∀ w, ofWeight w (a :: l) = ofWeight w m) (hx : x ∈ m) : a.weight ≤ x.weight := by
  have hmem : x ∈ ofWeight x.weight (a :: l) := hw x.weight ▸ mem_ofWeight.2 ⟨hx, rfl⟩
  obtain rfl | hl := List.mem_cons.1 (mem_ofWeight.1 hmem).1
  · exact le_rfl
  · exact (ascending_cons.1 h).1 x hl

/-- An ascending list is determined by its entries of each weight. -/
theorem Ascending.eq_of_ofWeight {l m : List Entry} (hl : Ascending l) (hm : Ascending m)
    (hw : ∀ w, ofWeight w l = ofWeight w m) : l = m := by
  induction l generalizing m with
  | nil =>
    refine (List.eq_nil_iff_forall_not_mem.2 fun x hx => ?_).symm
    have hmem : x ∈ ofWeight x.weight [] := hw x.weight ▸ mem_ofWeight.2 ⟨hx, rfl⟩
    cases hmem
  | cons a l ih =>
    have ha : a ∈ m := (mem_ofWeight.1 (hw a.weight ▸ mem_ofWeight.2 ⟨List.mem_cons_self .., rfl⟩)).1
    match m, ha with
    | b :: m, ha =>
      have hab : a.weight = b.weight :=
        le_antisymm (hl.head_le hw (List.mem_cons_self ..)) (hm.head_le (fun w => (hw w).symm) (List.mem_cons_self ..))
      have hhead := hw a.weight
      rw [ofWeight_cons, ofWeight_cons, if_pos rfl, if_pos hab.symm] at hhead
      obtain rfl : a = b := (List.cons.inj hhead).1
      have htail : ∀ w, ofWeight w l = ofWeight w m := fun w => by
        have hcons := hw w
        rw [ofWeight_cons, ofWeight_cons] at hcons
        split at hcons
        · exact (List.cons.inj hcons).2
        · exact hcons
      rw [ih (ascending_cons.1 hl).2 (ascending_cons.1 hm).2 htail]

/-- Settles O35: the uniqueness is that of ascending lists with the same entries of each weight. -/
theorem stableSortResult : Obligations.StableSortResult := fun wl =>
  ⟨stableSort_perm wl, stableSort_ascending wl, fun w => ofWeight_stableSort w wl, fun _ hl hw =>
    Ascending.eq_of_ofWeight hl (stableSort_ascending wl) fun w => (hw w).trans (ofWeight_stableSort w wl).symm⟩

/-! ### The merge -/

/-- Settles O36: the first two entries of the sorted list are the two lightest. -/
theorem mergeJoinsTwoLightest : Obligations.MergeJoinsTwoLightest := by
  intro wl h
  obtain ⟨min, second, rest, hs, hm⟩ := mergeStep_eq h
  obtain ⟨hmin, hsorted⟩ := ascending_cons.1 (hs ▸ stableSort_ascending wl)
  exact ⟨min, second, rest, hs, hmin second (List.mem_cons_self ..), (ascending_cons.1 hsorted).1, hm,
    mergeStep_length h⟩

/-! ### Sorting again -/

theorem insertAhead_of_le {e : Entry} {l : List Entry} (h : ∀ x ∈ l, e.weight ≤ x.weight) :
    insertAhead e l = e :: l := by
  cases l with
  | nil => rfl
  | cons x xs => rw [insertAhead, if_pos (h x (List.mem_cons_self ..))]

theorem insertBehind_of_lt {e : Entry} {l : List Entry} (h : ∀ x ∈ l, e.weight < x.weight) :
    insertBehind e l = e :: l := by
  cases l with
  | nil => rfl
  | cons x xs => rw [insertBehind, if_neg (Nat.not_le.2 (h x (List.mem_cons_self ..)))]

theorem mem_insertBehind {x e : Entry} {l : List Entry} : x ∈ insertBehind e l ↔ x = e ∨ x ∈ l := by
  induction l with
  | nil => rw [insertBehind, List.mem_singleton, or_iff_left List.not_mem_nil]
  | cons y ys ih =>
    unfold insertBehind
    split
    · rw [List.mem_cons, ih, List.mem_cons, or_left_comm]
    · rw [List.mem_cons]

/-- Settles O37, by induction on the sorted list: its first entry stays first, or the appended entry is lighter than
all of them. -/
theorem resortIsInsertion : Obligations.ResortIsInsertion := by
  intro wl e h
  induction wl with
  | nil => rfl
  | cons x xs ih =>
    obtain ⟨hx, hxs⟩ := ascending_cons.1 h
    rw [List.cons_append, stableSort, ih hxs, insertBehind]
    split
    · next hle =>
      refine insertAhead_of_le fun y hy => ?_
      obtain rfl | hy := mem_insertBehind.1 hy
      · exact hle
      · exact hx y hy
    · next hlt =>
      rw [insertBehind_of_lt fun y hy => (Nat.not_le.1 hlt).trans_le (hx y hy), insertAhead, if_neg hlt,
        insertAhead_of_le hx]

end Sys2Proof.Machine
end

section
/-! PROOF. O38: the shape of the built tree (R166, R35). What adds up over the two children of a node keeps its sum
over the working list, so the tree has the sum over the frequency list's leaves. -/

namespace Sys2Proof.Machine

/-- The entry of a byte value in the first working list (R160). -/
def byteEntry (data : List Byte) (v : Byte) : Entry := ⟨.leaf v false, data.count v⟩

/-- The entry of EOB in the first working list (R152, R160). -/
def eobEntry : Entry := ⟨.leaf 0x00 true, 0⟩

/-- The first working list: the byte values in first-occurrence order, then EOB (R150, R152, R160). -/
theorem initWL_analyzeAll (data : List Byte) :
    initWL (analyzeAll data) = (firstSeen data).map (byteEntry data) ++ [eobEntry] := by
  rw [analyzeAll_eq, byteRows_eq, initWL, List.map_append, List.map_map]
  rfl

/-! ### Sums over the working list -/

section
variable {M : Type} [AddCommMonoid M]

/-- The sum of a quantity over the trees of a working list. -/
def forestSum (f : Node → M) (wl : List Entry) : M := (wl.map fun e => f e.node).sum

theorem forestSum_perm (f : Node → M) {l m : List Entry} (h : l.Perm m) : forestSum f l = forestSum f m :=
  (h.map _).sum_eq

/-- A merge keeps the sum of what adds up over a node's children (R162). -/
theorem forestSum_mergeStep {f : Node → M} (hf : ∀ l r, f (.internal l r) = f l + f r) {wl : List Entry}
    (h : 2 ≤ wl.length) : forestSum f (mergeStep wl) = forestSum f wl := by
  obtain ⟨min, second, rest, hs, hm⟩ := mergeStep_eq h
  rw [hm, ← forestSum_perm f (stableSort_perm wl), hs]
  simp only [forestSum, mergePair, hf, List.map_append, List.map_cons, List.map_nil, List.sum_append, List.sum_cons,
    List.sum_nil]
  abel

/-- What adds up over a node's children is in the tree the sum over the leaves of the frequency list (R163). -/
theorem treeOf_sum {f : Node → M} (hf : ∀ l r, f (.internal l r) = f l + f r) (data : List Byte) :
    f (treeOf data) = ((firstSeen data).map fun v => f (.leaf v false)).sum + f (.leaf 0x00 true) := by
  obtain ⟨e, he, hsum⟩ := treeOf_induction (P := fun wl => forestSum f wl = forestSum f (initWL (analyzeAll data))) data
    (fun _ h2 h => (forestSum_mergeStep hf h2).trans h) rfl
  rw [initWL_analyzeAll] at hsum
  simpa [he, forestSum, byteEntry, eobEntry, Function.comp_def] using hsum

end

/-! ### The shape -/

theorem treeOf_eobLeaves (data : List Byte) : (treeOf data).eobLeaves = 1 := by
  rw [treeOf_sum (f := Node.eobLeaves) fun _ _ => rfl]
  simp [Node.eobLeaves]

/-- The leaves that are not EOB's have the distinct input bytes as their values (R166). -/
theorem treeOf_values_perm (data : List Byte) : (treeOf data).values.Perm (firstSeen data) := by
  rw [← Multiset.coe_eq_coe, treeOf_sum (f := fun t => (t.values : Multiset Byte)) fun l r =>
    (Multiset.coe_add l.values r.values).symm]
  exact (add_zero _).trans (Multiset.sum_map_singleton (firstSeen data : Multiset Byte))

/-- A path to a leaf passes at least one other leaf for each inner node on it. -/
theorem depth_le_leaves (t : Node) : t.depth ≤ t.leaves := by
  induction t with
  | leaf v e => exact le_rfl
  | internal l r ihl ihr =>
    have hl := one_le_leaves l
    have hr := one_le_leaves r
    simp only [Node.depth, Node.leaves]
    omega

/-- Settles O38: size and depth follow from the number of leaves; EOB leaves and values add up over the merges. -/
theorem builtTreeShape : Obligations.BuiltTreeShape := by
  intro data
  have hleaves := treeOf_leaves data
  have hmax := treeOf_leaves_le_257 data
  have hsize := size_add_one (treeOf data)
  have hdepth := depth_le_leaves (treeOf data)
  exact ⟨hleaves, hleaves ▸ hsize, by omega, hleaves ▸ hdepth, treeOf_eobLeaves data, treeOf_values_perm data⟩

end Sys2Proof.Machine
end

section
/-! PROOF. O39 and O40: the first merge (R165, R167, R168). EOB has weight 0 and every byte that occurs a greater one,
so EOB is the lightest entry of the first working list and becomes a right child, or the root of the empty input. -/

namespace Sys2Proof.Machine

theorem firstSeen_eq_nil_iff {data : List Byte} : firstSeen data = [] ↔ data = [] := by
  simp only [List.eq_nil_iff_forall_not_mem, mem_firstSeen]

/-- An appended entry that is lighter than all others is sorted to the front (R161). -/
theorem stableSort_append_lightest {e : Entry} {l : List Entry} (h : ∀ x ∈ l, e.weight < x.weight) :
    stableSort (l ++ [e]) = e :: stableSort l := by
  induction l with
  | nil => rfl
  | cons x xs ih =>
    obtain ⟨hx, hxs⟩ := List.forall_mem_cons.1 h
    rw [List.cons_append, stableSort, ih hxs, insertAhead, if_neg (Nat.not_le.2 hx), stableSort]

/-- EOB is the lightest entry of the first working list (R152, R165). -/
theorem stableSort_initWL (data : List Byte) :
    stableSort (initWL (analyzeAll data)) = eobEntry :: stableSort ((firstSeen data).map (byteEntry data)) := by
  rw [initWL_analyzeAll]
  refine stableSort_append_lightest (List.forall_mem_map.2 fun v hv => ?_)
  exact List.count_pos_iff.2 (mem_firstSeen.1 hv)

/-! ### The degenerate trees -/

theorem leaves_eq_one_iff {t : Node} : t.leaves = 1 ↔ ∃ v e, t = .leaf v e := by
  cases t with
  | leaf v e => exact ⟨fun _ => ⟨v, e, rfl⟩, fun _ => rfl⟩
  | internal l r =>
    have hl := one_le_leaves l
    have hr := one_le_leaves r
    simp only [Node.leaves, reduceCtorEq, exists_false, iff_false]
    omega

/-- Only the empty input has a leaf as its root (R167). -/
theorem treeOf_leaf_iff (data : List Byte) : (∃ v e, treeOf data = .leaf v e) ↔ data = [] := by
  rw [← leaves_eq_one_iff, treeOf_leaves, analyzeAll_length, Nat.add_eq_right, List.length_eq_zero_iff,
    firstSeen_eq_nil_iff]

theorem firstSeen_replicate (v : Byte) (n : Nat) : firstSeen (List.replicate (n + 1) v) = [v] := by
  induction n with
  | zero => rfl
  | succ n ih => rw [List.replicate_succ', firstSeen_append_singleton, ih, if_pos (List.mem_singleton_self v)]

/-- One distinct value: a single merge, EOB the right child (R168). -/
theorem treeOf_replicate (v : Byte) (n : Nat) :
    treeOf (List.replicate (n + 1) v) = .internal (.leaf v false) (.leaf 0x00 true) := by
  have hlen : (analyzeAll (List.replicate (n + 1) v)).length = 2 := by rw [analyzeAll_length, firstSeen_replicate]; rfl
  have hinit := initWL_analyzeAll (List.replicate (n + 1) v)
  have hsort := stableSort_initWL (List.replicate (n + 1) v)
  rw [hinit, firstSeen_replicate] at hsort
  rw [treeOf, buildTree, hlen, hinit, firstSeen_replicate]
  simp only [List.map_cons, List.map_nil, List.cons_append, List.nil_append] at hsort ⊢
  rw [mergeAll, mergeStep, hsort]
  rfl

/-- Settles O39: a leaf root is a tree with one leaf; for one distinct value the tree and its two codes are computed. -/
theorem degenerateTrees : Obligations.DegenerateTrees := by
  refine ⟨treeOf_leaf_iff, rfl, fun v n hn => ?_⟩
  obtain ⟨m, rfl⟩ := Nat.exists_eq_add_of_le' hn
  rw [treeOf_replicate]
  exact ⟨rfl, (tabGet_tabSet v.toNat v.toNat [false] []).trans (if_pos rfl), rfl⟩

/-! ### EOB is a right child -/

/-- Every EOB leaf of the tree is a right child. -/
def EobOnRight : Node → Prop
  | .leaf _ e => e = false
  | .internal l r => EobOnRight l ∧ (EobOnRight r ∨ ∃ v, r = .leaf v true)

theorem stableSort_forall {P : Entry → Prop} {l : List Entry} : (∀ e ∈ stableSort l, P e) ↔ ∀ e ∈ l, P e := by
  simp only [mem_stableSort]

/-- A merge keeps EOB leaves right children (R162). -/
theorem mergeStep_eobOnRight {wl : List Entry} (h2 : 2 ≤ wl.length) (h : ∀ e ∈ wl, EobOnRight e.node) :
    ∀ e ∈ mergeStep wl, EobOnRight e.node := by
  obtain ⟨min, second, rest, hs, hm⟩ := mergeStep_eq h2
  rw [← stableSort_forall, hs, List.forall_mem_cons, List.forall_mem_cons] at h
  obtain ⟨hmin, hsecond, hrest⟩ := h
  rw [hm, List.forall_mem_append]
  exact ⟨hrest, List.forall_mem_singleton.2 ⟨hsecond, .inl hmin⟩⟩

/-- The first merge makes the EOB leaf a right child (R165). -/
theorem mergeStep_initWL_eobOnRight {data : List Byte} (h2 : 2 ≤ (initWL (analyzeAll data)).length) :
    ∀ e ∈ mergeStep (initWL (analyzeAll data)), EobOnRight e.node := by
  obtain ⟨min, second, rest, hs, hm⟩ := mergeStep_eq h2
  obtain ⟨rfl, hbytes⟩ := List.cons.inj ((stableSort_initWL data).symm.trans hs)
  have hleaves : ∀ e ∈ (firstSeen data).map (byteEntry data), EobOnRight e.node := List.forall_mem_map.2 fun _ _ => rfl
  rw [← stableSort_forall, hbytes, List.forall_mem_cons] at hleaves
  obtain ⟨hsecond, hrest⟩ := hleaves
  rw [hm, List.forall_mem_append]
  exact ⟨hrest, List.forall_mem_singleton.2 ⟨hsecond, .inr ⟨0x00, rfl⟩⟩⟩

/-- For a non-empty input the EOB leaf is a right child (R165). -/
theorem treeOf_eobOnRight {data : List Byte} (h : data ≠ []) : EobOnRight (treeOf data) := by
  obtain ⟨e, he, hP⟩ := treeOf_induction
    (P := fun wl => wl = initWL (analyzeAll data) ∨ ∀ e ∈ wl, EobOnRight e.node) data
    (fun wl h2 hwl => .inr <| hwl.elim (fun hinit => hinit ▸ mergeStep_initWL_eobOnRight (hinit ▸ h2))
      (mergeStep_eobOnRight h2)) (.inl rfl)
  rw [he]
  obtain hinit | hright := hP
  · have hlen := congrArg List.length hinit
    rw [initWL, List.length_map, analyzeAll_length, List.length_singleton] at hlen
    exact absurd (List.length_eq_zero_iff.1 (by omega)) (mt firstSeen_eq_nil_iff.1 h)
  · exact hright e (List.mem_singleton_self e)

/-- Where EOB leaves are right children the walk leaves `EOBCODE` alone or sets it to a code that ends in 1 (R180). -/
theorem walkCodes_eob_cases (n : Node) (h : EobOnRight n) (p : Bits) (t : CodeTable) :
    (walkCodes n p t).eob = t.eob ∨ ∃ code, (walkCodes n p t).eob = some (code ++ [true]) := by
  induction n generalizing p t with
  | leaf v e =>
    obtain rfl : e = false := h
    exact .inl rfl
  | internal l r ihl ihr =>
    obtain ⟨hl, hr | ⟨v, rfl⟩⟩ := h
    · rw [walkCodes]
      obtain hkept | hset := ihr hr (p ++ [true]) (walkCodes l (p ++ [false]) t)
      · rw [hkept]
        exact ihl hl _ _
      · exact .inr hset
    · refine .inr ⟨p, ?_⟩
      cases p <;> rfl

/-- Settles O40: the table starts without a code for EOB, and the walk sets one. -/
theorem eobCodeEndsInOne : Obligations.EobCodeEndsInOne := by
  intro data h
  have hset : (generate (treeOf data)).eob.isSome = true :=
    (walkCodes_sets (treeOf data) [] emptyTable).2 (.inl (by rw [treeOf_eobLeaves]; exact Nat.one_pos))
  obtain hnone | hone := walkCodes_eob_cases (treeOf data) (treeOf_eobOnRight h) [] emptyTable
  · rw [generate, hnone] at hset
    cases hset
  · exact hone

end Sys2Proof.Machine
end

section
/-! PROOF. O59: every code lookup succeeds (R184, R153). Where the lookups succeed ENGINE always has a next state, so
only HOST's misuse of `IN` stops a step. The invariant says one thing per phase of ENCODE and nothing elsewhere; ENCODE
is entered by its start step alone, and while it runs nothing changes the input. -/

namespace Sys2Proof.Machine

/-! ### The invariant phase by phase -/

/-- The input bytes counted so far have a row (R150). -/
def CountedHaveRows (s : State) : Prop :=
  ∀ k < s.ctx.eIdx, ∃ r ∈ s.ctx.ft, r.isEob = false ∧ r.value = inByte s k

/-- The trees the builder has in hand: those of `WL`, or the leaves `initWL` will make (R160, R163). -/
def treesInHand (c : Context) : List Node :=
  match c.wl with
  | [] => (initWL c.ft).map Entry.node
  | e :: es => (e :: es).map Entry.node

theorem treesInHand_of_ne_nil {c : Context} (h : c.wl ≠ []) : treesInHand c = c.wl.map Entry.node := by
  unfold treesInHand
  split
  · next hwl => exact absurd hwl h
  · next hwl => rw [hwl]

/-- Every byte of the input, and EOB, has a code (R182, R184). -/
def HasCodes (s : State) : Prop :=
  (∀ b ∈ inData s, (codeOf s.ctx.ct b).isSome = true) ∧ s.ctx.eobCode.isSome = true

theorem codeInv_iff (s : State) : CodeInv s ↔
    match s.phase with
    | .eFreq => s.ctx.wl = [] ∧ CountedHaveRows s
    | .eBuild => Covers s (treesInHand s.ctx)
    | .eCodes => Covers s [s.ctx.root]
    | .eTree | .eData | .eEob => HasCodes s
    | .idle | .eFinish | .dTree | .dCheck | .dWalk | .done | .fault => True := by
  cases hp : s.phase
  case eBuild => cases hwl : s.ctx.wl <;> simp [CodeInv, treesInHand, hp, hwl]
  all_goals simp [CodeInv, CountedHaveRows, HasCodes, hp]

/-- Outside ENCODE no code is looked up. -/
theorem CodeInv.of_not_encoding {s : State} (h : s.phase.encoding = false) : CodeInv s := by
  rw [codeInv_iff]
  cases hp : s.phase <;> simp [Phase.encoding, hp] at h ⊢

theorem Phase.encoding_of_not_busy {p : Phase} : p.busy = false → p.encoding = false := by
  cases p <;> decide

/-- ENGINE enters no phase of ENCODE from outside it, nor from its last (R43). -/
theorem Phase.next_not_encoding {p : Phase} :
    p.encoding = false ∨ p = .eFinish → ∀ q ∈ p.next, q.encoding = false := by
  cases p <;> decide

theorem mem_inData {s : State} {b : Byte} : b ∈ inData s ↔ ∃ k < s.inLen, inByte s k = b := by
  simp [inData]

theorem inByte_mem_inData {s : State} {k : Nat} (h : k < s.inLen) : inByte s k ∈ inData s :=
  mem_inData.2 ⟨k, h, rfl⟩

/-! ### From rows to leaves to codes -/

theorem CountedHaveRows.zero {s : State} (h : s.ctx.eIdx = 0) : CountedHaveRows s :=
  fun k hk => absurd hk (by omega)

/-- Counting the next byte gives it a row, and each row counted before is still there (R150). -/
theorem CountedHaveRows.count {s : State} (h : CountedHaveRows s) :
    CountedHaveRows (s.withCtx { s.ctx with
      ft := countByte (inByte s s.ctx.eIdx) s.ctx.ft, eIdx := s.ctx.eIdx + 1 }) := by
  obtain ⟨hnew, hkeep⟩ := countByte_rows (inByte s s.ctx.eIdx) s.ctx.ft
  intro k hk
  obtain hlt | rfl := Nat.lt_succ_iff_lt_or_eq.1 hk
  · obtain ⟨r, hr, heob, hval⟩ := h k hlt
    obtain ⟨r', hr', heob', hval'⟩ := hkeep r hr
    exact ⟨r', hr', heob'.trans heob, hval'.trans hval⟩
  · exact hnew

/-- When all bytes are counted and the EOB row is added, the leaves of the rows cover the input (R152, R160). -/
theorem CountedHaveRows.covers {s : State} (h : CountedHaveRows s) (hall : s.inLen ≤ s.ctx.eIdx) :
    Covers s ((initWL (s.ctx.ft ++ [eobRow])).map Entry.node) := by
  have hleaf : ∀ r ∈ s.ctx.ft ++ [eobRow],
      Node.leaf r.value r.isEob ∈ (initWL (s.ctx.ft ++ [eobRow])).map Entry.node := fun r hr => by
    rw [initWL, List.map_map]
    exact List.mem_map_of_mem hr
  refine ⟨fun b hb => ?_, _, hleaf eobRow (by simp), Nat.one_pos⟩
  obtain ⟨k, hk, rfl⟩ := mem_inData.1 hb
  obtain ⟨r, hr, heob, hval⟩ := h k (by omega)
  exact ⟨_, hleaf r (List.mem_append_left _ hr), by simp [Node.values, heob, hval]⟩

/-- A list of trees that has the leaves of another covers what that one covers. -/
theorem Covers.mono {s : State} {ts us : List Node} (h : Covers s ts)
    (hsub : ∀ t ∈ ts, ∃ u ∈ us, t.values ⊆ u.values ∧ t.eobLeaves ≤ u.eobLeaves) : Covers s us := by
  obtain ⟨hbytes, t, ht, heob⟩ := h
  refine ⟨fun b hb => ?_, ?_⟩
  · obtain ⟨t, ht, hbt⟩ := hbytes b hb
    obtain ⟨u, hu, hval, -⟩ := hsub t ht
    exact ⟨u, hu, hval hbt⟩
  · obtain ⟨u, hu, -, hle⟩ := hsub t ht
    exact ⟨u, hu, heob.trans_le hle⟩

/-- A merge keeps every leaf: the two lightest trees become children of the new one (R162). -/
theorem Covers.merge {s : State} {wl : List Entry} (h2 : 2 ≤ wl.length) (h : Covers s (wl.map Entry.node)) :
    Covers s ((mergeStep wl).map Entry.node) := by
  obtain ⟨min, second, rest, hs, hm⟩ := mergeStep_eq h2
  refine h.mono (List.forall_mem_map.2 ?_)
  rw [hm, ← stableSort_forall, hs, List.forall_mem_cons, List.forall_mem_cons]
  have hnew : (mergePair min second).node ∈ (rest ++ [mergePair min second]).map Entry.node := by simp
  refine ⟨⟨_, hnew, List.subset_append_right .., Nat.le_add_left ..⟩,
    ⟨_, hnew, List.subset_append_left .., Nat.le_add_right ..⟩, fun e he => ⟨e.node, ?_, List.Subset.refl _, le_rfl⟩⟩
  exact List.mem_map_of_mem (List.mem_append_left _ he)

/-- Some tree must hold EOB. -/
theorem not_covers_nil (s : State) : ¬ Covers s [] := by
  rintro ⟨-, t, ht, -⟩
  cases ht

/-- `generate` gives a code to every leaf of the tree (R180, R182). -/
theorem generate_covers {s : State} {root : Node} (h : Covers s [root]) :
    (∀ b ∈ inData s, (codeOf (generate root).slots b).isSome = true) ∧ (generate root).eob.isSome = true := by
  obtain ⟨hslots, heob⟩ := walkCodes_sets root [] emptyTable
  obtain ⟨hbytes, hone⟩ := h
  simp only [List.mem_singleton, exists_eq_left] at hbytes hone
  exact ⟨fun b hb => hslots b (.inl (hbytes b hb)), heob (.inl hone)⟩

/-- Writing bits changes neither the input nor the codes. -/
theorem WroteTo.hasCodes {s u : State} {n : Nat} (h : WroteTo s u n) (hs : HasCodes s) : HasCodes u := by
  rw [h.same]
  exact hs

/-! ### ENGINE keeps the invariant -/

section
variable {s t : State}

theorem Fails.codeInv (h : Fails s t) : CodeInv t :=
  .of_not_encoding (by rw [h.phase]; rfl)

theorem analyzeStep_codeInv (hp : s.phase = .eFreq) (hs : CodeInv s) (h : analyzeStep s = .next t) : CodeInv t := by
  simp only [codeInv_iff, hp] at hs
  obtain ⟨hwl, hrows⟩ := hs
  rw [codeInv_iff]
  rcases analyzeStep_next h with ⟨-, rfl⟩ | ⟨hall, rfl⟩
  · simp only [State.withCtx_phase, hp]
    exact ⟨hwl, hrows.count⟩
  · simp only [State.withPhase_phase, State.withPhase_ctx, State.withCtx_ctx, treesInHand, hwl]
    exact hrows.covers hall

theorem buildStep_codeInv (hp : s.phase = .eBuild) (hs : CodeInv s) (h : buildStep s = .next t) : CodeInv t := by
  simp only [codeInv_iff, hp] at hs
  rw [codeInv_iff]
  rcases buildStep_next h with ⟨hwl, hft, rfl⟩ | ⟨h2, rfl⟩ | ⟨e, hwl, rfl⟩
  · simp only [treesInHand, hwl] at hs
    simp only [State.withCtx_phase, State.withCtx_ctx, hp]
    rwa [treesInHand_of_ne_nil (mt List.map_eq_nil_iff.1 hft)]
  · have hlen := mergeStep_length h2
    have hne : mergeStep s.ctx.wl ≠ [] := List.ne_nil_of_length_pos (by omega)
    rw [treesInHand_of_ne_nil (List.ne_nil_of_length_pos (by omega))] at hs
    simp only [State.withCtx_phase, State.withCtx_ctx, hp]
    rw [treesInHand_of_ne_nil hne]
    exact hs.merge h2
  · simp only [treesInHand, hwl] at hs
    exact hs

theorem generateStep_codeInv (hp : s.phase = .eCodes) (hs : CodeInv s) (h : generateStep s = .next t) :
    CodeInv t := by
  simp only [codeInv_iff, hp] at hs
  cases h
  exact (codeInv_iff _).2 (generate_covers hs)

theorem writeTreeStep_codeInv (hp : s.phase = .eTree) (hs : CodeInv s) (h : writeTreeStep s = .next t) :
    CodeInv t := by
  simp only [codeInv_iff, hp] at hs
  rcases writeTreeStep_next hp h with ⟨-, rfl⟩ | ⟨n, rest, u, -, hu, rfl⟩ | hf
  · exact (codeInv_iff _).2 hs
  · have hcodes : HasCodes u := hu.hasCodes hs
    simp only [codeInv_iff, addCount, State.withCtx_phase, hu.phase_eq, hp]
    exact hcodes
  · exact hf.codeInv

theorem dataStep_codeInv (hp : s.phase = .eData) (hs : CodeInv s) (h : dataStep s = .next t) : CodeInv t := by
  simp only [codeInv_iff, hp] at hs
  rcases dataStep_next h with ⟨-, code, u, -, hu, rfl⟩ | ⟨-, rfl⟩ | hf
  · have hcodes : HasCodes u := hu.hasCodes hs
    simp only [codeInv_iff, State.withCtx_phase, hu.phase_eq, hp]
    exact hcodes
  · exact (codeInv_iff _).2 hs
  · exact hf.codeInv

theorem eobStep_codeInv (h : eobStep s = .next t) : CodeInv t := by
  rcases eobStep_next h with ⟨code, u, -, -, rfl⟩ | hf
  · exact (codeInv_iff _).2 trivial
  · exact hf.codeInv

/-- ENGINE's move keeps what the lookups need, in every phase. -/
theorem engineStep_codeInv (hs : CodeInv s) (h : engineStep s = .next t) : CodeInv t := by
  have hleave : s.phase.encoding = false ∨ s.phase = .eFinish → CodeInv t := fun hout =>
    .of_not_encoding (Phase.next_not_encoding hout _ (engineStep_move h).phase_mem_next)
  unfold engineStep at h
  cases hp : s.phase <;> simp only [hp] at h
  case eFreq => exact analyzeStep_codeInv hp hs h
  case eBuild => exact buildStep_codeInv hp hs h
  case eCodes => exact generateStep_codeInv hp hs h
  case eTree => exact writeTreeStep_codeInv hp hs h
  case eData => exact dataStep_codeInv hp hs h
  case eEob => exact eobStep_codeInv h
  case eFinish => exact hleave (.inr hp)
  case idle | dTree | dCheck | dWalk | done | fault => exact hleave (.inl (by rw [hp]; rfl))

end

/-! ### HOST keeps the invariant -/

/-- The invariant says nothing of HOST's moves, of what a read returned, and of the free values drawn. -/
theorem codeInv_with_host {s : State} (ms : List HostMove) (r d : Nat) :
    CodeInv { s with host := ms, rdata := r, draws := d } ↔ CodeInv s := Iff.rfl

theorem CodeInv.of_not_busy {s : State} (h : s.busy = false) : CodeInv s :=
  .of_not_encoding (Phase.encoding_of_not_busy h)

/-- ENCODE starts with no byte counted (R211). -/
theorem startEncode_codeInv (s : State) : CodeInv (startEncode s) :=
  (codeInv_iff _).2 ⟨rfl, .zero rfl⟩

/-- A command keeps the invariant (R250). -/
theorem exec_decodeCtrl_codeInv {w : Byte} {s t : State} (h : exec (decodeCtrl w) s = .next t) (hs : CodeInv s) :
    CodeInv t := by
  rcases decodeCtrl_cases w with hw | hw | hw | hw <;>
    simp only [hw, exec, execNop, execEncode, execDecode, execReserved] at h
  · cases h; exact hs
  · split at h <;> cases h
    · exact hs
    · exact startEncode_codeInv s
  · split at h <;> cases h
    · exact hs
    · exact .of_not_encoding rfl
  · split at h <;> cases h
    · exact hs
    · exact .of_not_encoding rfl

theorem writeReg_codeInv {n v : Nat} {s t : State} (hs : CodeInv s) (h : writeReg n v s = .next t) : CodeInv t := by
  rcases writeReg_cases n v s with ⟨-, he⟩ | ⟨-, hb, he⟩ | ⟨-, -, he⟩ <;> rw [he] at h
  · exact exec_decodeCtrl_codeInv h hs
  · cases h; exact .of_not_busy hb
  · cases h; exact hs

/-- A write of `IN` by HOST happens outside a command (R305). -/
theorem writeIn_not_busy {a : Nat} {b : Byte} {s t : State} (h : writeIn a b s = .next t) : t.busy = false := by
  unfold writeIn at h
  split at h
  · cases h
  · next hb =>
    split at h <;> cases h
    exact Bool.eq_false_of_not_eq_true hb

/-- So does the copy of ROUNDTRIP (R258, R305). -/
theorem copyBackMove_not_busy {s t : State} (h : copyBackMove s = .next t) : t.busy = false := by
  unfold copyBackMove at h
  split at h
  · cases h
  · next hb =>
    split at h <;> cases h
    rw [copyBytes_same]
    exact Bool.eq_false_of_not_eq_true hb

/-- A move of HOST, or ENGINE's that it gives the turn to, keeps the invariant. -/
theorem hostStep_codeInv {m : HostMove} {s t : State} (hs : CodeInv s) (h : hostStep m s = .next t) : CodeInv t := by
  cases m with
  | regWrite n v => exact writeReg_codeInv hs h
  | regRead n =>
    cases h
    rw [readReg_same]
    exact (codeInv_with_host s.host _ _).2 hs
  | inWrite a b => exact .of_not_busy (writeIn_not_busy h)
  | inRead a =>
    simp only [hostStep, readInMove] at h
    split at h <;> cases h
    rw [readIn_same]
    exact (codeInv_with_host s.host _ _).2 hs
  | outRead a =>
    cases h
    rw [readOut_same]
    exact (codeInv_with_host s.host _ _).2 hs
  | reset => cases h; exact .of_not_encoding rfl
  | yield => exact engineStep_codeInv hs h
  | wait =>
    rw [hostStep_wait] at h
    split at h
    · exact engineStep_codeInv ((codeInv_with_host _ s.rdata s.draws).2 hs) h
    · cases h; exact hs
  | copyBack => exact .of_not_busy (copyBackMove_not_busy h)

/-! ### Where the lookups succeed ENGINE has a next state -/

/-- An operation completes or raises a fault of the spec: it is no stop of the model. -/
def Res.Answers {α : Type} (x : Res α) : Prop := ∃ t, x.toOutcome = .next t

theorem Res.Answers.ok {α : Type} (a : α) (s : State) : (Res.ok a s).Answers := ⟨s, rfl⟩

theorem Res.Answers.raised {α : Type} (s : State) : (Res.raised s : Res α).Answers := ⟨s, rfl⟩

theorem Res.Answers.bind {α β : Type} {x : Res α} {f : α → State → Res β} (hx : x.Answers)
    (hf : ∀ a u, (f a u).Answers) : (x.bind f).Answers := by
  obtain ⟨t, ht⟩ := hx
  rcases Res.toOutcome_eq_next.1 ht with ⟨a, rfl⟩ | rfl
  · exact hf a t
  · exact .raised t

theorem emit_answers (b : Byte) (s : State) : (emit b s).Answers := by
  rcases emit_cases b s with ⟨-, he⟩ | ⟨-, he⟩ <;> rw [he]
  · exact .raised _
  · exact .ok _ _

theorem writeBits_answers (bs : Bits) (s : State) : (writeBits bs s).Answers := by
  rcases writeBits_cases bs s with ⟨t, ht⟩ | ⟨u, n, -, -, v, hr⟩
  · rw [ht]; exact .ok _ _
  · rw [hr]; exact .raised _

theorem readBit_answers (s : State) : (readBit s).Answers := by
  rcases readBit_cases s with ⟨-, hr⟩ | ⟨-, hr⟩ <;> rw [hr]
  · exact .ok _ _
  · exact .raised _

theorem enterNode_answers (s : State) : (enterNode s).Answers := by
  rcases enterNode_cases s with ⟨-, he⟩ | ⟨-, -, he⟩ | ⟨-, -, he⟩ <;> rw [he]
  · exact .raised _
  · exact .raised _
  · exact .ok _ _

theorem finish_answers (s : State) : (finish s).Answers := by
  rcases finish_cases s with ⟨u, hu, -⟩ | hr
  · rw [hu]; exact .ok _ _
  · rw [hr]; exact .raised _

/-- A token is executed where tokens are read or written (R190, R192). -/
theorem exec_token_answers {i : Instr} {s : State} (hi : i.isToken = true) (hp : s.phase = .dTree ∨ s.phase = .eTree) :
    ∃ t, exec i s = .next t := by
  have hread : ∀ f : State → State, ((enterNode s).bind fun _ u => Res.ok () (f u)).Answers := fun f =>
    (enterNode_answers s).bind fun _ _ => .ok _ _
  have hwrite : ∀ (bs : Bits) (f : State → State), ((writeBits bs s).bind fun _ u => Res.ok () (f u)).Answers :=
    fun bs f => (writeBits_answers bs s).bind fun _ _ => .ok _ _
  cases i with
  | nop | encode | decode | reserved => cases hi
  | treeInternal =>
    rcases hp with hp | hp <;> simp only [exec, execTreeInternal, hp]
    · exact hread _
    · rw [writeInternal_eq]; exact hwrite _ _
  | treeLeaf e v =>
    rcases hp with hp | hp <;> simp only [exec, execTreeLeaf, hp]
    · exact hread _
    · rw [writeLeaf_eq]; exact hwrite _ _

theorem isToken_tokenOf (n : Node) : (tokenOf n).isToken = true := by
  cases n <;> rfl

section
variable {s : State}

/-- The builder's list of trees is not empty, for it holds EOB (R153). -/
theorem buildStep_answers (h : Covers s (treesInHand s.ctx)) : ∃ t, buildStep s = .next t := by
  unfold buildStep
  split
  · next hwl =>
    split
    · next hft =>
      simp only [treesInHand, hwl, hft] at h
      exact absurd h (not_covers_nil s)
    · exact ⟨_, rfl⟩
  · exact ⟨_, rfl⟩
  · exact ⟨_, rfl⟩

theorem writeTreeStep_answers (hp : s.phase = .eTree) : ∃ t, writeTreeStep s = .next t := by
  unfold writeTreeStep
  split
  · exact ⟨_, rfl⟩
  · next n rest _ => exact exec_token_answers (isToken_tokenOf n) (.inr hp)

/-- The next input byte has a code (R184). -/
theorem dataStep_answers (h : HasCodes s) : ∃ t, dataStep s = .next t := by
  unfold dataStep
  split
  · next hlt =>
    obtain ⟨hbytes, -⟩ := h
    obtain ⟨code, hcode⟩ := Option.isSome_iff_exists.1 (hbytes _ (inByte_mem_inData hlt))
    rw [hcode]
    exact (writeBits_answers code s).bind fun _ _ => .ok _ _
  · exact ⟨_, rfl⟩

/-- EOB has a code (R184). -/
theorem eobStep_answers (h : HasCodes s) : ∃ t, eobStep s = .next t := by
  obtain ⟨-, heob⟩ := h
  obtain ⟨code, hcode⟩ := Option.isSome_iff_exists.1 heob
  unfold eobStep
  rw [hcode]
  exact (writeBits_answers code s).bind fun _ _ => .ok _ _

theorem readTreeStep_answers (hp : s.phase = .dTree) : ∃ t, readTreeStep s = .next t := by
  unfold readTreeStep
  split
  · next i hpeek =>
    have hi : i.isToken = true := by
      rcases peekToken_cases hpeek with ⟨rfl, -⟩ | ⟨e, v, rfl, -⟩ <;> rfl
    exact exec_token_answers hi (.inl hp)
  · exact (enterNode_answers s).bind fun _ _ => .raised _

theorem walkStep_answers (s : State) : ∃ t, walkStep s = .next t := by
  refine (readBit_answers s).bind fun b u => ?_
  unfold arrive
  split
  · split
    · exact .ok _ _
    · exact (emit_answers _ u).bind fun _ _ => .ok _ _
  · exact .ok _ _

/-- Where the lookups succeed ENGINE has a next state, in every phase (R184). -/
theorem engineStep_answers (hs : CodeInv s) : ∃ t, engineStep s = .next t := by
  rw [codeInv_iff] at hs
  unfold engineStep
  cases hp : s.phase <;> simp only [hp] at hs ⊢
  case idle | done | fault => exact ⟨s, rfl⟩
  case eFreq => unfold analyzeStep; split <;> exact ⟨_, rfl⟩
  case eBuild => exact buildStep_answers hs
  case eCodes => exact ⟨_, rfl⟩
  case eTree => exact writeTreeStep_answers hp
  case eData => exact dataStep_answers hs
  case eEob => exact eobStep_answers hs
  case eFinish => exact (finish_answers s).bind fun _ _ => .ok _ _
  case dTree => exact readTreeStep_answers hp
  case dCheck => unfold checkEobStep; split <;> exact ⟨_, rfl⟩
  case dWalk => exact walkStep_answers s

end

/-! ### The stops that are left are HOST's -/

/-- No command stops (R250). -/
theorem exec_decodeCtrl_answers (w : Byte) (s : State) : ∃ t, exec (decodeCtrl w) s = .next t := by
  rcases decodeCtrl_cases w with hw | hw | hw | hw <;>
    simp only [hw, exec, execNop, execEncode, execDecode, execReserved]
  · exact ⟨s, rfl⟩
  all_goals split <;> exact ⟨_, rfl⟩

theorem writeReg_answers (n v : Nat) (s : State) : ∃ t, writeReg n v s = .next t := by
  rcases writeReg_cases n v s with ⟨-, he⟩ | ⟨-, -, he⟩ | ⟨-, -, he⟩ <;> rw [he]
  · exact exec_decodeCtrl_answers _ s
  · exact ⟨_, rfl⟩
  · exact ⟨_, rfl⟩

/-- A stop that HOST's misuse of `IN` can cause (R305, R31). -/
def Fault.IsMisuse (f : Fault) : Prop := f = .inWriteWhileBusy ∨ f = .noSuchInAddress

/-- Where the lookups succeed a step stops for HOST's misuse of `IN` only. -/
theorem hostStep_fault {m : HostMove} {s : State} {f : Fault} (hs : CodeInv s) (h : hostStep m s = .fault f) :
    f.IsMisuse := by
  have hno : (∃ t, hostStep m s = .next t) → f.IsMisuse := fun ⟨t, ht⟩ => by
    rw [ht] at h
    cases h
  cases m with
  | regWrite n v => exact hno (writeReg_answers n v s)
  | regRead n => exact hno ⟨_, rfl⟩
  | inWrite a b =>
    simp only [hostStep, writeIn] at h
    split at h
    · cases h; exact .inl rfl
    · split at h <;> cases h
      exact .inr rfl
  | inRead a =>
    simp only [hostStep, readInMove] at h
    split at h <;> cases h
    exact .inr rfl
  | outRead a => exact hno ⟨_, rfl⟩
  | reset => exact hno ⟨_, rfl⟩
  | yield => exact hno (engineStep_answers hs)
  | wait =>
    refine hno ?_
    rw [hostStep_wait]
    split
    · exact engineStep_answers ((codeInv_with_host _ s.rdata s.draws).2 hs)
    · exact ⟨_, rfl⟩
  | copyBack =>
    simp only [hostStep, copyBackMove] at h
    split at h
    · cases h; exact .inl rfl
    · split at h <;> cases h
      exact .inr rfl

theorem step_fault {s : State} {f : Fault} (hs : CodeInv s) (h : step s = .fault f) : f.IsMisuse := by
  rcases step_cases s with ⟨-, he⟩ | ⟨m, ms, -, he⟩ <;> rw [he] at h
  · obtain ⟨t, ht⟩ := engineStep_answers hs
    rw [ht] at h
    cases h
  · exact hostStep_fault ((codeInv_with_host ms s.rdata s.draws).2 hs) h

theorem step_codeInv {s t : State} (hs : CodeInv s) (h : step s = .next t) : CodeInv t := by
  rcases step_cases s with ⟨-, he⟩ | ⟨m, ms, -, he⟩ <;> rw [he] at h
  · exact engineStep_codeInv hs h
  · exact hostStep_codeInv ((codeInv_with_host ms s.rdata s.draws).2 hs) h

/-- Settles O59: ENGINE's move and HOST's keep the invariant, and the stops left under it are those of HOST's misuse. -/
theorem noCodeIsMissing : Obligations.NoCodeIsMissing :=
  ⟨fun _ _ => step_codeInv, fun _ hs =>
    ⟨fun h => (step_fault hs h).elim nofun nofun, fun h => (step_fault hs h).elim nofun nofun⟩⟩

end Sys2Proof.Machine
end

section
/-! PROOF. O41 and O42: the code table (R180, R182, R183). The code of a leaf is its path from the root, and no leaf lies
below another one; so no code is the beginning of another. -/

namespace Sys2Proof.Machine

/-! ### Codes are paths to leaves -/

/-- The subtree at the end of a path, an edge taken as the decoder's walk takes it (R180, R233); a leaf has no edges. -/
def subtreeAt : Node → Bits → Option Node
  | n, [] => some n
  | .leaf _ _, _ :: _ => none
  | .internal l r, b :: bs => subtreeAt (descend b (.internal l r)) bs

theorem subtreeAt_append (n : Node) (p q : Bits) : subtreeAt n (p ++ q) = (subtreeAt n p).bind (subtreeAt · q) := by
  induction p generalizing n with
  | nil => rfl
  | cons b bs ih =>
    cases n with
    | leaf v e => rfl
    | internal l r => exact ih _

/-- Below a leaf there is nothing but the leaf itself. -/
theorem subtreeAt_leaf {v : Byte} {e : Bool} {p : Bits} {n : Node} (h : subtreeAt (.leaf v e) p = some n) :
    p = [] ∧ n = .leaf v e := by
  cases p with
  | nil => exact ⟨rfl, (Option.some.inj h).symm⟩
  | cons b bs => cases h

/-- A leaf at the end of a path is among the tree's leaves. -/
theorem mem_values_of_subtreeAt {n : Node} {p : Bits} {v : Byte} (h : subtreeAt n p = some (.leaf v false)) :
    v ∈ n.values := by
  induction p generalizing n with
  | nil =>
    obtain rfl := Option.some.inj h
    exact List.mem_singleton_self v
  | cons b bs ih =>
    cases n with
    | leaf w e => cases h
    | internal l r =>
      have hv := ih h
      cases b
      · exact List.mem_append_left _ hv
      · exact List.mem_append_right _ hv

/-- `c` is the code of a leaf of `root` with this value and flag (R180). -/
def IsLeafCode (root : Node) (v : Byte) (e : Bool) (c : Bitcode) : Prop :=
  ∃ p, c = leafCode p ∧ subtreeAt root p = some (.leaf v e)

/-- Every code of the table is that of a leaf of `root`. -/
def CodesOf (root : Node) (t : CodeTable) : Prop :=
  (∀ v c, codeOf t.slots v = some c → IsLeafCode root v false c) ∧
    ∀ c, t.eob = some c → ∃ v, IsLeafCode root v true c

/-- The walk from the subtree at `p` adds codes of leaves only (R180). -/
theorem walkCodes_codesOf {root n : Node} {p : Bits} {t : CodeTable} (hp : subtreeAt root p = some n)
    (ht : CodesOf root t) : CodesOf root (walkCodes n p t) := by
  induction n generalizing p t with
  | leaf v e =>
    obtain ⟨hslots, heob⟩ := ht
    cases e with
    | true => exact ⟨hslots, fun c hc => ⟨v, p, (Option.some.inj hc).symm, hp⟩⟩
    | false =>
      refine ⟨fun w c hc => ?_, heob⟩
      simp only [walkCodes, codeOf, tabGet_tabSet, Bool.false_eq_true, if_false] at hc
      split at hc
      · next hw =>
        obtain rfl := BitVec.eq_of_toNat_eq hw
        exact ⟨p, (Option.some.inj hc).symm, hp⟩
      · exact hslots w c hc
  | internal l r ihl ihr =>
    have hchild : ∀ b, subtreeAt root (p ++ [b]) = some (descend b (.internal l r)) := fun b => by
      rw [subtreeAt_append, hp]
      rfl
    exact ihr (hchild true) (ihl (hchild false) ht)

theorem generate_codesOf (root : Node) : CodesOf root (generate root) :=
  walkCodes_codesOf rfl ⟨fun _ _ h => (nomatch h), fun _ h => (nomatch h)⟩

/-! ### No code is the beginning of another -/

/-- A path that begins with the path to a leaf ends at that leaf. -/
theorem subtreeAt_eq_of_isPrefix {root m : Node} {p q : Bits} {v : Byte} {e : Bool} (hpq : p <+: q)
    (hp : subtreeAt root p = some (.leaf v e)) (hq : subtreeAt root q = some m) : m = .leaf v e := by
  obtain ⟨d, rfl⟩ := hpq
  rw [subtreeAt_append, hp] at hq
  exact (subtreeAt_leaf hq).2

/-- Below an inner root the path to a leaf is not empty, and is the code (R181). -/
theorem IsLeafCode.subtreeAt_internal {l r : Node} {v : Byte} {e : Bool} {c : Bitcode}
    (h : IsLeafCode (.internal l r) v e c) : subtreeAt (.internal l r) c = some (.leaf v e) := by
  obtain ⟨p, rfl, hp⟩ := h
  cases p with
  | nil => cases hp
  | cons b bs => exact hp

/-- A code that is the beginning of another is the code of the same leaf (R182). -/
theorem IsLeafCode.eq_of_isPrefix {root : Node} {v w : Byte} {e f : Bool} {c d : Bitcode} (hc : IsLeafCode root v e c)
    (hd : IsLeafCode root w f d) (hcd : c <+: d) : v = w ∧ e = f := by
  have heq : Node.leaf w f = .leaf v e := by
    cases root with
    | leaf u g =>
      obtain ⟨p, -, hp⟩ := hc
      obtain ⟨q, -, hq⟩ := hd
      exact (subtreeAt_leaf hq).2.trans (subtreeAt_leaf hp).2.symm
    | internal l r => exact subtreeAt_eq_of_isPrefix hcd hc.subtreeAt_internal hd.subtreeAt_internal
  obtain ⟨hv, he⟩ := Node.leaf.inj heq
  exact ⟨hv.symm, he.symm⟩

/-! ### The table of an encoder-built tree -/

theorem mem_treeOf_values {v : Byte} {data : List Byte} : v ∈ (treeOf data).values ↔ v ∈ data :=
  (treeOf_values_perm data).mem_iff.trans mem_firstSeen

/-- The slots that are set are those of the bytes that occur (R182). -/
theorem codeOf_treeOf_isSome (data : List Byte) (v : Byte) :
    (codeOf (generate (treeOf data)).slots v).isSome = true ↔ v ∈ data := by
  rw [← mem_treeOf_values]
  obtain ⟨hset, -⟩ := walkCodes_sets (treeOf data) [] emptyTable
  obtain ⟨hpaths, -⟩ := generate_codesOf (treeOf data)
  refine ⟨fun h => ?_, fun h => hset v (.inl h)⟩
  obtain ⟨c, hc⟩ := Option.isSome_iff_exists.1 h
  obtain ⟨p, -, hp⟩ := hpaths v c hc
  exact mem_values_of_subtreeAt hp

/-- EOB has a code (R182). -/
theorem eob_treeOf_isSome (data : List Byte) : (generate (treeOf data)).eob.isSome = true :=
  (walkCodes_sets (treeOf data) [] emptyTable).2 (.inl (by rw [treeOf_eobLeaves]; exact Nat.one_pos))

/-- Settles O41: two codes of which one begins with the other belong to one leaf, and EOB's leaf is no byte's. -/
theorem codesArePrefixFree : Obligations.CodesArePrefixFree := by
  intro data
  obtain ⟨hslots, heobs⟩ := generate_codesOf (treeOf data)
  obtain ⟨eob, heob⟩ := Option.isSome_iff_exists.1 (eob_treeOf_isSome data)
  obtain ⟨w, hw⟩ := heobs eob heob
  refine ⟨codeOf_treeOf_isSome data, fun h => by rw [h]; rfl, eob, heob, fun v c hc => ⟨fun h => ?_, fun h => ?_⟩,
    fun v w c d hc hd h => ?_⟩
  · cases ((hslots v c hc).eq_of_isPrefix hw h).2
  · cases (hw.eq_of_isPrefix (hslots v c hc) h).2
  · exact ((hslots v c hc).eq_of_isPrefix (hslots w d hd) h).1

/-- The empty path is replaced by one bit (R181). -/
theorem IsLeafCode.one_le_length {root : Node} {v : Byte} {e : Bool} {c : Bitcode} (h : IsLeafCode root v e c) :
    1 ≤ c.length := by
  obtain ⟨p, rfl, -⟩ := h
  rw [leafCode_length]
  exact le_max_left ..

/-- Settles O42: a code is a path that is not empty, or `"0"`, and has at most one bit for each other leaf of the tree, of
which there are at most 256. -/
theorem codeLengths : Obligations.CodeLengths := by
  intro data c hc
  obtain ⟨hslots, heobs⟩ := generate_codesOf (treeOf data)
  obtain ⟨hslotLen, heobLen⟩ := generate_within (treeOf data)
  have hL := treeOf_leaves_le_257 data
  have hone : 1 ≤ c.length := by
    obtain heob | ⟨v, hv⟩ := hc
    · obtain ⟨w, hw⟩ := heobs c heob
      exact hw.one_le_length
    · exact (hslots v c hv).one_le_length
  have hmax : c.length ≤ max 1 ((treeOf data).leaves - 1) := hc.elim (heobLen c) fun ⟨v, hv⟩ => hslotLen v c hv
  exact ⟨hone, hmax, by omega⟩

end Sys2Proof.Machine
end


section
/-! PROOF. O6, O7 and O8: whose turn it is, and which token ENGINE executes when the turn is its own. The bits of `IN`
not read yet are one list, `unread`; a token is fetched where that list begins with its bits (R92), and reading bit by
bit takes the same bits off the list (R127, R129). -/

namespace Sys2Proof.Machine

/-! ### Turns and runs -/

/-- With no move of HOST waiting the step is ENGINE's. -/
theorem step_of_host_nil {s : State} (h : s.host = []) : step s = engineStep s := by
  simp [step, moveNext, h]

/-- In a command ENGINE has the turn where HOST has no move to make, yields, or waits; `hs` is what HOST has left to
do (R16, R107). -/
theorem step_of_engine_turn {s : State} {hs ms : List HostMove} (hbusy : s.busy = true)
    (h : s.host = [] ∧ hs = [] ∨ s.host = .yield :: ms ∧ hs = ms ∨ s.host = .wait :: ms ∧ hs = .wait :: ms) :
    step s = engineStep { s with host := hs } := by
  rcases h with ⟨hh, rfl⟩ | ⟨hh, rfl⟩ | ⟨hh, rfl⟩
  · rw [step_of_host_nil hh, ← hh]
  · simp [step, moveNext, hh, hostStep]
  · simp [step, moveNext, hh, hostStep_wait, hbusy]

theorem Reaches.zero (s : State) : Reaches s 0 s := rfl

/-- A run goes on from the state after its first step. -/
theorem run_succ_eq_next_iff {M : Host.Core} {k : Nat} {s u : M.State} :
    M.run (k + 1) s = .next u ↔ ∃ t, M.step s = .next t ∧ M.run k t = .next u := by
  cases h : M.step s <;> simp [Host.Core.run, h]

theorem reaches_succ_iff {s u : State} {k : Nat} : Reaches s (k + 1) u ↔ ∃ t, step s = .next t ∧ Reaches t k u :=
  run_succ_eq_next_iff (M := core)

theorem Reaches.cons {s t u : State} {k : Nat} (hs : step s = .next t) (h : Reaches t k u) : Reaches s (k + 1) u :=
  reaches_succ_iff.2 ⟨t, hs, h⟩

theorem Reaches.trans {s t u : State} {j k : Nat} (h₁ : Reaches s j t) (h₂ : Reaches t k u) : Reaches s (j + k) u := by
  induction j generalizing s with
  | zero => cases h₁; rwa [Nat.zero_add]
  | succ j ih =>
    obtain ⟨v, hv, hrest⟩ := reaches_succ_iff.1 h₁
    rw [Nat.succ_add]
    exact .cons hv (ih hrest)

/-! ### The bits not read yet -/

/-- The bits of `IN` from the read cursor on (R62, R40). -/
def unread (s : State) : Bits := (bytesBits (inData s)).drop s.ctx.rPos

@[simp] theorem unread_length (s : State) : (unread s).length = 8 * s.inLen - s.ctx.rPos := by
  simp [unread, bytesBits_length, inData]

/-- With the cursor `n` bits further on, the first `n` bits have been read; nothing else in the context plays a part. -/
theorem unread_withCtx {s : State} {c : Context} {n : Nat} (h : c.rPos = s.ctx.rPos + n) :
    unread (s.withCtx c) = (unread s).drop n := by
  rw [unread, unread, List.drop_drop, ← h]
  rfl

theorem streamBits_eq_take (s : State) (n : Nat) : streamBits s n = (unread s).take n := by
  refine List.ext_getElem? fun k => ?_
  rw [List.getElem?_take, unread, List.getElem?_drop]
  by_cases hk : k < min n (8 * s.inLen - s.ctx.rPos)
  · rw [if_pos (by omega), bytesBits_inData s (by omega), streamBits, List.getElem?_map, List.getElem?_range hk]
    rfl
  · rw [List.getElem?_eq_none (by simp only [streamBits_length]; omega)]
    split_ifs with hn
    · refine (List.getElem?_eq_none ?_).symm
      simp only [bytesBits_length, inData, List.length_map, List.length_range]
      omega
    · rfl

/-- What lies at the cursor, bit for bit, is what the bits not read yet begin with. -/
theorem streamBits_eq_iff {s : State} {bs : Bits} : streamBits s bs.length = bs ↔ bs <+: unread s := by
  rw [streamBits_eq_take, List.prefix_iff_eq_take, eq_comm]

/-! ### Fetching a token -/

theorem tokenBits_length_le (i : Instr) : (tokenBits i).length ≤ Config.leafBits := by
  cases i <;> simp [tokenBits, byteBits, Config.leafBits]

/-- A token is fetched exactly where the bits not read yet begin with its own (R92, R192). -/
theorem peekToken_eq_some_iff {s : State} {i : Instr} :
    peekToken s = some i ↔ i.isToken = true ∧ tokenBits i <+: unread s := by
  have hfetch : peekToken s = some i ↔ ∃ rest, decodeToken (streamBits s Config.leafBits) = .ok (i, rest) := by
    unfold peekToken
    split <;> simp_all
  have hprefix : tokenBits i <+: unread s ↔ tokenBits i <+: streamBits s Config.leafBits := by
    rw [streamBits_eq_take, List.prefix_take_iff, and_iff_left (tokenBits_length_le i)]
  rw [hfetch, hprefix]
  constructor
  · rintro ⟨rest, h⟩
    obtain ⟨hi, hbits⟩ := eq_tokenBits_append h
    exact ⟨hi, rest, hbits.symm⟩
  · rintro ⟨hi, rest, hbits⟩
    exact ⟨rest, hbits ▸ decodeToken_tokenBits hi rest⟩

/-- In `PH_D_TREE` ENGINE executes the token it fetches (R192). -/
theorem engineStep_fetched {s : State} {i : Instr} (hp : s.phase = .dTree) (hpeek : peekToken s = some i) :
    engineStep s = exec i s := by
  simp [engineStep, hp, readTreeStep, hpeek]

/-- Settles O6: what HOST has left to do changes neither the fetched token nor the phase. -/
theorem stepRunsFetchedToken : Obligations.StepRunsFetchedToken := by
  intro s i rest ms hp htok
  have hbusy : s.busy = true := by simp [State.busy, hp, Phase.busy]
  have hpeek : peekToken s = some i := by simp [peekToken, Config.leafBits, htok]
  have hexec (hs : List HostMove) : engineStep { s with host := hs } = exec i { s with host := hs } :=
    engineStep_fetched hp hpeek
  refine ⟨fun hh => ?_, fun hh => ?_, fun hh => ?_⟩
  · rw [step_of_engine_turn (ms := ms) hbusy (.inl ⟨hh, rfl⟩), hexec, ← hh]
  · rw [step_of_engine_turn hbusy (.inr (.inl ⟨hh, rfl⟩)), hexec]
  · rw [step_of_engine_turn hbusy (.inr (.inr ⟨hh, rfl⟩)), hexec, ← hh]

/-- In `PH_E_TREE` ENGINE executes the token of the next node, its children next in line (R190). -/
theorem engineStep_pending {s : State} {n : Node} {rest : List Node} (hp : s.phase = .eTree)
    (hpend : s.ctx.pending = n :: rest) :
    engineStep s = exec (tokenOf n) (s.withCtx { s.ctx with pending := childrenOf n ++ rest }) := by
  simp [engineStep, hp, writeTreeStep, hpend]

/-- Settles O7: a leaf has no children to put in line, an internal node its two. -/
theorem stepRunsWrittenToken : Obligations.StepRunsWrittenToken := by
  intro s n rest hs ms hp hpend hturn
  have hbusy : s.busy = true := by simp [State.busy, hp, Phase.busy]
  rw [step_of_engine_turn hbusy hturn, engineStep_pending (s := { s with host := hs }) hp hpend]
  cases n with
  | leaf v e => rfl
  | internal l r => rfl

/-! ### Reading bit by bit -/

/-- The cursor `n` bits further on. -/
def State.skip (s : State) (n : Nat) : State := s.withCtx { s.ctx with rPos := s.ctx.rPos + n }

theorem unread_skip (s : State) (n : Nat) : unread (s.skip n) = (unread s).drop n := unread_withCtx rfl

theorem rPos_lt_of_unread_cons {s : State} {b : Bool} {bs : Bits} (h : unread s = b :: bs) :
    s.ctx.rPos < 8 * s.inLen := by
  have hlen := congrArg List.length h
  rw [unread_length, List.length_cons] at hlen
  omega

/-- The cursor does not pass the end of the input by reading a bit that is left. -/
theorem skip_one_rPos_le {s : State} {b : Bool} {bs : Bits} (h : unread s = b :: bs) :
    (s.skip 1).ctx.rPos ≤ 8 * (s.skip 1).inLen := rPos_lt_of_unread_cons h

theorem readBit_of_unread_cons {s : State} {b : Bool} {bs : Bits} (h : unread s = b :: bs) :
    readBit s = .ok b (s.skip 1) := by
  have hlt := rPos_lt_of_unread_cons h
  have hbit : some (inBit s s.ctx.rPos) = some b := by
    rw [← bytesBits_inData s hlt, ← List.head?_drop, ← unread, h, List.head?_cons]
  rw [readBit_below hlt, Option.some.inj hbit]
  rfl

theorem readBit_of_unread_nil {s : State} (hpos : s.ctx.rPos ≤ 8 * s.inLen) (h : unread s = []) :
    readBit s = .raised (faultEntry .outOfData (8 * s.inLen) s) := by
  have hlen := congrArg List.length h
  rw [unread_length, List.length_nil] at hlen
  exact readBit_at_end (by omega)

theorem readUInt_eq {n : Nat} (hn : n ≤ 32) (s : State) : readUInt n s = readUIntFrom 0 n s := by
  simp [readUInt, bitCountOk, hn]

/-- `readUInt` of a byte's width returns the byte that lies at the cursor (R129, R95). -/
theorem readUInt_of_unread_byte {s : State} {v : Byte} {rest : Bits} (h : unread s = byteBits v ++ rest) :
    readUInt 8 s = .ok v.toNat (s.skip 8) := by
  have h8 : (byteBits v).length = 8 := byteBits_length v
  have hbits : streamBits s 8 = byteBits v := h8 ▸ streamBits_eq_iff.2 ⟨rest, h.symm⟩
  have hin : s.ctx.rPos + 8 ≤ 8 * s.inLen := by
    have hlen := congrArg List.length h
    rw [unread_length, List.length_append, h8] at hlen
    omega
  rw [readUInt_eq (by decide), readUIntFrom_eq 0 hin, hbits, byteBits, natOfBits_uintBits, Nat.mod_eq_of_lt v.isLt,
    Nat.mul_zero, Nat.zero_add]
  rfl

/-- A number cut short by the end of the input raises OutOfData there (R129, R127). -/
theorem readUIntFrom_truncated {n : Nat} (a : Nat) {s : State} (hpos : s.ctx.rPos ≤ 8 * s.inLen)
    (hshort : (unread s).length < n) : readUIntFrom a n s = .raised (faultEntry .outOfData (8 * s.inLen) s) := by
  induction n generalizing a s with
  | zero => exact absurd hshort (Nat.not_lt_zero _)
  | succ n ih =>
    rw [readUIntFrom]
    cases hu : unread s with
    | nil => rw [readBit_of_unread_nil hpos hu]; rfl
    | cons b bs =>
      have hrest : unread (s.skip 1) = bs := by rw [unread_skip, hu]; rfl
      have hlt : bs.length < n := by rw [hu] at hshort; exact Nat.lt_of_succ_lt_succ hshort
      rw [readBit_of_unread_cons hu, Res.bind_ok, ih _ (skip_one_rPos_le hu) (by rwa [hrest])]
      rfl

/-- A token at the cursor is read bit by bit (R192). -/
theorem readTokenBits_of_prefix {s : State} {i : Instr} (hi : i.isToken = true) (h : tokenBits i <+: unread s) :
    readTokenBits s = .ok i (s.skip (tokenBits i).length) := by
  obtain ⟨rest, hrest⟩ := h
  cases i with
  | nop | encode | decode | reserved => cases hi
  | treeInternal =>
    rw [readTokenBits, readBit_of_unread_cons hrest.symm]
    rfl
  | treeLeaf e v =>
    have hflag : unread (s.skip 1) = e :: (byteBits v ++ rest) := by rw [unread_skip, ← hrest]; rfl
    have hvalue : unread ((s.skip 1).skip 1) = byteBits v ++ rest := by rw [unread_skip, hflag]; rfl
    rw [readTokenBits, readBit_of_unread_cons hrest.symm, Res.bind_ok, if_pos rfl, readBit_of_unread_cons hflag,
      Res.bind_ok, readUInt_of_unread_byte hvalue, Res.bind_ok, BitVec.ofNat_toNat, BitVec.setWidth_eq]
    rfl

/-- A leaf's value lies behind marker and flag where there are eight bits or more. -/
theorem treeLeaf_prefix {e : Bool} {bs : Bits} (h : 8 ≤ bs.length) :
    tokenBits (.treeLeaf e (byteOfBits (bs.take 8))) <+: true :: e :: bs := by
  refine ⟨bs.drop 8, ?_⟩
  rw [tokenBits, byteBits_byteOfBits (by simpa using h), List.cons_append, List.cons_append, List.take_append_drop]

/-- Where no token can be fetched, the reads reach the end of the input: no bit is left, or a leaf is cut behind its
marker, behind its flag, or within its value. -/
theorem readTokenBits_truncated {s : State} (hpos : s.ctx.rPos ≤ 8 * s.inLen) (h : peekToken s = none) :
    readTokenBits s = .raised (faultEntry .outOfData (8 * s.inLen) s) := by
  have hno {i : Instr} (hi : i.isToken = true) : ¬ tokenBits i <+: unread s := fun hpre => by
    rw [peekToken_eq_some_iff.2 ⟨hi, hpre⟩] at h
    cases h
  rw [readTokenBits]
  match hu : unread s with
  | [] => rw [readBit_of_unread_nil hpos hu]; rfl
  | false :: bs => exact absurd ⟨bs, hu.symm⟩ (hno (i := .treeInternal) rfl)
  | [true] =>
    have hend : unread (s.skip 1) = [] := by rw [unread_skip, hu]; rfl
    rw [readBit_of_unread_cons hu, Res.bind_ok, if_pos rfl, readBit_of_unread_nil (skip_one_rPos_le hu) hend]
    rfl
  | true :: e :: bs =>
    have hflag : unread (s.skip 1) = e :: bs := by rw [unread_skip, hu]; rfl
    have hvalue : unread ((s.skip 1).skip 1) = bs := by rw [unread_skip, hflag]; rfl
    have hshort : bs.length < 8 := Nat.lt_of_not_le fun h8 => hno rfl (hu ▸ treeLeaf_prefix h8)
    rw [readBit_of_unread_cons hu, Res.bind_ok, if_pos rfl, readBit_of_unread_cons hflag, Res.bind_ok,
      readUInt_eq (by decide), readUIntFrom_truncated 0 (skip_one_rPos_le hflag) (by rwa [hvalue])]
    rfl

/-- Settles O8, by whether a token is fetched. -/
theorem fetchAgreesWithBitReads : Obligations.FetchAgreesWithBitReads := by
  intro s hpos
  cases hpeek : peekToken s with
  | none => exact readTokenBits_truncated hpos hpeek
  | some i =>
    obtain ⟨hi, hpre⟩ := peekToken_eq_some_iff.1 hpeek
    exact ⟨hi, readTokenBits_of_prefix hi hpre⟩

end Sys2Proof.Machine
end

section
/-! PROOF. O14, O15, O18, O19, O20 and O45: the tree reader (R192 to R196). Every token in `PH_D_TREE`, whole or cut,
begins with the tests of the two limits. A whole tree is read by induction on the tree: after its last token the state
is that in which the finished tree has been returned to the call that waits for it. -/

namespace Sys2Proof.Machine

/-! ### The limits -/

/-- Within the limits the node is counted (R193). -/
theorem enterNode_within {s : State} (hd : s.ctx.readStack.length + 1 ≤ s.params.depthMax)
    (hc : s.ctx.nNodes < s.params.nodeCap) :
    enterNode s = .ok () (s.withCtx { s.ctx with nNodes := s.ctx.nNodes + 1 }) := by
  simp [enterNode, readDepth, Nat.not_lt.2 hd, Nat.not_le.2 hc]

theorem enterNode_too_deep {s : State} (hd : s.params.depthMax < s.ctx.readStack.length + 1) :
    enterNode s = .raised (faultEntry .malformedDepth s.ctx.rPos s) := by
  simp [enterNode, readDepth, hd, raise]

theorem enterNode_too_many {s : State} (hd : s.ctx.readStack.length + 1 ≤ s.params.depthMax)
    (hc : s.params.nodeCap ≤ s.ctx.nNodes) :
    enterNode s = .raised (faultEntry .malformedCapacity s.ctx.rPos s) := by
  simp [enterNode, readDepth, Nat.not_lt.2 hd, hc, raise]

theorem exec_treeInternal_reads {s : State} (hp : s.phase = .dTree) :
    exec .treeInternal s = (readInternal s).toOutcome := by
  simp [exec, execTreeInternal, hp]

theorem exec_treeLeaf_reads {s : State} {e : Bool} {v : Byte} (hp : s.phase = .dTree) :
    exec (.treeLeaf e v) s = (readLeaf e v s).toOutcome := by
  simp [exec, execTreeLeaf, hp]

/-- In `PH_D_TREE` a token begins with the tests of the limits (R192). -/
theorem exec_enters {s : State} {i : Instr} (hi : i.isToken = true) (hp : s.phase = .dTree) :
    ∃ f : Unit → State → Res Unit, exec i s = ((enterNode s).bind f).toOutcome := by
  cases i with
  | nop | encode | decode | reserved => cases hi
  | treeInternal => exact ⟨_, exec_treeInternal_reads hp⟩
  | treeLeaf e v => exact ⟨_, exec_treeLeaf_reads hp⟩

/-- Where the input ends inside the token the move is `readTruncated` (R192). -/
theorem engineStep_truncated {s : State} (hp : s.phase = .dTree) (hpeek : peekToken s = none) :
    engineStep s = (readTruncated s).toOutcome := by
  simp [engineStep, hp, readTreeStep, hpeek]

/-- In `PH_D_TREE` ENGINE's move begins with the tests of the limits, whatever bits follow (R193). -/
theorem engineStep_enters {s : State} (hp : s.phase = .dTree) :
    ∃ f : Unit → State → Res Unit, engineStep s = ((enterNode s).bind f).toOutcome := by
  cases hpeek : peekToken s with
  | none => exact ⟨_, engineStep_truncated hp hpeek⟩
  | some i => rw [engineStep_fetched hp hpeek]; exact exec_enters (peekToken_eq_some_iff.1 hpeek).1 hp

/-- Settles O18: nothing runs after the raise of a limit's test. -/
theorem nodeLimitsTestedFirst : Obligations.NodeLimitsTestedFirst := by
  intro s hp
  have hfault {t : State} (h : enterNode s = .raised t) :
      engineStep s = .next t ∧ ∀ i : Instr, i.isToken = true → exec i s = .next t := by
    refine ⟨?_, fun i hi => ?_⟩
    · obtain ⟨f, hf⟩ := engineStep_enters hp
      rw [hf, h]
      rfl
    · obtain ⟨f, hf⟩ := exec_enters hi hp
      rw [hf, h]
      rfl
  exact ⟨fun hd => hfault (enterNode_too_deep hd), fun hd hc => hfault (enterNode_too_many hd hc.ge)⟩

/-- Settles O19: within the limits `readTruncated` raises OutOfData; the count of nodes is dropped with the context. -/
theorem truncatedTokenRaisesOutOfData : Obligations.TruncatedTokenRaisesOutOfData := by
  intro s hp hpos hd hc hpeek
  rw [engineStep_truncated hp hpeek, readTruncated, enterNode_within hd hc, Res.bind_ok]
  simp only [State.withCtx_ctx, State.withCtx_inLen, Nat.max_eq_right hpos]
  rfl

/-- Settles O20, by the test of `HAS_EOB`. -/
theorem eobIsChecked : Obligations.EobIsChecked := by
  intro s hp
  have hstep : engineStep s = checkEobStep s := by simp [engineStep, hp]
  rw [hstep]
  refine ⟨fun heob => ⟨faultEntry .malformedNoEob s.ctx.rPos s, ?_, rfl, rfl, rfl, rfl, rfl⟩, fun heob => if_pos heob⟩
  simp [checkEobStep, heob]

/-! ### One token -/

/-- Settles O14: one node is entered, and its left child is awaited. -/
theorem treeInternalRead : Obligations.TreeInternalRead := by
  intro s hp hd hc
  rw [exec_treeInternal_reads hp, readInternal, enterNode_within hd hc]
  rfl

/-- The reader behind all tokens of the subtree `t`, which is not returned yet: its nodes are counted, its bits
consumed, its EOB leaves noted (R192). -/
def State.behindTree (s : State) (t : Node) : State :=
  s.withCtx { s.ctx with
    nNodes := s.ctx.nNodes + t.size
    rPos := s.ctx.rPos + (treeStream t).length
    hasEob := s.ctx.hasEob || decide (0 < t.eobLeaves) }

theorem behindTree_leaf (s : State) (v : Byte) (e : Bool) :
    s.behindTree (.leaf v e) = s.withCtx { s.ctx with
      nNodes := s.ctx.nNodes + 1
      rPos := s.ctx.rPos + 10
      hasEob := s.ctx.hasEob || e } := by
  cases e <;> rfl

/-- A leaf is read by one token, and returned (R192). -/
theorem exec_treeLeaf_returns {s : State} {e : Bool} {v : Byte} (hp : s.phase = .dTree)
    (hd : s.ctx.readStack.length + 1 ≤ s.params.depthMax) (hc : s.ctx.nNodes < s.params.nodeCap) :
    exec (.treeLeaf e v) s = .next (finishNode (.leaf v e) (s.behindTree (.leaf v e))) := by
  rw [behindTree_leaf, exec_treeLeaf_reads hp, readLeaf, enterNode_within hd hc]
  rfl

/-- Settles O15: the leaf is read, and returned through the calls that have their left child. -/
theorem treeLeafRead : Obligations.TreeLeafRead := by
  intro s e v ls gs hp hd hc
  rw [exec_treeLeaf_returns hp hd hc, behindTree_leaf]
  refine ⟨fun hstack => ?_, fun hstack => ?_⟩
  · simp only [finishNode, State.withCtx_ctx, hstack, returnNode_awaitLeft]
    rfl
  · simp only [finishNode, State.withCtx_ctx, hstack, returnNode_root]
    rfl

/-! ### A whole tree -/

/-- The calls of `readNode` that wait are `fs` (R198). -/
def State.withStack (s : State) (fs : List Frame) : State := s.withCtx { s.ctx with readStack := fs }

/-- The reader behind the token of an internal node (R192). -/
def State.behindMarker (s : State) : State :=
  s.withCtx { s.ctx with nNodes := s.ctx.nNodes + 1, rPos := s.ctx.rPos + 1 }

/-- A node is returned to a call that waits for its left child (R192). -/
theorem finishNode_awaitLeft (n : Node) (s : State) (fs : List Frame) :
    finishNode n (s.withStack (.awaitLeft :: fs)) = s.withStack (.awaitRight n :: fs) := rfl

/-- A node that is returned to a call that has its left child completes that call's node (R192). -/
theorem finishNode_awaitRight (l r : Node) (s : State) (fs : List Frame) :
    finishNode r (s.withStack (.awaitRight l :: fs)) = finishNode (.internal l r) (s.withStack fs) := rfl

/-- Reading an internal node is reading its marker, its left subtree and its right one (R96, R192). -/
theorem behindTree_internal (s : State) (l r : Node) :
    s.behindTree (.internal l r) = (s.behindMarker.behindTree l).behindTree r := by
  have hlen : (treeStream (.internal l r)).length = 1 + ((treeStream l).length + (treeStream r).length) := by
    simp [treeStream, tokenBits, Nat.add_comm]
  simp [State.behindTree, State.behindMarker, State.withCtx, Node.size, Node.eobLeaves, hlen, Nat.add_assoc,
    Bool.or_assoc]

/-- The subtrees lie one behind the other, the left one behind the marker (R96). -/
theorem unread_subtrees {s : State} {l r : Node} (h : treeStream (.internal l r) <+: unread s) :
    tokenBits .treeInternal <+: unread s ∧ treeStream l <+: unread s.behindMarker ∧
      treeStream r <+: unread (s.behindMarker.behindTree l) := by
  have hl : unread s.behindMarker = (unread s).drop 1 := unread_withCtx rfl
  have hr : unread (s.behindMarker.behindTree l) = (unread s.behindMarker).drop (treeStream l).length :=
    unread_withCtx rfl
  obtain ⟨rest, hrest⟩ := h
  rw [hr, hl, ← hrest]
  simp [treeStream, tokenBits]

/-- With no move of HOST waiting, the token that lies at the cursor is executed (R192). -/
theorem step_reads_token {s : State} {i : Instr} (hh : s.host = []) (hp : s.phase = .dTree) (hi : i.isToken = true)
    (hbits : tokenBits i <+: unread s) : step s = exec i s := by
  rw [step_of_host_nil hh, engineStep_fetched hp (peekToken_eq_some_iff.2 ⟨hi, hbits⟩)]

/-- Within the limits `readNode` reads the subtree that lies at the cursor, one token a step, and returns it (R192,
R196). -/
theorem readTree_reaches {t : Node} {s : State} (hh : s.host = []) (hp : s.phase = .dTree)
    (hbits : treeStream t <+: unread s) (hd : s.ctx.readStack.length + t.depth ≤ s.params.depthMax)
    (hc : s.ctx.nNodes + t.size ≤ s.params.nodeCap) : Reaches s t.size (finishNode t (s.behindTree t)) := by
  induction t generalizing s with
  | leaf v e =>
    refine .cons ?_ (.zero _)
    rw [step_reads_token hh hp rfl hbits, exec_treeLeaf_returns hp hd hc]
  | internal l r ihl ihr =>
    simp only [Node.depth, Node.size] at hd hc
    obtain ⟨hmarker, hleft, hright⟩ := unread_subtrees hbits
    have hdl : s.ctx.readStack.length + 1 + l.depth ≤ s.params.depthMax := by omega
    have hdr : s.ctx.readStack.length + 1 + r.depth ≤ s.params.depthMax := by omega
    have hcl : s.ctx.nNodes + 1 + l.size ≤ s.params.nodeCap := by omega
    have hcr : s.ctx.nNodes + 1 + l.size + r.size ≤ s.params.nodeCap := by omega
    have hstep : step s = .next (s.behindMarker.withStack (.awaitLeft :: s.ctx.readStack)) :=
      (step_reads_token hh hp rfl hmarker).trans (treeInternalRead s hp (by omega) (by omega))
    have hl : Reaches (s.behindMarker.withStack (.awaitLeft :: s.ctx.readStack)) l.size
        ((s.behindMarker.behindTree l).withStack (.awaitRight l :: s.ctx.readStack)) := by
      rw [← finishNode_awaitLeft]
      exact ihl hh hp hleft hdl hcl
    have hr : Reaches ((s.behindMarker.behindTree l).withStack (.awaitRight l :: s.ctx.readStack)) r.size
        (finishNode (.internal l r) (((s.behindMarker.behindTree l).behindTree r).withStack s.ctx.readStack)) := by
      rw [← finishNode_awaitRight]
      exact ihr hh hp hright hdr hcr
    rw [behindTree_internal, Node.size, Nat.add_assoc, Nat.add_comm]
    exact .cons hstep (hl.trans hr)

/-- Settles O45: no call waits for the root, so returning it completes the tree. -/
theorem treeIsReadBack : Obligations.TreeIsReadBack := by
  intro s t hp hh hstack hnodes hfits hbits
  simp only [Node.fits, Bool.and_eq_true, decide_eq_true_eq] at hfits
  obtain ⟨hdepth, hsize⟩ := hfits
  have hroot : finishNode t (s.behindTree t) =
      ({ s with treeBits := (s.behindTree t).ctx.rPos }.withCtx
        { (s.behindTree t).ctx with readStack := [], root := t }).withPhase .dCheck := by
    simp only [finishNode, State.behindTree, State.withCtx_ctx, hstack]
    rfl
  have hrun := readTree_reaches hh hp (streamBits_eq_iff.1 hbits) (by simpa [hstack]) (by simpa [hnodes])
  rw [hroot] at hrun
  exact ⟨_, hrun, rfl, rfl, rfl, rfl, by simp [State.behindTree, hnodes], rfl, .refl s, rfl, rfl⟩

end Sys2Proof.Machine
end

section
/-! PROOF. O16 and O44: the tree writer (R190, R191). A token is written whole where `OUT` has room for the bytes it
completes. A whole tree is written by induction on the tree: the bits written and counted are those of its subtrees in
order. -/

namespace Sys2Proof.Machine

/-! ### One token -/

/-- `OUT` has room for the bytes that `n` more bits complete (R75, R121). -/
def HasRoom (s : State) (n : Nat) : Prop :=
  ∀ c, s.params.outCap = some c → (8 * s.outN + s.ctx.wN + n) / 8 ≤ c

theorem HasRoom.unbounded {s : State} (h : s.params.outCap = none) (n : Nat) : HasRoom s n := fun c hc => by
  rw [h] at hc
  cases hc

theorem HasRoom.mono {s : State} {m n : Nat} (h : HasRoom s n) (hmn : m ≤ n) : HasRoom s m := fun c hc =>
  (Nat.div_le_div_right (Nat.add_le_add_left hmn _)).trans (h c hc)

/-- What is left of the room once `m` bits have been written. -/
theorem WroteTo.hasRoom {s u : State} {m n : Nat} (hw : WroteTo s u m) (hn : s.ctx.wN < 8) (h : HasRoom s (m + n)) :
    HasRoom u n := by
  intro c hc
  have hcap : s.params.outCap = some c := by rw [hw.same] at hc; exact hc
  have hplace := (hw.place hn).2
  have hle := h c hcap
  omega

/-- Bits are written where `OUT` has room for the bytes they complete: the bit that completes a byte finds `OUT` not
full (R75, R121). -/
theorem writeBits_ok {bs : Bits} {s : State} (hn : s.ctx.wN < 8) (hroom : HasRoom s bs.length) :
    ∃ u, writeBits bs s = .ok () u := by
  induction bs generalizing s with
  | nil => exact ⟨s, rfl⟩
  | cons b bs ih =>
    have hgo {t : State} (ht : writeBit b s = .ok () t) : ∃ u, writeBits (b :: bs) s = .ok () u := by
      have hw := writeBit_wrote ht
      rw [List.length_cons, Nat.add_comm] at hroom
      obtain ⟨u, hu⟩ := ih (hw.place hn).1 (hw.hasRoom hn hroom)
      exact ⟨u, by rw [writeBits, ht, Res.bind_ok, hu]⟩
    rcases writeBit_cases b s with ⟨-, he⟩ | ⟨h7, hfull, -⟩ | ⟨-, -, he⟩
    · exact hgo he
    · have hnotfull : outFull s = false := (outFull_eq_false_iff s).2 fun c hc => by
        have hle := hroom c hc
        rw [List.length_cons] at hle
        omega
      rw [hnotfull] at hfull
      cases hfull
    · exact hgo he

/-- In `PH_E_TREE` a token that `OUT` has room for is written and counted (R190). -/
theorem exec_token_ok {s : State} {i : Instr} (hi : i.isToken = true) (hp : s.phase = .eTree) (hn : s.ctx.wN < 8)
    (hroom : HasRoom s (tokenBits i).length) :
    ∃ u, exec i s = .next (addCount (tokenBits i).length u) ∧ WroteTo s u (tokenBits i).length ∧
      writtenBits u = writtenBits s ++ tokenBits i := by
  obtain ⟨u, hu⟩ := writeBits_ok hn hroom
  refine ⟨u, ?_, writeBits_wrote hu, writeBits_written hn hu⟩
  rw [exec_token_writes hi hp, hu]
  rfl

theorem WroteTo.phase {s u : State} {n : Nat} (h : WroteTo s u n) : u.phase = s.phase := by
  rw [h.same]

theorem WroteTo.host {s u : State} {n : Nat} (h : WroteTo s u n) : u.host = s.host := by
  rw [h.same]

theorem WroteTo.sameRegs {s u : State} {n : Nat} (h : WroteTo s u n) : SameRegs s u := by
  rw [h.same]
  exact ⟨rfl, rfl, rfl, rfl, rfl, rfl, rfl, rfl⟩

/-- Settles O16: what writing the token's bits changes, and the count. -/
theorem tokenWritten : Obligations.TokenWritten := by
  intro s i hi hp hn hroom
  obtain ⟨u, hexec, hw, hbits⟩ := exec_token_ok hi hp hn hroom
  obtain ⟨hn', hplace⟩ := hw.place hn
  have hcount : u.ctx.wN = (s.ctx.wN + (tokenBits i).length) % 8 := by omega
  have hout : u.outN = (8 * s.outN + s.ctx.wN + (tokenBits i).length) / 8 := by omega
  refine ⟨_, hexec, hbits, hout, hw.outside, ?_, hw.phase.trans hp, (hw.appended _).sameInput, hw.sameRegs⟩
  rw [← hcount, ← hw.total, addCount, State.withCtx_ctx, hw.same]

/-! ### A whole tree -/

/-- `writeTree` has counted `n` bits more, and has still to write `ns` (R190, R198). -/
def State.counted (s : State) (ns : List Node) (n : Nat) : State :=
  s.withCtx { s.ctx with pending := ns, treeCount := s.ctx.treeCount + n }

theorem counted_counted (s : State) (ms ns : List Node) (m n : Nat) :
    (s.counted ms m).counted ns n = s.counted ns (m + n) := by
  simp [State.counted, State.withCtx, Nat.add_assoc]

/-- What `writeTree` counts and has still to write plays no part in writing. -/
theorem WroteTo.counted {s u : State} {k : Nat} (h : WroteTo s u k) (ns : List Node) (n : Nat) :
    WroteTo (s.counted ns n) (u.counted ns n) k where
  same := by rw [h.same]; rfl
  total := h.total
  place := h.place
  up := h.up
  outside := h.outside
  stored := h.stored
  canonical := h.canonical
  room := h.room
  acc := h.acc

/-- From `s` to `u`, both between two nodes of `writeTree`, the bits `bs` are written and counted; the subtrees `ns`
are left to write (R190). -/
structure WritesTree (s u : State) (bs : Bits) (ns : List Node) : Prop where
  wrote : WroteTo (s.counted ns bs.length) u bs.length
  bits : writtenBits u = writtenBits s ++ bs

theorem WritesTree.trans {s t u : State} {bs cs : Bits} {ms ns : List Node} (h₁ : WritesTree s t bs ms)
    (h₂ : WritesTree t u cs ns) : WritesTree s u (bs ++ cs) ns where
  wrote := by
    have h := (h₁.wrote.counted ns cs.length).trans h₂.wrote
    rwa [counted_counted, ← List.length_append] at h
  bits := by rw [h₂.bits, h₁.bits, List.append_assoc]

theorem WritesTree.pending {s u : State} {bs : Bits} {ns : List Node} (h : WritesTree s u bs ns) :
    u.ctx.pending = ns := by
  rw [h.wrote.same]
  rfl

theorem WritesTree.treeCount {s u : State} {bs : Bits} {ns : List Node} (h : WritesTree s u bs ns) :
    u.ctx.treeCount = s.ctx.treeCount + bs.length := by
  rw [h.wrote.same]
  rfl

/-- `PH_E_TREE` goes on. -/
theorem WritesTree.goes_on {s u : State} {bs : Bits} {ns : List Node} (h : WritesTree s u bs ns) (hh : s.host = [])
    (hp : s.phase = .eTree) : u.host = [] ∧ u.phase = .eTree :=
  ⟨h.wrote.host.trans hh, h.wrote.phase.trans hp⟩

/-- The token of the next node is written, and its children are next in line (R190). -/
theorem step_writes_token {s : State} {n : Node} {ns : List Node} (hh : s.host = [])
    (hp : s.phase = .eTree) (hpend : s.ctx.pending = n :: ns) (hn : s.ctx.wN < 8)
    (hroom : HasRoom s (tokenBits (tokenOf n)).length) :
    ∃ u, step s = .next u ∧ WritesTree s u (tokenBits (tokenOf n)) (childrenOf n ++ ns) := by
  obtain ⟨u, hexec, hw, hbits⟩ := exec_token_ok (s := s.withCtx { s.ctx with pending := childrenOf n ++ ns })
    (isToken_tokenOf n) hp hn hroom
  have hleft : u.ctx.pending = childrenOf n ++ ns := by rw [hw.same]; rfl
  have hcount : addCount (tokenBits (tokenOf n)).length u =
      u.counted (childrenOf n ++ ns) (tokenBits (tokenOf n)).length := by rw [← hleft]; rfl
  refine ⟨u.counted (childrenOf n ++ ns) (tokenBits (tokenOf n)).length, ?_, hw.counted _ _, hbits⟩
  rw [step_of_host_nil hh, engineStep_pending hp hpend, hexec, hcount]

/-- Where `OUT` has room for the serialization of a subtree, `writeTree` writes it, one token a step (R190). -/
theorem writeTree_reaches {t : Node} {s : State} {ns : List Node} (hh : s.host = []) (hp : s.phase = .eTree)
    (hpend : s.ctx.pending = t :: ns) (hn : s.ctx.wN < 8) (hroom : HasRoom s (treeStream t).length) :
    ∃ u, Reaches s t.size u ∧ WritesTree s u (treeStream t) ns := by
  induction t generalizing s ns with
  | leaf v e =>
    obtain ⟨u, hu, hw⟩ := step_writes_token hh hp hpend hn hroom
    exact ⟨u, .cons hu (.zero u), hw⟩
  | internal l r ihl ihr =>
    rw [treeStream, List.length_append, List.length_append] at hroom
    obtain ⟨t₁, h₁, w₁⟩ := step_writes_token hh hp hpend hn (hroom.mono (Nat.le_add_right ..))
    obtain ⟨hh₁, hp₁⟩ := w₁.goes_on hh hp
    have hn₁ := (w₁.wrote.place hn).1
    have hroom₁ := w₁.wrote.hasRoom hn hroom
    obtain ⟨t₂, h₂, w₂⟩ := ihl hh₁ hp₁ w₁.pending hn₁ (hroom₁.mono (Nat.le_add_right ..))
    obtain ⟨hh₂, hp₂⟩ := w₂.goes_on hh₁ hp₁
    obtain ⟨t₃, h₃, w₃⟩ := ihr hh₂ hp₂ w₂.pending (w₂.wrote.place hn₁).1 (w₂.wrote.hasRoom hn₁ hroom₁)
    refine ⟨t₃, ?_, w₁.trans (w₂.trans w₃)⟩
    rw [Node.size, Nat.add_assoc, Nat.add_comm]
    exact .cons h₁ (h₂.trans h₃)

/-- Settles O44: an unbounded `OUT` has room, and the serialization has `11 * L - 1` bits. -/
theorem treeIsWritten : Obligations.TreeIsWritten := by
  intro s t hp hh hpend hn hcap
  obtain ⟨u, hrun, hw⟩ := writeTree_reaches hh hp hpend hn (.unbounded hcap _)
  have hlen : (treeStream t).length = 11 * t.leaves - 1 := (treeSectionLength.1 t).2
  obtain ⟨-, hphase⟩ := hw.goes_on hh hp
  rw [← hlen]
  exact ⟨u, hrun, hphase, hw.pending, hw.bits, hw.treeCount, hw.wrote.total, (hw.wrote.appended u.ctx).sameInput,
    hw.wrote.sameRegs⟩

end Sys2Proof.Machine
end

section
/-! PROOF. O10, O46 and O52: ENCODE as a whole (R210 to R217). The phases are taken from the last to the first: where a
phase leaves off, the rest of the command is known to come to the reference's end. Between two operations the bits
written and the bits still to write are together the payload, so a write that finds no room means that the payload is
too long for `OUT`. -/

namespace Sys2Proof.Machine

theorem exec_encode_of_not_busy {s : State} (hb : s.busy = false) : exec .encode s = .next (startEncode s) := by
  simp [exec, execEncode, hb]

/-- Settles O10: the start step clears the results, initialises what ENCODE works with, and goes to `PH_E_FREQ`. -/
theorem encodeStarts : Obligations.EncodeStarts := fun s hb =>
  ⟨startEncode s, exec_encode_of_not_busy hb, rfl, rfl, rfl, rfl, rfl, rfl, rfl, rfl, rfl, rfl, rfl, .refl s, rfl, rfl⟩

/-! ### Runs to the end of a command -/

theorem SameInput.trans {s t u : State} (h₁ : SameInput s t) (h₂ : SameInput t u) : SameInput s u := by
  obtain ⟨hmem, hlen, hparams, hhost, hrdata⟩ := h₁
  obtain ⟨hmem', hlen', hparams', hhost', hrdata'⟩ := h₂
  exact ⟨hmem'.trans hmem, hlen'.trans hlen, hparams'.trans hparams, hhost'.trans hhost, hrdata'.trans hrdata⟩

/-- From `s` the machine runs, BUSY all the while, to the end `e` of a command (R316). -/
def Finishes (s : State) (e : Ending) : Prop :=
  ∃ k t, Reaches s k t ∧ (∀ j < k, ∃ u, Reaches s j u ∧ u.busy = true) ∧ Ends t e ∧ SameInput s t

theorem Ends.finishes {s : State} {e : Ending} (h : Ends s e) : Finishes s e :=
  ⟨0, s, .zero s, nofun, h, .refl s⟩

/-- A move of ENGINE inside the command, and the run from there. -/
theorem Finishes.cons {s t : State} {e : Ending} (hh : s.host = []) (hb : s.busy = true)
    (hs : engineStep s = .next t) (h : Finishes t e) : Finishes s e := by
  obtain ⟨k, u, hrun, hbusy, hends, hsame⟩ := h
  have hstep : step s = .next t := (step_of_host_nil hh).trans hs
  refine ⟨k + 1, u, .cons hstep hrun, fun j hj => ?_, hends, (engineStep_move hs).sameInput.trans hsame⟩
  cases j with
  | zero => exact ⟨s, .zero s, hb⟩
  | succ j =>
    obtain ⟨v, hv, hvb⟩ := hbusy j (Nat.lt_of_succ_lt_succ hj)
    exact ⟨v, .cons hstep hv, hvb⟩

theorem Ends.not_busy {t : State} {e : Ending} (h : Ends t e) : t.busy = false := by
  cases e with
  | ok r => obtain ⟨hp, -⟩ := h; rw [State.busy, hp]; rfl
  | error x => obtain ⟨hp, -⟩ := h; rw [State.busy, hp]; rfl

theorem overflow_ends (pos : Nat) (s : State) :
    Ends (faultEntry .outOverflow pos s) (.error (.outOverflow, 0)) := ⟨rfl, rfl, rfl, rfl, rfl⟩

/-! ### Between two operations of ENCODE -/

/-- `OUT` lists exactly the bytes below `OUT_N` (R32). -/
def ListsEmitted (s : State) : Prop := ∀ a, (memGet s.outMem a).isSome = decide (a < s.outN)

theorem Appended.listsEmitted {s u : State} (h : Appended s u) (hs : ListsEmitted s) : ListsEmitted u := by
  intro a
  have hup := h.up
  by_cases ha : s.outN ≤ a ∧ a < u.outN
  · simpa [ha.2] using h.stored a ha.1 ha.2
  · rw [h.outside a (by omega), hs]
    exact decide_eq_decide.2 (by omega)

theorem ListsEmitted.memGet_eq {s : State} (h : ListsEmitted s) (a : Nat) : memGet s.outMem a = (emitted s)[a]? := by
  have ha := h a
  by_cases hlt : a < s.outN
  · exact (emitted_getElem? hlt (by simpa [hlt] using ha)).symm
  · rw [List.getElem?_eq_none (by rw [emitted_length]; omega)]
    simpa [hlt] using ha

theorem writtenBits_length (s : State) : (writtenBits s).length = 8 * s.outN + s.ctx.wN := by
  rw [writtenBits_eq, List.length_append, bytesBits_length, emitted_length, uintBits_length]

/-- ENCODE of `data` between two operations: of the payload all is written but `todo`, and `OUT` has held it so far
(R90, R125, R75). -/
def Encoding (p : Params) (data : List Byte) (s : State) (todo : Bits) : Prop :=
  (s.host = [] ∧ s.params = p ∧ inData s = data ∧ s.err = 0 ∧ s.errPos = 0) ∧
    writtenBits s ++ todo = payloadBits data ∧ s.ctx.wN < 8 ∧ s.ctx.wTotal = (writtenBits s).length ∧
    ListsEmitted s ∧ ∀ c, p.outCap = some c → s.outN ≤ c

/-- The code table is that of `data`'s tree (R180). -/
def HasTableOf (data : List Byte) (s : State) : Prop :=
  s.ctx.ct = (generate (treeOf data)).slots ∧ s.ctx.eobCode = (generate (treeOf data)).eob

theorem WroteTo.hasTableOf {data : List Byte} {s u : State} {n : Nat} (h : WroteTo s u n) (hs : HasTableOf data s) :
    HasTableOf data u := by
  rw [h.same]
  exact hs

theorem overCap_iff {p : Params} {n : Nat} : overCap p n = true ↔ ∃ c, p.outCap = some c ∧ c < n := by
  unfold overCap
  cases p.outCap <;> simp

/-- ENCODE's end depends on no other parameter than `OUT_CAP` (R216). -/
theorem encodeEnding_congr {p q : Params} (h : p.outCap = q.outCap) (data : List Byte) :
    encodeEnding p data = encodeEnding q data := by
  unfold encodeEnding overCap
  rw [h]

theorem dataStream_cons {t : CodeTable} {b : Byte} {code : Bitcode} (h : codeOf t.slots b = some code)
    (data : List Byte) : dataStream t (b :: data) = code ++ dataStream t data := by
  simp [dataStream, h]

theorem dataStream_nil {t : CodeTable} {code : Bitcode} (h : t.eob = some code) : dataStream t [] = code := by
  simp [dataStream, h]

/-- Where input is left, its next byte is the one ENGINE reads, and the rest is left behind it. -/
theorem inData_next {s : State} {data bs : List Byte} {k : Nat} {b : Byte} (hdata : inData s = data)
    (h : data.drop k = b :: bs) : k < s.inLen ∧ inByte s k = b ∧ data.drop (k + 1) = bs := by
  subst hdata
  have hk : k < (inData s).length := by
    by_contra hk
    rw [List.drop_eq_nil_of_le (Nat.not_lt.1 hk)] at h
    cases h
  rw [List.drop_eq_getElem_cons hk] at h
  obtain ⟨hb, hbs⟩ := List.cons.inj h
  exact ⟨by simpa [inData] using hk, by simpa [inData] using hb, hbs⟩

theorem inData_at_end {s : State} {data : List Byte} {k : Nat} (hdata : inData s = data) (h : data.drop k = []) :
    s.inLen ≤ k := by
  subst hdata
  simpa [inData] using List.drop_eq_nil_iff.1 h

theorem busy_of_phase {s : State} {q : Phase} (h : s.phase = q) (hq : q.busy = true) : s.busy = true := by
  rw [State.busy, h, hq]

section
variable {p : Params} {data : List Byte} {s : State}

theorem Encoding.host {todo : Bits} : Encoding p data s todo → s.host = []
  | ⟨⟨hhost, _⟩, _⟩ => hhost

theorem Encoding.params_eq {todo : Bits} : Encoding p data s todo → s.params = p
  | ⟨⟨_, hparams, _⟩, _⟩ => hparams

theorem Encoding.inData_eq {todo : Bits} : Encoding p data s todo → inData s = data
  | ⟨⟨_, _, hdata, _⟩, _⟩ => hdata

theorem Encoding.payload_length {todo : Bits} (h : Encoding p data s todo) :
    (payloadBits data).length = 8 * s.outN + s.ctx.wN + todo.length := by
  obtain ⟨-, hbits, -⟩ := h
  rw [← hbits, List.length_append, writtenBits_length]

/-- A byte too many for `OUT` means that the whole payload has too many (R215). -/
theorem Encoding.overflows {todo : Bits} {c : Nat} (h : Encoding p data s todo) (hcap : p.outCap = some c)
    (hover : c < (8 * s.outN + s.ctx.wN + todo.length + 7) / 8) :
    encodeEnding p data = .error (.outOverflow, 0) := by
  refine if_pos (overCap_iff.2 ⟨c, hcap, ?_⟩)
  rwa [encodeBytes, packBits_length, h.payload_length]

/-- Bits written are no longer to be written. -/
theorem Encoding.wrote {bs rest : Bits} {u : State} (h : Encoding p data s (bs ++ rest))
    (hu : writeBits bs s = .ok () u) : Encoding p data u rest := by
  have hparams := h.params_eq
  obtain ⟨hfixed, hbits, hn, htotal, hlist, hroom⟩ := h
  have hw := writeBits_wrote hu
  have hwritten := writeBits_written hn hu
  refine ⟨?_, ?_, (hw.place hn).1, ?_, (hw.appended u.ctx).listsEmitted hlist, fun c hc => ?_⟩
  · rw [hw.same]; exact hfixed
  · rw [hwritten, List.append_assoc, hbits]
  · rw [hw.total, htotal, hwritten, List.length_append]
  · exact hw.room c (hparams ▸ hc) (hroom c hc)

/-- The next bits are written, or the payload is too long and they overflow (R75, R215). -/
theorem Encoding.writes_or_overflows {bs rest : Bits} (h : Encoding p data s (bs ++ rest)) :
    (∃ u, writeBits bs s = .ok () u) ∨
    encodeEnding p data = .error (.outOverflow, 0) ∧
      ∃ u, writeBits bs s = .raised (faultEntry .outOverflow 0 u) := by
  obtain hok | ⟨u, n, -, -, v, hr⟩ := writeBits_cases bs s
  · exact .inl hok
  · have hroom : ¬ HasRoom s bs.length := fun hroom => by
      obtain ⟨-, -, hn, -⟩ := h
      obtain ⟨t, ht⟩ := writeBits_ok hn hroom
      cases ht.symm.trans hr
    simp only [HasRoom, not_forall, Nat.not_le] at hroom
    obtain ⟨c, hcap, hover⟩ := hroom
    refine .inr ⟨h.overflows (h.params_eq ▸ hcap) ?_, _, hr⟩
    rw [List.length_append]
    omega

/-- A move that writes the next bits ends ENCODE as the reference does if the rest of the command does. The bits may be
written from a state `v` that differs from `s` in what is still to do. -/
theorem Encoding.finishes_of_write {v : State} {bs rest : Bits} {f : State → State}
    (h : Encoding p data v (bs ++ rest)) (hh : s.host = []) (hb : s.busy = true)
    (hs : engineStep s = ((writeBits bs v).bind fun _ u => Res.ok () (f u)).toOutcome)
    (hgo : ∀ u, WroteTo v u bs.length → Encoding p data u rest → Finishes (f u) (encodeEnding p data)) :
    Finishes s (encodeEnding p data) := by
  obtain ⟨u, hu⟩ | ⟨hover, u, hr⟩ := h.writes_or_overflows
  · rw [hu] at hs
    exact .cons hh hb hs (hgo u (writeBits_wrote hu) (h.wrote hu))
  · rw [hr] at hs
    exact .cons hh hb hs (hover ▸ (overflow_ends 0 u).finishes)

/-! ### The end: PH_E_FINISH and PH_E_EOB -/

theorem finish_raised {t : State} (h : finish s = .raised t) : 0 < s.ctx.wN ∧ outFull s = true := by
  rcases finish_outcomes s with ⟨-, he⟩ | ⟨hn, ho, -⟩ | ⟨-, -, he⟩
  · cases he.symm.trans h
  · exact ⟨hn, ho⟩
  · cases he.symm.trans h

/-- `finish` overflows only where the payload is too long (R124, R215). -/
theorem Encoding.overflows_of_finish {t : State} (h : Encoding p data s []) (hr : finish s = .raised t) :
    encodeEnding p data = .error (.outOverflow, 0) := by
  obtain ⟨hn, hfull⟩ := finish_raised hr
  have hcap : ¬ ∀ c, s.params.outCap = some c → s.outN < c := fun hcap => by
    rw [(outFull_eq_false_iff s).2 hcap] at hfull
    cases hfull
  simp only [not_forall, Nat.not_lt] at hcap
  obtain ⟨c, hc, hle⟩ := hcap
  refine h.overflows (h.params_eq ▸ hc) ?_
  rw [List.length_nil]
  omega

/-- When `finish` has completed, the payload fits and `OUT` holds it; the accounting is that of its two sections (R213,
R214). -/
theorem Encoding.ends_of_finish {u : State} (h : Encoding p data s [])
    (hcount : s.ctx.treeCount = (treeStream (treeOf data)).length) (hu : finish s = .ok () u) (ha : Appended s u)
    (hctx : u.ctx = { s.ctx with wAcc := u.ctx.wAcc, wN := u.ctx.wN }) :
    Ends (complete (encodeAccounting u)) (encodeEnding p data) := by
  obtain ⟨⟨-, hparams, -, herr, hpos⟩, hbits, hn, htotal, hlist, hroom⟩ := h
  rw [List.append_nil] at hbits
  have hout : emitted u = encodeBytes data := by rw [finish_emitted hn hu, hbits, encodeBytes]
  have hfits : ¬ overCap p (encodeBytes data).length = true := fun hover => by
    obtain ⟨c, hc, hlt⟩ := overCap_iff.1 hover
    have hle := ha.room c (hparams ▸ hc) (hroom c hc)
    rw [← hout, emitted_length] at hlt
    omega
  have htree : u.ctx.treeCount = (treeStream (treeOf data)).length := by rw [hctx]; exact hcount
  have hsum : u.ctx.wTotal = u.ctx.treeCount + (dataStream (generate (treeOf data)) data).length := by
    rw [htree, hctx, htotal, hbits, payloadBits, List.length_append]
  rw [encodeEnding, if_neg hfits, ← hout]
  refine ⟨rfl, ?_, ?_, (emitted_length u).symm, (ha.listsEmitted hlist).memGet_eq, htree, Nat.sub_eq_of_eq_add' hsum,
    htree ▸ hsum⟩
  · rw [ha.same]; exact herr
  · rw [ha.same]; exact hpos

/-- The last operation completes ENCODE or overflows (R212 to R215). -/
theorem finishes_of_eFinish (hp : s.phase = .eFinish) (h : Encoding p data s [])
    (hcount : s.ctx.treeCount = (treeStream (treeOf data)).length) : Finishes s (encodeEnding p data) := by
  have hs : engineStep s = ((finish s).bind fun _ u => .ok () (complete (encodeAccounting u))).toOutcome := by
    simp [engineStep, hp, finishStep]
  have hb := busy_of_phase hp rfl
  obtain ⟨u, hu, ha, hctx⟩ | hr := finish_cases s
  · rw [hu] at hs
    exact .cons h.host hb hs (h.ends_of_finish hcount hu ha hctx).finishes
  · rw [hr] at hs
    exact .cons h.host hb hs (h.overflows_of_finish hr ▸ (overflow_ends 0 s).finishes)

/-- EOB's code is written (R98, R212). -/
theorem finishes_of_eEob (hp : s.phase = .eEob) (htable : HasTableOf data s)
    (h : Encoding p data s (dataStream (generate (treeOf data)) []))
    (hcount : s.ctx.treeCount = (treeStream (treeOf data)).length) : Finishes s (encodeEnding p data) := by
  obtain ⟨code, hcode⟩ := Option.isSome_iff_exists.1 (eob_treeOf_isSome data)
  obtain ⟨-, heob⟩ := htable
  rw [dataStream_nil hcode, ← List.append_nil code] at h
  refine h.finishes_of_write (f := fun u => u.withPhase .eFinish) h.host (busy_of_phase hp rfl) ?_ fun u hw hu => ?_
  · simp [engineStep, hp, eobStep, heob, hcode, writeCode]
  · obtain ⟨hcount', -⟩ := hw.ctx_frame
    exact finishes_of_eFinish rfl hu (hcount'.trans hcount)

/-! ### The data pass: PH_E_DATA -/

/-- One code for each byte that is left, by induction on those bytes (R212). -/
theorem finishes_of_eData {rest : List Byte} (hp : s.phase = .eData) (hrest : data.drop s.ctx.eIdx = rest)
    (htable : HasTableOf data s) (h : Encoding p data s (dataStream (generate (treeOf data)) rest))
    (hcount : s.ctx.treeCount = (treeStream (treeOf data)).length) : Finishes s (encodeEnding p data) := by
  induction rest generalizing s with
  | nil =>
    have hend := inData_at_end h.inData_eq hrest
    refine .cons (t := s.withPhase .eEob) h.host (busy_of_phase hp rfl) ?_ (finishes_of_eEob rfl htable h hcount)
    simp [engineStep, hp, dataStep, Nat.not_lt.2 hend]
  | cons b bs ih =>
    have hmem : b ∈ data := List.mem_of_mem_drop (hrest ▸ List.mem_cons_self ..)
    obtain ⟨code, hcode⟩ := Option.isSome_iff_exists.1 ((codeOf_treeOf_isSome data b).2 hmem)
    obtain ⟨hlt, hbyte, hnext⟩ := inData_next h.inData_eq hrest
    rw [dataStream_cons hcode] at h
    refine h.finishes_of_write (f := fun u => u.withCtx { u.ctx with eIdx := u.ctx.eIdx + 1 }) h.host
      (busy_of_phase hp rfl) ?_ fun u hw hu => ?_
    · obtain ⟨hslots, -⟩ := htable
      simp [engineStep, hp, dataStep, hlt, hbyte, hslots, hcode, writeCode]
    · obtain ⟨hcount', hidx, -⟩ := hw.ctx_frame
      refine ih (hw.phase.trans hp) ?_ (hw.hasTableOf htable) hu (hcount'.trans hcount)
      rw [State.withCtx_ctx, hidx, hnext]

/-! ### The tree: PH_E_TREE and PH_E_CODES -/

/-- The bits of the subtrees `ns` in order (R190). -/
def forestStream (ns : List Node) : Bits := ns.flatMap treeStream

/-- A subtree's serialization is its root's token and then its children's serializations (R92, R190). -/
theorem forestStream_cons (n : Node) (ns : List Node) :
    forestStream (n :: ns) = tokenBits (tokenOf n) ++ forestStream (childrenOf n ++ ns) := by
  cases n <;> simp [forestStream, treeStream, tokenOf, childrenOf]

/-- `writeTree` has the subtrees `ns` of `data`'s tree still to write (R190). -/
def WritingTree (p : Params) (data : List Byte) (s : State) (ns : List Node) : Prop :=
  s.phase = .eTree ∧ s.ctx.pending = ns ∧ HasTableOf data s ∧
    s.ctx.treeCount + (forestStream ns).length = (treeStream (treeOf data)).length ∧
    Encoding p data s (forestStream ns ++ dataStream (generate (treeOf data)) data)

/-- The token of the next node is written and counted, and its children are next in line (R190). -/
theorem WritingTree.finishes_of_token {n : Node} {ns : List Node} (h : WritingTree p data s (n :: ns))
    (hgo : ∀ u, WritingTree p data u (childrenOf n ++ ns) → Finishes u (encodeEnding p data)) :
    Finishes s (encodeEnding p data) := by
  obtain ⟨hp, hpend, htable, hcount, henc⟩ := h
  rw [forestStream_cons] at hcount henc
  rw [List.length_append] at hcount
  rw [List.append_assoc] at henc
  have hlined : Encoding p data (s.withCtx { s.ctx with pending := childrenOf n ++ ns })
      (tokenBits (tokenOf n) ++ (forestStream (childrenOf n ++ ns) ++ dataStream (generate (treeOf data)) data)) := henc
  refine hlined.finishes_of_write henc.host (busy_of_phase hp rfl)
    ((engineStep_pending hp hpend).trans (exec_token_writes (isToken_tokenOf n) hp)) fun u hw hu => hgo _ ?_
  obtain ⟨hcount', -, -, hpend'⟩ := hw.ctx_frame
  refine ⟨hw.phase.trans hp, hpend', hw.hasTableOf htable, ?_, hu⟩
  rw [addCount, State.withCtx_ctx]
  simp only [hcount', State.withCtx_ctx]
  omega

/-- A subtree is written token by token, by induction on the subtree (R190). -/
theorem WritingTree.finishes_of_subtree {t : Node} {ns : List Node} (h : WritingTree p data s (t :: ns))
    (hgo : ∀ u, WritingTree p data u ns → Finishes u (encodeEnding p data)) : Finishes s (encodeEnding p data) := by
  induction t generalizing s ns with
  | leaf v e => exact h.finishes_of_token hgo
  | internal l r ihl ihr => exact h.finishes_of_token fun u hu => ihl hu fun u hu => ihr hu hgo

/-- Behind the last node the data pass begins (R212). -/
theorem WritingTree.finishes_of_nil (h : WritingTree p data s []) : Finishes s (encodeEnding p data) := by
  obtain ⟨hp, hpend, htable, hcount, henc⟩ := h
  refine .cons (t := beginData s) henc.host (busy_of_phase hp rfl) ?_
    (finishes_of_eData (s := beginData s) (rest := data) rfl rfl htable henc hcount)
  simp [engineStep, hp, writeTreeStep, hpend]

/-- The table is generated, and the root is the one subtree to write (R180, R212). -/
theorem finishes_of_eCodes (hp : s.phase = .eCodes) (hroot : s.ctx.root = treeOf data)
    (h : Encoding p data s (payloadBits data)) : Finishes s (encodeEnding p data) := by
  have hs : engineStep s = generateStep s := by simp [engineStep, hp]
  refine .cons h.host (busy_of_phase hp rfl) hs
    (WritingTree.finishes_of_subtree (t := treeOf data) (ns := []) ?_ fun u hu => hu.finishes_of_nil)
  have htree : forestStream [treeOf data] = treeStream (treeOf data) := List.flatMap_singleton ..
  rw [hroot]
  refine ⟨rfl, rfl, ⟨rfl, rfl⟩, ?_, ?_⟩ <;> rw [htree]
  · exact Nat.zero_add _
  · exact h

/-! ### The tree builder and the analyzer: PH_E_BUILD and PH_E_FREQ -/

/-- Merging goes on to the one entry that is left, by induction on the number of merges (R163). -/
theorem finishes_of_merges {n : Nat} {e : Entry} (hp : s.phase = .eBuild) (hwl : mergeAll n s.ctx.wl = [e])
    (he : treeOf data = e.node) (h : Encoding p data s (payloadBits data)) : Finishes s (encodeEnding p data) := by
  have hlast {s : State} (hp : s.phase = .eBuild) (hwl : s.ctx.wl = [e]) (h : Encoding p data s (payloadBits data)) :
      Finishes s (encodeEnding p data) := by
    refine .cons (t := (s.withCtx { s.ctx with root := e.node }).withPhase .eCodes) h.host (busy_of_phase hp rfl) ?_
      (finishes_of_eCodes rfl he.symm h)
    simp [engineStep, hp, buildStep, hwl]
  induction n generalizing s with
  | zero => exact hlast hp hwl h
  | succ n ih =>
    unfold mergeAll at hwl
    split at hwl
    · next e₁ e₂ es hmany =>
      refine .cons (t := s.withCtx { s.ctx with wl := mergeStep (e₁ :: e₂ :: es) }) h.host
        (busy_of_phase hp rfl) ?_ (ih hp hwl h)
      simp [engineStep, hp, buildStep, hmany]
    · exact hlast hp hwl h

/-- The merges of an input's first working list end in its tree (R163). -/
theorem mergeAll_initWL (data : List Byte) :
    ∃ e, mergeAll (analyzeAll data).length (initWL (analyzeAll data)) = [e] ∧ treeOf data = e.node := by
  have hlen : (initWL (analyzeAll data)).length = (analyzeAll data).length := List.length_map ..
  have hpos : 0 < (analyzeAll data).length := by rw [analyzeAll_length]; omega
  obtain ⟨e, he, -⟩ := mergeAll_induction (P := fun _ => True) (fun _ _ _ => trivial) (analyzeAll data).length
    (initWL (analyzeAll data)) (List.ne_nil_of_length_pos (by omega)) (by omega) trivial
  exact ⟨e, he, by rw [treeOf, buildTree, he]⟩

/-- The working list is made of the frequency list's rows, and merged (R160, R163). -/
theorem finishes_of_eBuild (hp : s.phase = .eBuild) (hwl : s.ctx.wl = []) (hft : s.ctx.ft = analyzeAll data)
    (h : Encoding p data s (payloadBits data)) : Finishes s (encodeEnding p data) := by
  obtain ⟨e, hmerge, he⟩ := mergeAll_initWL data
  refine .cons (t := s.withCtx { s.ctx with wl := initWL (analyzeAll data) }) h.host (busy_of_phase hp rfl) ?_
    (finishes_of_merges hp hmerge he h)
  have hne : analyzeAll data ≠ [] := by simp [analyzeAll_eq]
  obtain ⟨r, rs, hrows⟩ := List.exists_cons_of_ne_nil hne
  simp [engineStep, hp, buildStep, hwl, hft, hrows]

/-- Each byte that is left is counted, by induction on those bytes (R150). -/
theorem finishes_of_eFreq {rest : List Byte} (hp : s.phase = .eFreq) (hwl : s.ctx.wl = [])
    (hrest : data.drop s.ctx.eIdx = rest)
    (hft : rest.foldl (fun ft b => countByte b ft) s.ctx.ft = byteRows data)
    (h : Encoding p data s (payloadBits data)) : Finishes s (encodeEnding p data) := by
  induction rest generalizing s with
  | nil =>
    have hend := inData_at_end h.inData_eq hrest
    refine .cons (t := (s.withCtx { s.ctx with ft := s.ctx.ft ++ [eobRow] }).withPhase .eBuild) h.host
      (busy_of_phase hp rfl) ?_ (finishes_of_eBuild rfl hwl ?_ h)
    · simp [engineStep, hp, analyzeStep, Nat.not_lt.2 hend]
    · rw [analyzeAll_eq, ← hft]
      rfl
  | cons b bs ih =>
    obtain ⟨hlt, hbyte, hnext⟩ := inData_next h.inData_eq hrest
    refine .cons (t := s.withCtx { s.ctx with ft := countByte b s.ctx.ft, eIdx := s.ctx.eIdx + 1 }) h.host
      (busy_of_phase hp rfl) ?_ (ih hp hwl hnext hft h)
    simp [engineStep, hp, analyzeStep, hlt, hbyte]

end

/-! ### The whole command -/

/-- The start step has the whole payload still to write (R211). -/
theorem startEncode_encoding {s : State} (hh : s.host = []) :
    Encoding s.params (inData (startEncode s)) (startEncode s) (payloadBits (inData (startEncode s))) :=
  ⟨⟨hh, rfl, rfl, rfl, rfl⟩, rfl, Nat.zero_lt_succ 7, rfl, fun _ => rfl, fun _ _ => Nat.zero_le _⟩

theorem startEncode_finishes {s : State} (hh : s.host = []) :
    Finishes (startEncode s) (encodeEnding s.params (inData (startEncode s))) :=
  finishes_of_eFreq rfl rfl rfl rfl (startEncode_encoding hh)

/-- Settles O46: from its start step ENCODE runs through its phases to the reference's end. -/
theorem encodeRuns : Obligations.EncodeRuns := fun s hb hh =>
  ⟨exec_encode_of_not_busy hb, startEncode_finishes (s := s) hh⟩

/-- Two states at one and the same end of a command agree in what it leaves (R316). -/
theorem Ends.agree {t u : State} {e : Ending} (ht : Ends t e) (hu : Ends u e) :
    t.phase = u.phase ∧ t.err = u.err ∧ t.errPos = u.errPos ∧ t.outLen = u.outLen ∧
      (∀ a, memGet t.outMem a = memGet u.outMem a) ∧
      (t.phase = .done → t.treeBits = u.treeBits ∧ t.dataBits = u.dataBits ∧ t.totalBits = u.totalBits) := by
  cases e with
  | ok r =>
    obtain ⟨hp, herr, hpos, hlen, hout, htree, hdata, htotal⟩ := ht
    obtain ⟨hp', herr', hpos', hlen', hout', htree', hdata', htotal'⟩ := hu
    exact ⟨hp.trans hp'.symm, herr.trans herr'.symm, hpos.trans hpos'.symm, hlen.trans hlen'.symm,
      fun a => (hout a).trans (hout' a).symm,
      fun _ => ⟨htree.trans htree'.symm, hdata.trans hdata'.symm, htotal.trans htotal'.symm⟩⟩
  | error x =>
    obtain ⟨hp, herr, hpos, hlen, hout⟩ := ht
    obtain ⟨hp', herr', hpos', hlen', hout'⟩ := hu
    have hdone : t.phase ≠ .done := by rw [hp]; exact nofun
    exact ⟨hp.trans hp'.symm, herr.trans herr'.symm, hpos.trans hpos'.symm, hlen.trans hlen'.symm,
      fun a => by rw [hout, hout'], fun h => absurd h hdone⟩

/-- Settles O52: both runs come to the reference's end for the one input, which depends on `OUT_CAP` only. -/
theorem encodeDependsOnInputOnly : Obligations.EncodeDependsOnInputOnly := by
  intro s₁ s₂ _ _ hh₁ hh₂ hcap hdata
  obtain ⟨k₁, t₁, hrun₁, -, hends₁, -⟩ := startEncode_finishes hh₁
  obtain ⟨k₂, t₂, hrun₂, -, hends₂, -⟩ := startEncode_finishes hh₂
  rw [← hdata, ← encodeEnding_congr hcap] at hends₂
  exact ⟨k₁, k₂, t₁, t₂, hrun₁, hrun₂, hends₁.not_busy, hends₁.agree hends₂⟩

end Sys2Proof.Machine
end

section
/-! PROOF. O11, O21, O22 and O47: DECODE as a whole (R230 to R241). The reference's recursion is followed as it is
written: its first operation is the machine's next move, and what the rest of the command comes to from the state behind
that move is given by the recursion's own continuation. -/

namespace Sys2Proof.Machine

theorem exec_decode_of_not_busy {s : State} (hb : s.busy = false) : exec .decode s = .next (startDecode s) := by
  simp [exec, execDecode, hb]

/-- Settles O11: the start step clears the results, initialises what the tree reader works with, and goes to
`PH_D_TREE`. -/
theorem decodeStarts : Obligations.DecodeStarts := fun s hb =>
  ⟨startDecode s, exec_decode_of_not_busy hb, rfl, rfl, rfl, rfl, rfl, rfl, rfl, rfl, rfl, rfl, rfl, .refl s, rfl, rfl⟩

/-! ### One iteration of the walk -/

section
variable {s : State}

/-- Where a bit is left, the walk reads it, descends one edge, and acts on the node it has reached (R233). -/
theorem engineStep_walk {b : Bool} {u : State} (hp : s.phase = .dWalk) (hr : readBit s = .ok b u) :
    engineStep s = (arrive (descend b u.ctx.cur) u).toOutcome := by
  simp [engineStep, hp, walkStep, hr]

/-- Where no bit is left, the walk raises OutOfData, whatever `OUT` holds (R236, R276). -/
theorem engineStep_walk_at_end (hp : s.phase = .dWalk) (hpos : 8 * s.inLen ≤ s.ctx.rPos) :
    engineStep s = .next (faultEntry .outOfData s.ctx.rPos s) := by
  have hnone : readBitAvailable s = false := decide_eq_false (Nat.not_lt.2 hpos)
  simp [engineStep, hp, walkStep, readBit, hnone, raise]

/-- The walk behind a symbol: its byte is stored, and the next one begins at the root (R233, R75). -/
def State.emittedSymbol (s : State) (v : Byte) : State :=
  { s with outMem := memSet s.outMem s.outN v, outN := s.outN + 1, ctx := { s.ctx with cur := s.ctx.root } }

theorem arrive_symbol (v : Byte) (h : outFull s = false) :
    arrive (.leaf v false) s = .ok () (s.emittedSymbol v) := by
  simp only [arrive, emit_room h]
  rfl

theorem arrive_symbol_full (v : Byte) (h : outFull s = true) :
    arrive (.leaf v false) s = .raised (faultEntry .outOverflow 0 s) := by
  simp [arrive, emit, h, raise]

end

/-- Settles O21, by the node that is reached. -/
theorem walkReadsOneBit : Obligations.WalkReadsOneBit := by
  intro s n hp hpos hn
  have hreach : descend (inBit s s.ctx.rPos) s.ctx.cur = n := by
    rw [hn]
    cases s.ctx.cur <;> rfl
  have hstep : engineStep s = (arrive n (s.skip 1)).toOutcome := hreach ▸ engineStep_walk hp (readBit_below hpos)
  match n with
  | .internal l r => exact hstep
  | .leaf v true => exact ⟨_, hstep, rfl, rfl, rfl, rfl, rfl, ⟨rfl, rfl⟩, .refl s, rfl, rfl⟩
  | .leaf v false =>
    intro hroom
    have hemit := arrive_symbol (s := s.skip 1) v ((outFull_eq_false_iff _).2 hroom)
    rw [hemit] at hstep
    exact hstep

/-- Settles O22: the bit is read before the byte is emitted. -/
theorem walkFaults : Obligations.WalkFaults := by
  intro s hp
  refine ⟨fun hend => ⟨_, engineStep_walk_at_end hp hend, rfl, rfl, rfl, rfl⟩, fun v hpos hcap hleaf => ?_⟩
  have hstep : engineStep s = (arrive (.leaf v false) (s.skip 1)).toOutcome :=
    hleaf ▸ engineStep_walk hp (readBit_below hpos)
  rw [arrive_symbol_full (s := s.skip 1) v (outFull_of_outCap_eq hcap)] at hstep
  exact ⟨_, hstep, rfl, rfl, rfl, rfl⟩

/-! ### The tree: PH_D_TREE -/

/-- The reader behind the node `t`, which is not returned yet, as `readNode` hands it back (R192). -/
def State.behindParsed (s : State) (t : Parsed) : State :=
  s.withCtx { s.ctx with nNodes := t.nNodes, hasEob := t.hasEob, rPos := t.pos }

/-- The inner node of a left and a right subtree that are read one after the other (R192). -/
def Parsed.join (l r : Parsed) : Parsed := ⟨.internal l.node r.node, r.nNodes, r.hasEob, r.pos, r.rest⟩

/-- The reader behind the token of an inner node: its left child is awaited (R192). -/
def State.awaitingLeft (s : State) : State := s.behindMarker.withStack (.awaitLeft :: s.ctx.readStack)

/-- The reader behind the left subtree `l` of an inner node: its right child is awaited (R192). -/
def State.awaitingRight (s : State) (l : Parsed) : State :=
  (s.behindParsed l).withStack (.awaitRight l.node :: s.ctx.readStack)

theorem finishNode_awaitingLeft (s : State) (l : Parsed) :
    finishNode l.node (s.awaitingLeft.behindParsed l) = s.awaitingRight l := rfl

theorem finishNode_awaitingRight (s : State) (l r : Parsed) :
    finishNode r.node ((s.awaitingRight l).behindParsed r) = finishNode (l.join r).node (s.behindParsed (l.join r)) :=
  rfl

section
variable {p : Params} {fuel d n pos : Nat} {he : Bool} {bs rest : Bits}

/-- Beyond `DEPTH_MAX` there is no node, whatever the fuel (R193, R198). -/
theorem parseNode_too_deep (hd : p.depthMax < d) : parseNode p fuel d n he pos bs = .error (.malformedDepth, pos) := by
  cases fuel <;> simp [parseNode, hd]

theorem parseNode_too_many (hd : d ≤ p.depthMax) (hn : p.nodeCap ≤ n) :
    parseNode p (fuel + 1) d n he pos bs = .error (.malformedCapacity, pos) := by
  simp [parseNode, Nat.not_lt.2 hd, hn]

theorem parseNode_truncated {x : Rejection} (hd : d ≤ p.depthMax) (hn : n < p.nodeCap)
    (hx : decodeToken bs = .error x) :
    parseNode p (fuel + 1) d n he pos bs = .error (.outOfData, pos + bs.length) := by
  simp [parseNode, Nat.not_lt.2 hd, Nat.not_le.2 hn, hx]

/-- Behind an inner node's marker its two subtrees are read in turn; `k` is what is done with the node (R192). -/
theorem parseNode_internal (hd : d ≤ p.depthMax) (hn : n < p.nodeCap) (k : Parsed → Ending) :
    (parseNode p (fuel + 1) d n he pos (tokenBits .treeInternal ++ rest)).bind k =
      (parseNode p fuel (d + 1) (n + 1) he (pos + 1) rest).bind fun l =>
        (parseNode p fuel (d + 1) l.nNodes l.hasEob l.pos l.rest).bind fun r => k (l.join r) := by
  simp only [parseNode, Nat.not_lt.2 hd, Nat.not_le.2 hn, if_false, decodeToken_treeInternal]
  cases parseNode p fuel (d + 1) (n + 1) he (pos + 1) rest with
  | error x => rfl
  | ok l =>
    simp only [Except.bind]
    cases parseNode p fuel (d + 1) l.nNodes l.hasEob l.pos l.rest <;> rfl

end

theorem fault_ends {f : FaultKind} {pos : Nat} (s : State) : Ends (faultEntry f pos s) (.error (f, pos)) :=
  ⟨rfl, rfl, rfl, rfl, rfl⟩

section
variable {s : State}

/-- Where the bits not read yet begin with no token, none is fetched (R92, R192). -/
theorem peekToken_of_decodeToken_error {x : Rejection} (h : decodeToken (unread s) = .error x) :
    peekToken s = none := by
  by_contra hsome
  obtain ⟨i, hi⟩ := Option.ne_none_iff_exists'.1 hsome
  obtain ⟨htoken, rest, hbits⟩ := peekToken_eq_some_iff.1 hi
  rw [← hbits, decodeToken_tokenBits htoken] at h
  cases h

/-- The bits behind a node that is read are those not read yet (R192). -/
theorem unread_behindParsed {fuel d n : Nat} {he : Bool} {p : Params} {t : Parsed}
    (h : parseNode p fuel d n he s.ctx.rPos (unread s) = .ok t) : unread (s.behindParsed t) = t.rest := by
  obtain ⟨hbits, hpos, -⟩ := parseNode_reads h
  rw [State.behindParsed, unread_withCtx hpos, hbits, List.drop_left]

/-- `readNode(d)` at the read cursor, `d` being the depth of the node about to be read (R192). -/
def parseAt (s : State) (fuel : Nat) : Except (FaultKind × Nat) Parsed :=
  parseNode s.params fuel (readDepth s) s.ctx.nNodes s.ctx.hasEob s.ctx.rPos (unread s)

/-- ENGINE's first move faults at a limit (R193). -/
theorem finishes_of_enterNode_raised {f : FaultKind} {pos : Nat} (hh : s.host = []) (hp : s.phase = .dTree)
    (hr : enterNode s = .raised (faultEntry f pos s)) : Finishes s (.error (f, pos)) := by
  obtain ⟨g, hg⟩ := engineStep_enters hp
  rw [hr] at hg
  exact .cons hh (busy_of_phase hp rfl) hg (fault_ends s).finishes

/-- `PH_D_TREE` reads the node at the cursor as the reference does, and faults where it does; where the node is
returned, the command goes on to `k`'s end (R192, R193). By induction on the reference's fuel. -/
theorem finishes_of_dTree {fuel : Nat} {k : Parsed → Ending} (hh : s.host = []) (hp : s.phase = .dTree)
    (hfuel : s.params.depthMax < fuel + readDepth s)
    (hgo : ∀ t, unread (s.behindParsed t) = t.rest → Finishes (finishNode t.node (s.behindParsed t)) (k t)) :
    Finishes s ((parseAt s fuel).bind k) := by
  induction fuel generalizing s k with
  | zero =>
    rw [Nat.zero_add] at hfuel
    rw [parseAt, parseNode_too_deep hfuel]
    exact finishes_of_enterNode_raised hh hp (enterNode_too_deep hfuel)
  | succ fuel ih =>
    have hb := busy_of_phase hp rfl
    obtain ⟨hd, hr⟩ | ⟨hd, hn, hr⟩ | ⟨hd, hn, hr⟩ := enterNode_cases s
    · rw [parseAt, parseNode_too_deep hd]
      exact finishes_of_enterNode_raised hh hp hr
    · rw [parseAt, parseNode_too_many hd hn]
      exact finishes_of_enterNode_raised hh hp hr
    cases htok : decodeToken (unread s) with
    | error x =>
      have hstep := engineStep_truncated hp (peekToken_of_decodeToken_error htok)
      rw [readTruncated, hr] at hstep
      have hend : s.ctx.rPos + (unread s).length = max s.ctx.rPos (8 * s.inLen) := by rw [unread_length]; omega
      rw [parseAt, parseNode_truncated hd hn htok, hend]
      exact .cons hh hb hstep (fault_ends _).finishes
    | ok res =>
      obtain ⟨i, rest⟩ := res
      obtain ⟨hi, hbits⟩ := eq_tokenBits_append htok
      have hstep : engineStep s = exec i s :=
        engineStep_fetched hp (peekToken_eq_some_iff.2 ⟨hi, rest, hbits.symm⟩)
      cases i with
      | nop | encode | decode | reserved => cases hi
      | treeLeaf e v =>
        have hparse : parseAt s (fuel + 1) =
            .ok ⟨.leaf v e, s.ctx.nNodes + 1, s.ctx.hasEob || e, s.ctx.rPos + 10, rest⟩ :=
          parseNode_eq_ok.2 ⟨hd, hn, .inl ⟨e, v, rest, hbits, rfl⟩⟩
        rw [exec_treeLeaf_returns hp hd hn, behindTree_leaf] at hstep
        rw [hparse]
        exact .cons hh hb hstep (hgo _ (unread_behindParsed hparse))
      | treeInternal =>
        have hmarker : unread s.behindMarker = rest := by
          rw [State.behindMarker, unread_withCtx rfl, hbits]
          rfl
        have hdeeper : s.params.depthMax < fuel + (readDepth s + 1) := by omega
        rw [treeInternalRead s hp hd hn] at hstep
        rw [parseAt, hbits, parseNode_internal hd hn, ← hmarker]
        refine .cons hh hb hstep (ih (s := s.awaitingLeft) hh hp hdeeper fun l hl => ?_)
        rw [finishNode_awaitingLeft, ← hl]
        refine ih (s := s.awaitingRight l) hh hp hdeeper fun r hr => ?_
        rw [finishNode_awaitingRight]
        exact hgo (l.join r) hr

end

/-! ### The walk: PH_D_WALK and PH_D_CHECK -/

/-- DECODE between two moves behind its tree: the bytes `out` have been emitted (R233, R75). -/
def Decoding (s : State) (out : List Byte) : Prop :=
  (s.host = [] ∧ s.err = 0 ∧ s.errPos = 0) ∧ s.treeBits ≤ s.ctx.rPos ∧ s.outN = out.length ∧
    ∀ a, memGet s.outMem a = out[a]?

/-- How the reference ends DECODE from where the walk stands, with the bytes `out` emitted (R233 to R237). -/
def walkEnding (s : State) (out : List Byte) : Ending :=
  (walkFrom s.params s.ctx.root (unread s) s.ctx.rPos s.ctx.cur out).bind fun res =>
    .ok ⟨res.1, s.treeBits, res.2 - s.treeBits⟩

section
variable {s : State} {out : List Byte}

theorem Decoding.host : Decoding s out → s.host = []
  | ⟨⟨hhost, _⟩, _⟩ => hhost

theorem Decoding.overCap_eq_outFull (h : Decoding s out) : overCap s.params (out.length + 1) = outFull s := by
  obtain ⟨-, -, hlen, -⟩ := h
  unfold overCap outFull
  rw [hlen]
  cases s.params.outCap with
  | none => rfl
  | some c => exact decide_eq_decide.2 Nat.lt_succ_iff

theorem Decoding.skip_one (h : Decoding s out) : Decoding (s.skip 1) out := by
  obtain ⟨hfixed, hpos, hout⟩ := h
  exact ⟨hfixed, Nat.le_succ_of_le hpos, hout⟩

/-- A byte emitted goes behind those emitted before (R75). -/
theorem Decoding.emittedSymbol (v : Byte) (h : Decoding s out) : Decoding (s.emittedSymbol v) (out ++ [v]) := by
  obtain ⟨hfixed, hpos, hlen, hout⟩ := h
  refine ⟨hfixed, hpos, ?_, fun a => ?_⟩
  · rw [List.length_append, ← hlen]
    rfl
  · rw [State.emittedSymbol, memGet_memSet, hlen, hout]
    split_ifs with ha
    · rw [ha, List.getElem?_concat_length]
    · rw [List.getElem?_append]
      split_ifs with hlt
      · rfl
      · rw [List.getElem?_eq_none (by omega), List.getElem?_eq_none (by rw [List.length_singleton]; omega)]

/-- At an EOB leaf the bytes emitted are the result, with the counters of R237. -/
theorem Decoding.ends (h : Decoding s out) :
    Ends (complete (decodeAccounting s)) (.ok ⟨out, s.treeBits, s.ctx.rPos - s.treeBits⟩) := by
  obtain ⟨⟨-, herr, herrPos⟩, hpos, hlen, hout⟩ := h
  exact ⟨rfl, herr, herrPos, hlen, hout, rfl, rfl, (Nat.add_sub_of_le hpos).symm⟩

/-- `PH_D_WALK` ends DECODE as the reference's walk does, by induction on the bits not read yet (R233 to R237). -/
theorem finishes_of_dWalk (hp : s.phase = .dWalk) (h : Decoding s out) : Finishes s (walkEnding s out) := by
  unfold walkEnding
  generalize hbs : unread s = bs
  induction bs generalizing s out with
  | nil =>
    have hend : 8 * s.inLen ≤ s.ctx.rPos := by
      rw [← Nat.sub_eq_zero_iff_le, ← unread_length, hbs, List.length_nil]
    exact .cons h.host (busy_of_phase hp rfl) (engineStep_walk_at_end hp hend) (fault_ends s).finishes
  | cons b bs ih =>
    have hh := h.host
    have hb := busy_of_phase hp rfl
    have hrest : unread (s.skip 1) = bs := by rw [unread_skip, hbs]; rfl
    have hstep : engineStep s = (arrive (descend b s.ctx.cur) (s.skip 1)).toOutcome :=
      engineStep_walk hp (readBit_of_unread_cons hbs)
    rw [walkFrom]
    match hreach : descend b s.ctx.cur with
    | .internal l r =>
      rw [hreach] at hstep
      exact .cons hh hb hstep (ih hp h.skip_one hrest)
    | .leaf v true =>
      rw [hreach] at hstep
      exact .cons hh hb hstep h.skip_one.ends.finishes
    | .leaf v false =>
      rw [hreach] at hstep
      have hcap : overCap s.params (out.length + 1) = outFull (s.skip 1) := h.skip_one.overCap_eq_outFull
      simp only [hcap, Bool.false_eq_true, if_false]
      cases hfull : outFull (s.skip 1) with
      | true =>
        rw [arrive_symbol_full v hfull] at hstep
        exact .cons hh hb hstep (fault_ends (s.skip 1)).finishes
      | false =>
        rw [arrive_symbol v hfull] at hstep
        exact .cons hh hb hstep (ih (s := (s.skip 1).emittedSymbol v) hp (h.skip_one.emittedSymbol v) hrest)

/-- `PH_D_CHECK` faults where the tree has no EOB leaf, and else the walk begins at the root (R194, R233). -/
theorem finishes_of_dCheck (hp : s.phase = .dCheck) (h : Decoding s []) :
    Finishes s (if s.ctx.hasEob then walkEnding (s.withCtx { s.ctx with cur := s.ctx.root }) []
      else .error (.malformedNoEob, s.ctx.rPos)) := by
  have hh := h.host
  have hstep : engineStep s = checkEobStep s := by simp [engineStep, hp]
  unfold checkEobStep at hstep
  split_ifs at hstep ⊢ with heob
  · exact .cons hh (busy_of_phase hp rfl) hstep
      (finishes_of_dWalk (s := (s.withCtx { s.ctx with cur := s.ctx.root }).withPhase .dWalk) rfl h)
  · exact .cons hh (busy_of_phase hp rfl) hstep (fault_ends s).finishes

end

/-! ### The whole command -/

/-- The reference's DECODE is a tree, and then a walk over the bits behind it (R232). -/
theorem decodeBits_eq_bind (p : Params) (bs : Bits) :
    decodeBits p bs = (parseNode p (p.depthMax + 1) 1 0 false 0 bs).bind fun t =>
      if t.hasEob then (walkFrom p t.node t.rest t.pos t.node []).bind fun res => .ok ⟨res.1, t.pos, res.2 - t.pos⟩
      else .error (.malformedNoEob, t.pos) := by
  unfold decodeBits
  cases parseNode p (p.depthMax + 1) 1 0 false 0 bs with
  | error x => rfl
  | ok t =>
    simp only [Except.bind]
    cases walkFrom p t.node t.rest t.pos t.node [] <;> rfl

theorem startDecode_finishes {s : State} (hh : s.host = []) :
    Finishes (startDecode s) (decodeEnding s.params (inData (startDecode s))) := by
  rw [decodeEnding, decodeBits_eq_bind]
  refine finishes_of_dTree (s := startDecode s) (fuel := s.params.depthMax + 1) hh rfl
    (Nat.lt_add_right 1 (Nat.lt_succ_self _)) fun t hrest => ?_
  rw [← hrest]
  exact finishes_of_dCheck (s := finishNode t.node ((startDecode s).behindParsed t)) rfl
    ⟨⟨hh, rfl, rfl⟩, le_refl _, rfl, fun a => rfl⟩

/-- Settles O47: from its start step DECODE runs through its phases to the reference's end. -/
theorem decodeRuns : Obligations.DecodeRuns := fun s hb hh =>
  ⟨exec_decode_of_not_busy hb, startDecode_finishes (s := s) hh⟩

end Sys2Proof.Machine
end

section
/-! PROOF. O48: decoding undoes encoding (R240). The tree is read back because it is within the limits (R193, R196), and
from the root each code leads the walk to the leaf it is the path of (R180, R233), so each code is walked as its
symbol. -/

namespace Sys2Proof.Machine

/-! ### The tree is read back -/

/-- A tree within the limits is read from its serialization, whatever bits follow (R92, R196). -/
theorem parseNode_treeStream {p : Params} {t : Node} {fuel d n pos : Nat} {he : Bool} (rest : Bits)
    (hfuel : t.depth ≤ fuel) (hd : d + t.depth ≤ p.depthMax + 1) (hn : n + t.size ≤ p.nodeCap) :
    parseNode p fuel d n he pos (treeStream t ++ rest) =
      .ok ⟨t, n + t.size, he || decide (0 < t.eobLeaves), pos + (treeStream t).length, rest⟩ := by
  induction t generalizing fuel d n pos he rest with
  | leaf v e =>
    obtain ⟨fuel, rfl⟩ : ∃ m, fuel = m + 1 := ⟨fuel - 1, (Nat.sub_add_cancel hfuel).symm⟩
    refine parseNode_eq_ok.2 ⟨Nat.le_of_succ_le_succ hd, hn, .inl ⟨e, v, rest, rfl, ?_⟩⟩
    cases e <;> rfl
  | internal l r ihl ihr =>
    simp only [Node.depth, Node.size] at hfuel hd hn
    obtain ⟨fuel, rfl⟩ : ∃ m, fuel = m + 1 := ⟨fuel - 1, by omega⟩
    have hl := ihl (fuel := fuel) (d := d + 1) (n := n + 1) (pos := pos + 1) (he := he) (treeStream r ++ rest)
      (by omega) (by omega) (by omega)
    have hr := ihr (fuel := fuel) (d := d + 1) (n := n + 1 + l.size) (pos := pos + 1 + (treeStream l).length)
      (he := he || decide (0 < l.eobLeaves)) rest (by omega) (by omega) (by omega)
    refine parseNode_eq_ok.2 ⟨by omega, by omega, .inr ⟨_, _, _, ?_, hl, hr, ?_⟩⟩
    · simp [treeStream]
    · simp [Node.size, Node.eobLeaves, treeStream, tokenBits, Nat.add_assoc, Nat.add_comm 1, Bool.or_assoc]

/-! ### The codes are walked -/

/-- What the walk does at a leaf, the cursor behind the leaf's code at `pos` (R233, R235, R75). -/
def walkLeaf (p : Params) (root : Node) (v : Byte) (e : Bool) (bs : Bits) (pos : Nat) (out : List Byte) :
    Except (FaultKind × Nat) (List Byte × Nat) :=
  if e then .ok (out, pos)
  else if overCap p (out.length + 1) then .error (.outOverflow, 0)
  else walkFrom p root bs pos root (out ++ [v])

section
variable {p : Params} {root : Node} {v : Byte} {e : Bool} {bs : Bits} {pos : Nat} {out : List Byte}

theorem walkFrom_leaf {b : Bool} {cur : Node} (h : descend b cur = .leaf v e) :
    walkFrom p root (b :: bs) pos cur out = walkLeaf p root v e bs (pos + 1) out := by
  rw [walkFrom, h]
  rfl

theorem walkFrom_internal {b : Bool} {cur l r : Node} (h : descend b cur = .internal l r) :
    walkFrom p root (b :: bs) pos cur out = walkFrom p root bs (pos + 1) (.internal l r) out := by
  rw [walkFrom, h]

/-- The bits of a path below an inner node lead the walk to the node at its end (R180, R233). -/
theorem walkFrom_path {path : Bits} {l r : Node} (h : subtreeAt (.internal l r) path = some (.leaf v e)) :
    walkFrom p root (path ++ bs) pos (.internal l r) out = walkLeaf p root v e bs (pos + path.length) out := by
  induction path generalizing l r pos with
  | nil => cases h
  | cons b path ih =>
    have hnext : subtreeAt (descend b (.internal l r)) path = some (.leaf v e) := h
    cases hreach : descend b (.internal l r) with
    | leaf w f =>
      rw [hreach] at hnext
      obtain ⟨rfl, hleaf⟩ := subtreeAt_leaf hnext
      exact walkFrom_leaf (hreach.trans hleaf.symm)
    | internal l' r' =>
      rw [hreach] at hnext
      rw [List.cons_append, walkFrom_internal hreach, ih hnext, List.length_cons, Nat.add_assoc, Nat.add_comm 1]

/-- A leaf's code leads the walk from the root to that leaf; a leaf root is not left (R181, R233, R234). -/
theorem walkFrom_code {c : Bitcode} (h : IsLeafCode root v e c) :
    walkFrom p root (c ++ bs) pos root out = walkLeaf p root v e bs (pos + c.length) out := by
  cases root with
  | internal l r => exact walkFrom_path h.subtreeAt_internal
  | leaf w f =>
    obtain ⟨path, rfl, hpath⟩ := h
    obtain ⟨rfl, hleaf⟩ := subtreeAt_leaf hpath
    exact walkFrom_leaf hleaf.symm

end

theorem overCap_false_mono {p : Params} {m n : Nat} (h : overCap p n = false) (hmn : m ≤ n) : overCap p m = false := by
  rw [Bool.eq_false_iff, Ne, overCap_iff] at h ⊢
  exact fun ⟨c, hc, hlt⟩ => h ⟨c, hc, hlt.trans_le hmn⟩

/-- The codes of bytes and then EOB's are walked to those bytes, by induction on the bytes (R90, R233, R235). -/
theorem walkFrom_dataStream {p : Params} {root : Node} {t : CodeTable} (ht : CodesOf root t)
    (heob : t.eob.isSome = true) (bs : Bits) {data : List Byte} (hdata : ∀ b ∈ data, (codeOf t.slots b).isSome = true)
    {pos : Nat} {out : List Byte} (hcap : overCap p (out ++ data).length = false) :
    walkFrom p root (dataStream t data ++ bs) pos root out = .ok (out ++ data, pos + (dataStream t data).length) := by
  obtain ⟨hslots, heobs⟩ := ht
  induction data generalizing pos out with
  | nil =>
    obtain ⟨c, hc⟩ := Option.isSome_iff_exists.1 heob
    obtain ⟨v, hv⟩ := heobs c hc
    rw [dataStream_nil hc, walkFrom_code hv, List.append_nil]
    rfl
  | cons b data ih =>
    obtain ⟨c, hc⟩ := Option.isSome_iff_exists.1 (hdata b (List.mem_cons_self ..))
    have hroom : overCap p (out.length + 1) = false :=
      overCap_false_mono hcap (by rw [List.length_append, List.length_cons]; omega)
    rw [List.append_cons] at hcap
    have hrest := ih (fun x hx => hdata x (List.mem_cons_of_mem b hx)) hcap (pos := pos + c.length)
    rw [dataStream_cons hc, List.append_assoc, walkFrom_code (hslots b c hc), walkLeaf, hroom, if_neg nofun,
      if_neg nofun, hrest, ← List.append_cons, List.length_append, Nat.add_assoc]

/-! ### The payload -/

/-- The tree of an input is within the limits of every legal configuration (R193, R166). -/
theorem treeOf_fits {p : Params} (hp : p.wf = true) (data : List Byte) : (treeOf data).fits p = true := by
  simp only [Params.wf, Bool.and_eq_true, decide_eq_true_eq] at hp
  obtain ⟨⟨-, hcap⟩, hmax⟩ := hp
  have hsize := size_add_one (treeOf data)
  have hdepth := depth_le_leaves (treeOf data)
  have hleaves := treeOf_leaves_le_257 data
  simp only [Node.fits, Bool.and_eq_true, decide_eq_true_eq]
  omega

/-- The payload's bits are decoded to the data, whatever bits follow (R101, R235, R240). -/
theorem decodeBits_payloadBits {p : Params} {data : List Byte} (hp : p.wf = true)
    (hcap : overCap p data.length = false) (rest : Bits) :
    decodeBits p (payloadBits data ++ rest) =
      .ok ⟨data, (treeStream (treeOf data)).length, (dataStream (generate (treeOf data)) data).length⟩ := by
  have hfits := treeOf_fits hp data
  simp only [Node.fits, Bool.and_eq_true, decide_eq_true_eq] at hfits
  obtain ⟨hdepth, hsize⟩ := hfits
  have htree := parseNode_treeStream (p := p) (t := treeOf data) (fuel := p.depthMax + 1) (d := 1) (n := 0) (pos := 0)
    (he := false) (dataStream (generate (treeOf data)) data ++ rest) (by omega) (by omega) (by omega)
  have hwalk := walkFrom_dataStream (generate_codesOf (treeOf data)) (eob_treeOf_isSome data) rest
    (fun b hb => (codeOf_treeOf_isSome data b).2 hb) (pos := 0 + (treeStream (treeOf data)).length) (out := []) hcap
  rw [payloadBits, List.append_assoc]
  refine decodeBits_eq_ok.2 ⟨_, _, htree, by simp [treeOf_eobLeaves], hwalk, ?_⟩
  simp

/-- Settles O48: the bytes ENCODE makes hold the payload's bits, then padding (R100). -/
theorem roundTrip : Obligations.RoundTrip := by
  intro p data trailing hp hcap
  rw [decodeEnding, encodeBytes, bytesBits_append, bytesBits_packBits, List.append_assoc]
  exact decodeBits_payloadBits hp hcap _

end Sys2Proof.Machine
end

section
/-! PROOF. O5, O9, O12, O13, O23 and O27 to O30: HOST's writes and reads one by one, fault entry, and reset. A step
while HOST has a move waiting is that move, so each statement about a step is one about the move. -/

namespace Sys2Proof.Machine

/-! ### Writes of CTRL and IN_LEN -/

/-- Settles O5: HOST's waiting move is the write, and register 0 is `CTRL`. -/
theorem stepRunsCtrlWrite : Obligations.StepRunsCtrlWrite := fun _ _ _ hhost => step_hostMove hhost

/-- Settles O9: whatever bits 7:2 are, the value is decoded as NOP (R103). -/
theorem nopChangesNothing : Obligations.NopChangesNothing := by
  refine ⟨fun _ => rfl, fun s h ms hhost => ?_⟩
  obtain ⟨hnop, -⟩ := ctrlLowBitsSelectCommand h
  have hword : BitVec.ofNat 8 (h ++ 0b00#2).toNat = h ++ 0b00#2 := (BitVec.ofNat_toNat ..).trans (BitVec.setWidth_eq _)
  rw [stepRunsCtrlWrite s _ ms hhost, hword, hnop]
  rfl

/-- `ERR` is `(SUB << 4) | CODE` (R24, R270). -/
theorem FaultKind.err_fields (f : FaultKind) : f.err.extractLsb' 0 4 = f.code ∧ f.err.extractLsb' 4 4 = f.sub := by
  cases f <;> decide

theorem exec_reserved_of_not_busy {s : State} (hb : s.busy = false) : exec .reserved s = .next (startBad s) := by
  simp [exec, execReserved, hb]

/-- Settles O12: the start step clears the results and takes the fault. -/
theorem reservedRaisesBadCommand : Obligations.ReservedRaisesBadCommand := fun s hb =>
  have ⟨hcode, hsub⟩ := FaultKind.badCommand.err_fields
  ⟨startBad s, exec_reserved_of_not_busy hb, rfl, rfl, rfl, hcode, hsub, rfl, rfl, rfl, rfl, .refl s⟩

/-- Settles O27, by whether CORE is BUSY. -/
theorem inLenWrite : Obligations.InLenWrite := by
  intro s v ms hhost
  rw [step_hostMove hhost]
  constructor <;> intro hb <;> simp [hostStep, writeReg, hb]

/-- No command is accepted while BUSY (R250, R253). -/
theorem exec_decodeCtrl_of_busy (w : Byte) {s : State} (hb : s.busy = true) : exec (decodeCtrl w) s = .next s := by
  rcases decodeCtrl_cases w with hw | hw | hw | hw <;>
    simp [hw, exec, execNop, execEncode, execDecode, execReserved, hb]

/-- Settles O13: a write of `CTRL` is a command, which is not accepted; that of `IN_LEN` is O27's second case. -/
theorem busyIgnoresWrites : Obligations.BusyIgnoresWrites := by
  refine fun s v ms hb => ⟨fun hhost => ?_, fun hhost => (inLenWrite s v ms hhost).2 hb⟩
  rw [stepRunsCtrlWrite s v ms hhost]
  exact exec_decodeCtrl_of_busy _ hb

/-! ### IN and OUT -/

theorem inAddressOk_iff {s : State} {a : Nat} : inAddressOk s a = true ↔ a + 1 < 2 ^ s.params.lenW := decide_eq_true_iff

/-- `IN` has the addresses up to `2^LEN_W - 2` (R31). -/
theorem inAddressOk_of_le {s : State} {a : Nat} (ha : a ≤ 2 ^ s.params.lenW - 2) (hw : 1 ≤ s.params.lenW) :
    inAddressOk s a = true := by
  have htwo : 2 ^ 1 ≤ 2 ^ s.params.lenW := Nat.pow_le_pow_right Nat.two_pos hw
  rw [inAddressOk_iff]
  omega

/-- ENGINE reads the byte written last, and every other address as before (R255). -/
theorem inByte_memSet (s : State) (a : Nat) (b : Byte) (a' : Nat) :
    inByte { s with inMem := memSet s.inMem a b } a' = if a' = a then b else inByte s a' := by
  simp only [inByte, memGet_memSet]
  split_ifs <;> rfl

theorem writeIn_accepted {a : Nat} (b : Byte) {s : State} (hb : s.busy = false) (ha : inAddressOk s a = true) :
    writeIn a b s = .next { s with inMem := memSet s.inMem a b } := by
  simp [writeIn, hb, ha]

theorem readIn_written {s : State} {a : Nat} {b : Byte} (hb : s.busy = false) (h : memGet s.inMem a = some b) :
    readIn a s = (b, s) := by
  simp [readIn, h, hb]

theorem readIn_unwritten {s : State} {a : Nat} (h : memGet s.inMem a = none) : readIn a s = drawByte s := by
  simp [readIn, h]

/-- Settles O28: the address exists, so the write is made, and the read delivers what is listed or draws a free
value. -/
theorem hostLoadsIn : Obligations.HostLoadsIn := by
  intro s a ms hb ha hw
  have hok : inAddressOk { s with host := ms } a = true := inAddressOk_of_le ha hw
  refine ⟨fun b hhost => ?_, fun hhost => ?_⟩
  · have hstep : step s = .next { s with host := ms, inMem := memSet s.inMem a b } :=
      (step_hostMove hhost).trans (writeIn_accepted b hb hok)
    exact ⟨_, hstep, inByte_memSet { s with host := ms } a b, (memGet_memSet s.inMem a · b), rfl⟩
  · have hstep : step s = deliver (readIn a { s with host := ms }).1.toNat (readIn a { s with host := ms }).2 :=
      (step_hostMove hhost).trans (if_pos hok)
    refine ⟨fun b hlisted => ?_, fun hlisted => ⟨s.draws + 1, ?_⟩⟩
    · rw [hstep, readIn_written (s := { s with host := ms }) hb hlisted]
      rfl
    · rw [hstep, readIn_unwritten (s := { s with host := ms }) hlisted]
      rfl

theorem readOut_result {s : State} {a : Nat} {b : Byte} (hp : s.phase = .done) (ha : a < s.outLen)
    (h : memGet s.outMem a = some b) : readOut a s = (b, s) := by
  simp [readOut, h, hp, ha]

/-- Outside the result of a completed command a byte of `OUT` is a free value (R256). -/
theorem readOut_free {s : State} {a : Nat} (h : ¬ (s.phase = .done ∧ a < s.outLen)) : readOut a s = drawByte s := by
  unfold readOut
  split <;> simp [h]

/-- Settles O29: the read delivers the byte of the result, or draws a free value. -/
theorem hostReadsResult : Obligations.HostReadsResult := by
  intro s a ms hhost
  rw [step_hostMove hhost, hostStep]
  refine ⟨fun b hp ha hlisted => ?_, fun hfree => ?_⟩
  · rw [readOut_result (s := { s with host := ms }) hp ha hlisted]
    rfl
  · rw [readOut_free (s := { s with host := ms }) hfree]
    rfl

/-! ### Fault entry and reset -/

/-- In ERROR a counter reads as a free value (R277, I22). -/
theorem readCounter_of_fault {s : State} (hp : s.phase = .fault) (v : Nat) :
    (readCounter v s).1 = freeCounter s.params s.draws := by
  simp [readCounter, hp, Phase.countersDefined]

/-- Settles O23: `ERR` and `ERR_POS` by the six faults, the rest whatever the fault. -/
theorem faultEntryRecords : Obligations.FaultEntryRecords := by
  intro f pos s
  obtain ⟨hcode, hsub⟩ := f.err_fields
  refine ⟨by cases f <;> rfl, hcode, hsub, by cases f <;> rfl, rfl, rfl, rfl, .refl s, fun a => ?_, ?_,
    s.draws + 3, rfl⟩
  · rw [readOut_free (fun ⟨hdone, _⟩ => nomatch hdone)]
    rfl
  · rintro n (rfl | rfl | rfl) <;> exact readCounter_of_fault rfl _

/-- After reset, of either kind, the registers and buffers are those of `State.reset`; the context, the parameters and
the model's own fields are not said (R301). -/
theorem reset_cases {t : State} (h : t = State.reset ∨ ∃ s ms, s.host = .reset :: ms ∧ step s = .next t) :
    ∃ c p hs r d e, t = { State.reset with ctx := c, params := p, host := hs, rdata := r, draws := d, era := e } := by
  obtain rfl | ⟨s, ms, hhost, hstep⟩ := h
  · exact ⟨_, _, _, _, _, _, rfl⟩
  · rw [step_hostMove hhost] at hstep
    cases hstep
    exact ⟨_, _, _, _, _, _, rfl⟩

/-- Settles O30: both kinds of reset leave the registers of `State.reset`, and the reset input is accepted in every
state. -/
theorem resetState : Obligations.ResetState := by
  refine ⟨fun t ht => ?_, fun s ms hhost => ⟨_, step_hostMove hhost, rfl, rfl⟩⟩
  obtain ⟨c, p, hs, r, d, e, rfl⟩ := reset_cases ht
  exact ⟨rfl, rfl, rfl, rfl, rfl, rfl, rfl, rfl, rfl, rfl, rfl, fun _ => rfl, fun _ => rfl, rfl⟩

end Sys2Proof.Machine
end

section
/-! PROOF. O60: the only stops are those of HOST's misuse of `IN` (R305, R31). Three moves of HOST can stop at all: the
write of a byte of `IN`, the read of one, and the copy of ROUNDTRIP. -/

namespace Sys2Proof.Machine

/-- `a` is above the greatest address of `IN` (R31); with `LEN_W = 0`, no legal configuration, there is none. -/
def IsBeyondIn (s : State) (a : Nat) : Prop := 2 ^ s.params.lenW - 2 < a ∨ s.params.lenW = 0

theorem isBeyondIn_of_not_inAddressOk {s : State} {a : Nat} (h : ¬ inAddressOk s a = true) : IsBeyondIn s a := by
  refine or_iff_not_imp_right.2 fun hw => Nat.lt_of_not_le fun ha => h (inAddressOk_of_le ha ?_)
  exact Nat.pos_of_ne_zero hw

/-- How an access of `IN` by HOST stops: made while BUSY where it writes (R305), or at an address that does not exist
(R31). -/
inductive Misuses (s : State) : HostMove → Fault → Prop where
  | writeWhileBusy (a : Nat) (b : Byte) (hb : s.busy = true) : Misuses s (.inWrite a b) .inWriteWhileBusy
  | copyWhileBusy (hb : s.busy = true) : Misuses s .copyBack .inWriteWhileBusy
  | writeBeyond {a : Nat} (b : Byte) (ha : IsBeyondIn s a) : Misuses s (.inWrite a b) .noSuchInAddress
  | readBeyond {a : Nat} (ha : IsBeyondIn s a) : Misuses s (.inRead a) .noSuchInAddress
  | copyBeyond (hlen : 2 ^ s.params.lenW - 1 < s.outLen) : Misuses s .copyBack .noSuchInAddress

/-- A move of HOST answers a next state, or stops because it is a misuse of `IN`. -/
def AnswersOrMisuses (s : State) (m : HostMove) : Prop :=
  (∃ t, hostStep m s = .next t) ∨ ∃ f, hostStep m s = .fault f ∧ Misuses s m f

theorem inWrite_answersOrMisuses (s : State) (a : Nat) (b : Byte) : AnswersOrMisuses s (.inWrite a b) := by
  unfold AnswersOrMisuses
  rw [hostStep, writeIn]
  split_ifs with hb ha
  · exact .inr ⟨_, rfl, .writeWhileBusy a b hb⟩
  · exact .inl ⟨_, rfl⟩
  · exact .inr ⟨_, rfl, .writeBeyond b (isBeyondIn_of_not_inAddressOk ha)⟩

theorem inRead_answersOrMisuses (s : State) (a : Nat) : AnswersOrMisuses s (.inRead a) := by
  unfold AnswersOrMisuses
  rw [hostStep, readInMove]
  split_ifs with ha
  · exact .inl ⟨_, rfl⟩
  · exact .inr ⟨_, rfl, .readBeyond (isBeyondIn_of_not_inAddressOk ha)⟩

theorem copyBack_answersOrMisuses (s : State) : AnswersOrMisuses s .copyBack := by
  unfold AnswersOrMisuses
  rw [hostStep, copyBackMove]
  split_ifs with hb hlen
  · exact .inr ⟨_, rfl, .copyWhileBusy hb⟩
  · exact .inl ⟨_, rfl⟩
  · exact .inr ⟨_, rfl, .copyBeyond (Nat.sub_one_lt_of_le (Nat.two_pow_pos _) (Nat.not_lt.1 hlen))⟩

/-- Where the lookups succeed the other moves answer a next state, those that give ENGINE the turn included (R184). -/
theorem hostStep_answersOrMisuses {s : State} (hs : CodeInv s) (m : HostMove) : AnswersOrMisuses s m := by
  cases m with
  | regWrite n v => exact .inl (writeReg_answers n v s)
  | regRead n => exact .inl ⟨_, rfl⟩
  | inWrite a b => exact inWrite_answersOrMisuses s a b
  | inRead a => exact inRead_answersOrMisuses s a
  | outRead a => exact .inl ⟨_, rfl⟩
  | reset => exact .inl ⟨_, rfl⟩
  | yield => exact .inl (engineStep_answers hs)
  | wait =>
    refine .inl ?_
    rw [hostStep_wait]
    split
    · exact engineStep_answers ((codeInv_with_host _ s.rdata s.draws).2 hs)
    · exact ⟨s, rfl⟩
  | copyBack => exact copyBack_answersOrMisuses s

/-- Where the lookups succeed a step answers a next state, or stops at a waiting move of HOST that is a misuse of
`IN`. -/
theorem step_answers_or_misuses {s : State} (hs : CodeInv s) :
    (∃ t, step s = .next t) ∨
    ∃ m ms f, s.host = m :: ms ∧ step s = .fault f ∧ Misuses { s with host := ms } m f := by
  rcases step_cases s with ⟨-, he⟩ | ⟨m, ms, hhost, he⟩ <;> rw [he]
  · exact .inl (engineStep_answers hs)
  · obtain hnext | ⟨f, hf, hm⟩ := hostStep_answersOrMisuses ((codeInv_with_host ms s.rdata s.draws).2 hs) m
    · exact .inl hnext
    · exact .inr ⟨m, ms, f, hhost, hf, hm⟩

/-- Settles O60, by the kind of misuse. -/
theorem onlyHostMisuseStops : Obligations.OnlyHostMisuseStops := by
  intro s hs
  obtain ⟨t, ht⟩ | ⟨m, ms, f, hhost, hf, hm⟩ := step_answers_or_misuses hs
  · rw [ht]
    exact ⟨nofun, nofun⟩
  · rw [hf]
    refine ⟨nofun, fun g hg => ?_⟩
    cases hg
    cases hm with
    | writeWhileBusy a b hb => exact .inl ⟨rfl, hb, .inl ⟨a, b, ms, hhost⟩⟩
    | copyWhileBusy hb => exact .inl ⟨rfl, hb, .inr ⟨ms, hhost⟩⟩
    | writeBeyond b ha => exact .inr ⟨rfl, ha.imp (⟨_, b, ms, hhost, ·⟩) (.inr ∘ .inr)⟩
    | readBeyond ha => exact .inr ⟨rfl, .inr (ha.imp (⟨_, ms, hhost, ·⟩) .inr)⟩
    | copyBeyond hlen => exact .inr ⟨rfl, .inr (.inr (.inl ⟨ms, hhost, hlen⟩))⟩

end Sys2Proof.Machine
end

section
/-! PROOF. O50: a payload that is cut short (R310, R236). Where DECODE completes it reads each of its bits in order, so
with fewer bits it comes to the end of them and raises OutOfData there. -/

namespace Sys2Proof.Machine

/-- Bits that end inside a token are no token (R92). -/
theorem decodeToken_cut {i : Instr} (hi : i.isToken = true) (rest : Bits) {k : Nat} (hk : k < (tokenBits i).length) :
    ∃ x, decodeToken ((tokenBits i ++ rest).take k) = .error x := by
  cases htok : decodeToken ((tokenBits i ++ rest).take k) with
  | error x => exact ⟨x, rfl⟩
  | ok res =>
    obtain ⟨j, left⟩ := res
    obtain ⟨hj, hbits⟩ := eq_tokenBits_append htok
    have hwhole : tokenBits i ++ rest = tokenBits j ++ (left ++ (tokenBits i ++ rest).drop k) := by
      rw [← List.append_assoc, ← hbits, List.take_append_drop]
    have hsame : j = i := by
      have hj' := decodeToken_tokenBits hj (left ++ (tokenBits i ++ rest).drop k)
      rw [← hwhole, decodeToken_tokenBits hi] at hj'
      exact (Prod.mk.inj (Except.ok.inj hj')).1.symm
    have hlen := congrArg List.length hbits
    rw [hsame, List.length_take, List.length_append, List.length_append] at hlen
    omega

section
variable {p : Params} {fuel d n pos k : Nat} {he : Bool} {bs rest : Bits}

/-- A node whose first token is cut raises OutOfData at the end of the bits (R192, R193). -/
theorem parseNode_token_cut {i : Instr} (hi : i.isToken = true) (hd : d ≤ p.depthMax) (hn : n < p.nodeCap)
    (hk : k < (tokenBits i).length) :
    parseNode p (fuel + 1) d n he pos ((tokenBits i ++ rest).take k) = .error (.outOfData, pos + k) := by
  obtain ⟨x, hx⟩ := decodeToken_cut hi rest hk
  rw [parseNode_truncated hd hn hx, List.length_take_of_le (by rw [List.length_append]; omega)]

/-- Behind an inner node's marker, a fault in the left subtree is the node's. -/
theorem parseNode_internal_error_left {x : FaultKind × Nat} (hd : d ≤ p.depthMax) (hn : n < p.nodeCap)
    (hl : parseNode p fuel (d + 1) (n + 1) he (pos + 1) rest = .error x) :
    parseNode p (fuel + 1) d n he pos (tokenBits .treeInternal ++ rest) = .error x := by
  simp [parseNode, Nat.not_lt.2 hd, Nat.not_le.2 hn, decodeToken_treeInternal, hl]

/-- So is one in the right subtree. -/
theorem parseNode_internal_error_right {x : FaultKind × Nat} {l : Parsed} (hd : d ≤ p.depthMax) (hn : n < p.nodeCap)
    (hl : parseNode p fuel (d + 1) (n + 1) he (pos + 1) rest = .ok l)
    (hr : parseNode p fuel (d + 1) l.nNodes l.hasEob l.pos l.rest = .error x) :
    parseNode p (fuel + 1) d n he pos (tokenBits .treeInternal ++ rest) = .error x := by
  simp [parseNode, Nat.not_lt.2 hd, Nat.not_le.2 hn, decodeToken_treeInternal, hl, hr]

/-- A tree that is cut raises OutOfData at the end of the bits: in its first token, in the left subtree, or in the right
one (R192). -/
theorem parseNode_cut {t : Parsed} (h : parseNode p fuel d n he pos bs = .ok t)
    (hk : k < (treeStream t.node).length) :
    parseNode p fuel d n he pos (bs.take k) = .error (.outOfData, pos + k) := by
  induction fuel generalizing d n he pos bs t k with
  | zero => cases h
  | succ fuel ih =>
    obtain ⟨hd, hn, ⟨e, v, rest, rfl, rfl⟩ | ⟨rest, l, r, rfl, hl, hr, rfl⟩⟩ := parseNode_eq_ok.1 h
    · exact parseNode_token_cut rfl hd hn hk
    · cases k with
      | zero => exact parseNode_token_cut rfl hd hn Nat.one_pos
      | succ k =>
        have hpos : pos + (k + 1) = pos + 1 + k := by omega
        rw [hpos]
        obtain ⟨hbits, hlpos, hlsame⟩ := parseNode_reads hl
        by_cases hkl : k < (treeStream l.node).length
        · exact parseNode_internal_error_left (rest := rest.take k) hd hn (ih hl hkl)
        · obtain ⟨j, rfl⟩ := Nat.exists_eq_add_of_le (Nat.not_lt.1 hkl)
          have hj : j < (treeStream r.node).length := by
            simp only [treeStream, tokenBits, List.length_append, List.length_singleton] at hk
            omega
          have hcut : rest.take ((treeStream l.node).length + j) = treeStream l.node ++ l.rest.take j := by
            rw [hbits, List.take_length_add_append]
          have hend : pos + 1 + ((treeStream l.node).length + j) = l.pos + j := by omega
          rw [hend]
          exact parseNode_internal_error_right (rest := rest.take _) hd hn (hcut ▸ hlsame _) (ih hr hj)

end

/-- A walk that is cut raises OutOfData at the end of the bits (R236). -/
theorem walkFrom_cut {p : Params} {root cur : Node} {bs : Bits} {pos k : Nat} {out : List Byte} {res : List Byte × Nat}
    (h : walkFrom p root bs pos cur out = .ok res) (hk : pos + k < res.2) :
    walkFrom p root (bs.take k) pos cur out = .error (.outOfData, pos + k) := by
  induction bs generalizing pos cur out k with
  | nil => cases h
  | cons b bs ih =>
    cases k with
    | zero => rfl
    | succ k =>
      obtain hend | hover | ⟨cur', out', hon⟩ := walkFrom_cons_cases p root b pos cur out
      · obtain rfl := Except.ok.inj ((hend bs).symm.trans h)
        simp only at hk
        omega
      · cases (hover bs).symm.trans h
      · have hpos : pos + (k + 1) = pos + 1 + k := by omega
        rw [hpos] at hk ⊢
        exact (hon _).trans (ih ((hon bs).symm.trans h) hk)

/-- A stream cut before the end of what DECODE reads raises OutOfData at the cut: in its tree, or in the walk (R310). -/
theorem decodeBits_cut {p : Params} {bs : Bits} {r : Report} {k : Nat} (h : decodeBits p bs = .ok r)
    (hk : k < r.treeBits + r.dataBits) : decodeBits p (bs.take k) = .error (.outOfData, k) := by
  obtain ⟨t, res, ht, heob, hwalk, rfl⟩ := decodeBits_eq_ok.1 h
  obtain ⟨hbits, hpos, hsame⟩ := parseNode_reads ht
  rw [Nat.zero_add] at hpos
  by_cases hkt : k < (treeStream t.node).length
  · have hcut := parseNode_cut ht hkt
    rw [Nat.zero_add] at hcut
    simp [decodeBits, hcut]
  · obtain ⟨j, rfl⟩ := Nat.exists_eq_add_of_le (Nat.not_lt.1 hkt)
    have hcut := walkFrom_cut hwalk (k := j) (by simp only at hk; omega)
    rw [hbits, List.take_length_add_append]
    simp [decodeBits, hsame, heob, hcut, ← hpos]

theorem bytesBits_take (l : List Byte) (n : Nat) : bytesBits (l.take n) = (bytesBits l).take (8 * n) := by
  by_cases hn : n ≤ l.length
  · have hfirst : (bytesBits (l.take n)).length = 8 * n := by rw [bytesBits_length, List.length_take_of_le hn]
    conv_rhs => rw [← List.take_append_drop n l, bytesBits_append]
    exact (List.take_left' hfirst).symm
  · rw [List.take_of_length_le (by omega), List.take_of_length_le (by rw [bytesBits_length]; omega)]

/-- Settles O50: a payload has less than a byte of padding (R100), so a byte cut off takes bits that DECODE reads. -/
theorem shortenedPayloadFaults : Obligations.ShortenedPayloadFaults := by
  intro p data n hp hcap hn
  have hroom : overCap p data.length = false := by simp [overCap, hcap]
  rw [encodeBytes, packBits_length] at hn
  rw [decodeEnding, bytesBits_take, encodeBytes, bytesBits_packBits]
  refine decodeBits_cut (decodeBits_payloadBits hp hroom _) ?_
  rw [payloadBits, List.length_append] at hn
  simp only
  omega

end Sys2Proof.Machine
end

section
/-! PROOF. O49: ROUNDTRIP (R258). A command that HOST waits for runs as it does where HOST has nothing left to do,
because ENGINE does not look at HOST's moves; so the ends of ENCODE and DECODE are those of O46 and O47. Between them the
copy puts the payload into `IN`, and decoding it gives the data back (O48). -/

namespace Sys2Proof.Machine

/-! ### ENGINE does not look at HOST's moves -/

/-- `s` with other moves of HOST still to make. -/
def State.withHost (s : State) (ms : List HostMove) : State := { s with host := ms }

@[simp] theorem State.withHost_phase (s : State) (ms : List HostMove) : (s.withHost ms).phase = s.phase := rfl
@[simp] theorem State.withHost_ctx (s : State) (ms : List HostMove) : (s.withHost ms).ctx = s.ctx := rfl

/-- The result of an operation, with other moves of HOST still to make. -/
def Res.withHost {α : Type} (ms : List HostMove) : Res α → Res α
  | .ok a s => .ok a (s.withHost ms)
  | .raised s => .raised (s.withHost ms)
  | .fault f => .fault f
  | .refused r => .refused r

/-- The outcome of a move, with other moves of HOST still to make. -/
def outcomeWithHost (ms : List HostMove) : Host.Outcome State Fault Refusal → Host.Outcome State Fault Refusal
  | .next s => .next (s.withHost ms)
  | .fault f => .fault f
  | .refused r => .refused r

section
variable (ms : List HostMove) (s : State)

theorem Res.toOutcome_withHost {α : Type} (x : Res α) :
    (x.withHost ms).toOutcome = outcomeWithHost ms x.toOutcome := by
  cases x <;> rfl

/-- A sequence does not look at HOST's moves where its parts do not. -/
theorem Res.bind_withHost {α β : Type} {x x' : Res α} {f f' : α → State → Res β} (hx : x' = x.withHost ms)
    (hf : ∀ a u, f' a (u.withHost ms) = (f a u).withHost ms) : x'.bind f' = (x.bind f).withHost ms := by
  subst hx
  cases x with
  | ok a u => exact hf a u
  | raised u | fault r | refused r => rfl

theorem Res.toOutcome_bind_withHost {α β : Type} {x x' : Res α} {f f' : α → State → Res β} (hx : x' = x.withHost ms)
    (hf : ∀ a u, f' a (u.withHost ms) = (f a u).withHost ms) :
    (x'.bind f').toOutcome = outcomeWithHost ms (x.bind f).toOutcome := by
  rw [Res.bind_withHost ms hx hf, Res.toOutcome_withHost]

theorem emit_withHost (b : Byte) : emit b (s.withHost ms) = (emit b s).withHost ms := by
  unfold emit
  rw [apply_ite (Res.withHost ms)]
  rfl

theorem writeBit_withHost (v : Bool) : writeBit v (s.withHost ms) = (writeBit v s).withHost ms := by
  unfold writeBit
  rw [apply_ite (Res.withHost ms)]
  exact if_congr Iff.rfl (Res.bind_withHost ms (emit_withHost ms (takeBit v s) _) fun _ _ => rfl) rfl

theorem writeBits_withHost (bs : Bits) : writeBits bs (s.withHost ms) = (writeBits bs s).withHost ms := by
  induction bs generalizing s with
  | nil => rfl
  | cons b bs ih => exact Res.bind_withHost ms (writeBit_withHost ms s b) fun _ u => ih u

theorem finish_withHost : finish (s.withHost ms) = (finish s).withHost ms := by
  unfold finish
  rw [apply_ite (Res.withHost ms)]
  exact if_congr Iff.rfl (Res.bind_withHost ms (emit_withHost ms s _) fun _ _ => rfl) rfl

theorem readBit_withHost : readBit (s.withHost ms) = (readBit s).withHost ms := by
  unfold readBit
  rw [apply_ite (Res.withHost ms)]
  rfl

theorem enterNode_withHost : enterNode (s.withHost ms) = (enterNode s).withHost ms := by
  unfold enterNode
  rw [apply_ite (Res.withHost ms), apply_ite (Res.withHost ms)]
  rfl

theorem finishNode_withHost (n : Node) : finishNode n (s.withHost ms) = (finishNode n s).withHost ms := by
  unfold finishNode
  rw [State.withHost_ctx]
  split <;> rfl

theorem arrive_withHost (n : Node) : arrive n (s.withHost ms) = (arrive n s).withHost ms := by
  cases n with
  | internal l r => rfl
  | leaf v e =>
    cases e with
    | true => rfl
    | false => exact Res.bind_withHost ms (emit_withHost ms s v) fun _ _ => rfl

/-- A token is executed whatever HOST has still to do, where it is read and where it is written. -/
theorem exec_token_withHost {i : Instr} (hi : i.isToken = true) (hp : s.phase = .dTree ∨ s.phase = .eTree) :
    exec i (s.withHost ms) = outcomeWithHost ms (exec i s) := by
  obtain hp | hp := hp
  · cases i with
    | nop | encode | decode | reserved => cases hi
    | treeInternal =>
      rw [exec_treeInternal_reads hp, exec_treeInternal_reads (s := s.withHost ms) hp]
      exact Res.toOutcome_bind_withHost ms (enterNode_withHost ms s) fun _ _ => rfl
    | treeLeaf e v =>
      rw [exec_treeLeaf_reads hp, exec_treeLeaf_reads (s := s.withHost ms) hp]
      exact Res.toOutcome_bind_withHost ms (enterNode_withHost ms s) fun _ u =>
        congrArg _ (finishNode_withHost ms (u.withCtx _) _)
  · rw [exec_token_writes hi hp, exec_token_writes (s := s.withHost ms) hi hp]
    exact Res.toOutcome_bind_withHost ms (writeBits_withHost ms s _) fun _ _ => rfl

theorem buildStep_withHost : buildStep (s.withHost ms) = outcomeWithHost ms (buildStep s) := by
  unfold buildStep
  rw [State.withHost_ctx]
  split
  · split <;> rfl
  · rfl
  · rfl

theorem writeTreeStep_withHost (hp : s.phase = .eTree) :
    writeTreeStep (s.withHost ms) = outcomeWithHost ms (writeTreeStep s) := by
  unfold writeTreeStep
  rw [State.withHost_ctx]
  split
  · rfl
  · exact exec_token_withHost ms (s.withCtx _) (isToken_tokenOf _) (.inr hp)

theorem dataStep_withHost : dataStep (s.withHost ms) = outcomeWithHost ms (dataStep s) := by
  have hcode : codeOf (s.withHost ms).ctx.ct (inByte (s.withHost ms) (s.withHost ms).ctx.eIdx) =
      codeOf s.ctx.ct (inByte s s.ctx.eIdx) := rfl
  unfold dataStep
  rw [apply_ite (outcomeWithHost ms)]
  refine if_congr Iff.rfl ?_ rfl
  rw [hcode]
  split
  · rfl
  · exact Res.toOutcome_bind_withHost ms (writeBits_withHost ms s _) fun _ _ => rfl

theorem eobStep_withHost : eobStep (s.withHost ms) = outcomeWithHost ms (eobStep s) := by
  unfold eobStep
  rw [State.withHost_ctx]
  split
  · rfl
  · exact Res.toOutcome_bind_withHost ms (writeBits_withHost ms s _) fun _ _ => rfl

theorem readTreeStep_withHost (hp : s.phase = .dTree) :
    readTreeStep (s.withHost ms) = outcomeWithHost ms (readTreeStep s) := by
  have hpeek : peekToken (s.withHost ms) = peekToken s := rfl
  unfold readTreeStep
  rw [hpeek]
  split
  · next i hi => exact exec_token_withHost ms s (peekToken_eq_some_iff.1 hi).1 (.inl hp)
  · exact Res.toOutcome_bind_withHost ms (enterNode_withHost ms s) fun _ _ => rfl

/-- ENGINE's move is the same whatever HOST has still to do (R16). -/
theorem engineStep_withHost : engineStep (s.withHost ms) = outcomeWithHost ms (engineStep s) := by
  unfold engineStep
  rw [State.withHost_phase]
  cases hp : s.phase with
  | idle | done | fault => rfl
  | eFreq => simp only [analyzeStep, apply_ite (outcomeWithHost ms)]; rfl
  | eBuild => exact buildStep_withHost ms s
  | eCodes => rfl
  | eTree => exact writeTreeStep_withHost ms s hp
  | eData => exact dataStep_withHost ms s
  | eEob => exact eobStep_withHost ms s
  | eFinish => exact Res.toOutcome_bind_withHost ms (finish_withHost ms s) fun _ _ => rfl
  | dTree => exact readTreeStep_withHost ms s hp
  | dCheck => simp only [checkEobStep, apply_ite (outcomeWithHost ms)]; rfl
  | dWalk => exact Res.toOutcome_bind_withHost ms (readBit_withHost ms s) fun b u => arrive_withHost ms u _

end

/-! ### A command that HOST waits for -/

/-- While BUSY a waiting HOST leaves the turn to ENGINE (R107, R304). -/
theorem step_wait_busy {s t : State} (ms : List HostMove) (hb : s.busy = true) (h : engineStep s = .next t) :
    step (s.withHost (.wait :: ms)) = .next (t.withHost (.wait :: ms)) := by
  have hturn : step (s.withHost (.wait :: ms)) = engineStep (s.withHost (.wait :: ms)) :=
    step_of_engine_turn (ms := ms) hb (.inr (.inr ⟨rfl, rfl⟩))
  rw [hturn, engineStep_withHost, h]
  rfl

/-- At the end of the command the wait is over. -/
theorem step_wait_over {s : State} (ms : List HostMove) (hb : s.busy = false) :
    step (s.withHost (.wait :: ms)) = .next (s.withHost ms) := by
  rw [step_hostMove (s := s.withHost _) rfl, hostStep_wait]
  exact if_neg (Bool.eq_false_iff.1 hb)

/-- The run of a command, HOST waiting for it, and then going on with `ms` (R107). -/
theorem Reaches.wait {s t : State} {k : Nat} (ms : List HostMove) (hh : s.host = []) (h : Reaches s k t)
    (hbusy : ∀ j < k, ∃ u, Reaches s j u ∧ u.busy = true) (ht : t.busy = false) :
    Reaches (s.withHost (.wait :: ms)) (k + 1) (t.withHost ms) := by
  induction k generalizing s with
  | zero =>
    cases h
    exact .cons (step_wait_over ms ht) (.zero _)
  | succ k ih =>
    obtain ⟨u, hu, hrun⟩ := reaches_succ_iff.1 h
    have hstep : engineStep s = .next u := (step_of_host_nil hh).symm.trans hu
    have hsb : s.busy = true := by
      obtain ⟨v, hv, hvb⟩ := hbusy 0 (Nat.zero_lt_succ k)
      cases hv
      exact hvb
    obtain ⟨-, -, -, hhost, -⟩ := (engineStep_move hstep).sameInput
    refine .cons (step_wait_busy ms hsb hstep) (ih (hhost.trans hh) hrun fun j hj => ?_)
    obtain ⟨v, hv, hvb⟩ := hbusy (j + 1) (Nat.succ_lt_succ hj)
    obtain ⟨u', hu', hrun'⟩ := reaches_succ_iff.1 hv
    cases hu.symm.trans hu'
    exact ⟨v, hrun', hvb⟩

theorem Ends.withHost {t : State} {e : Ending} (h : Ends t e) (ms : List HostMove) : Ends (t.withHost ms) e := by
  cases e <;> exact h

/-- A command HOST waits for ends as it does where HOST has nothing left to do. -/
theorem Finishes.wait {s : State} {e : Ending} (ms : List HostMove) (hh : s.host = []) (h : Finishes s e) :
    ∃ k t, Reaches (s.withHost (.wait :: ms)) k (t.withHost ms) ∧ Ends t e ∧ SameInput s t := by
  obtain ⟨k, t, hrun, hbusy, hends, hsame⟩ := h
  exact ⟨k + 1, t, hrun.wait ms hh hbusy hends.not_busy, hends, hsame⟩

/-- HOST writes a command to `CTRL` and waits for it (R107, R250). -/
theorem command_and_wait {s u : State} {v : Nat} {e : Ending} (ms : List HostMove)
    (hexec : ∀ hs, exec (decodeCtrl (BitVec.ofNat 8 v)) (s.withHost hs) = .next (u.withHost hs))
    (hrun : Finishes (u.withHost []) e) :
    ∃ k t, Reaches (s.withHost (.regWrite 0 v :: .wait :: ms)) k (t.withHost ms) ∧ Ends t e ∧ t.params = u.params := by
  obtain ⟨k, t, hwait, hends, -, -, hparams, -⟩ := hrun.wait ms rfl
  have hstart := stepRunsCtrlWrite (s.withHost (.regWrite 0 v :: .wait :: ms)) v (.wait :: ms) rfl
  exact ⟨k + 1, t, .cons (hstart.trans (hexec _)) hwait, hends, hparams⟩

/-! ### The copy, and the whole program -/

/-- While not BUSY, and with room for the result, the copy is made (R258). -/
theorem copyBackMove_accepted {s : State} (hb : s.busy = false) (hfits : s.outLen < 2 ^ s.params.lenW) :
    copyBackMove s = .next { s with
      inMem := (copyBytes s.outLen 0 s).inMem, draws := (copyBytes s.outLen 0 s).draws, inLen := s.outLen } := by
  rw [copyBackMove, if_neg (Bool.eq_false_iff.1 hb), if_pos hfits, copyBytes_same]

/-- The copy puts the result of a completed command into `IN`, whole (R258). -/
theorem copyBack_loads {s : State} {r : Report} (ms : List HostMove) (h : Ends s (.ok r))
    (hfits : r.out.length < 2 ^ s.params.lenW) :
    ∃ t : State, step (s.withHost (.copyBack :: ms)) = .next (t.withHost ms) ∧ t.busy = false ∧ t.params = s.params ∧
      t.inLen = r.out.length ∧ ∀ j < t.inLen, memGet t.inMem j = r.out[j]? := by
  have hb := h.not_busy
  obtain ⟨hp, -, -, hlen, hout, -⟩ := h
  have hlisted : ∀ j, 0 ≤ j → j < 0 + s.outLen → (memGet s.outMem j).isSome = true := fun j _ hj => by
    rw [hout, List.getElem?_eq_getElem (by omega)]
    rfl
  have hcopy := copyBytes_memGet s.outLen 0 (s.withHost ms) hp (Nat.zero_add _).le hlisted
  have hstep : step (s.withHost (.copyBack :: ms)) = copyBackMove (s.withHost ms) :=
    step_hostMove (m := .copyBack) (ms := ms) rfl
  refine ⟨{ s with inMem := _, draws := _, inLen := s.outLen },
    hstep.trans (copyBackMove_accepted (s := s.withHost ms) hb (hlen ▸ hfits)), hb, rfl, hlen, fun j hj => ?_⟩
  refine (hcopy j).trans ((if_pos ⟨Nat.zero_le j, ?_⟩).trans (hout j))
  rwa [Nat.zero_add]

theorem withHost_of_host_eq {s : State} {ms : List HostMove} (h : s.host = ms) : s.withHost ms = s := by
  subst h
  rfl

/-- Settles O49: ENCODE, the copy, DECODE, each from where the one before it ends. -/
theorem roundtripProgramRuns : Obligations.RoundtripProgramRuns := by
  intro s hb hhost hp hcap hfits
  have huncapped (n : Nat) : overCap s.params n = false := by simp [overCap, hcap]
  have hencode : Finishes ((startEncode s).withHost []) (encodeEnding s.params (inData (startEncode s))) :=
    startEncode_finishes (s := s.withHost []) rfl
  rw [encodeEnding, if_neg (by simp [huncapped])] at hencode
  obtain ⟨k₁, t₁, hrun₁, hends₁, hparams₁⟩ := command_and_wait (s := s) (u := startEncode s) (v := 0x01)
    [.copyBack, .regWrite 0 0x02, .wait] (fun hs => exec_encode_of_not_busy (s := s.withHost hs) hb) hencode
  obtain ⟨t₂, hcopy, hb₂, hparams₂, hlen₂, hmem₂⟩ :=
    copyBack_loads [.regWrite 0 0x02, .wait] hends₁ (hparams₁ ▸ hfits)
  have hpayload : inData (startDecode t₂) = encodeBytes (inData (startEncode s)) := inData_eq hlen₂ hmem₂
  have hparams : t₂.params = s.params := hparams₂.trans hparams₁
  have hdecode : Finishes ((startDecode t₂).withHost []) (decodeEnding t₂.params (inData (startDecode t₂))) :=
    startDecode_finishes (s := t₂.withHost []) rfl
  have hback := roundTrip s.params (inData (startEncode s)) [] hp (huncapped _)
  rw [List.append_nil] at hback
  rw [hpayload, hparams, hback] at hdecode
  obtain ⟨k₃, t₃, hrun₃, hends₃, -⟩ := command_and_wait (s := t₂) (u := startDecode t₂) (v := 0x02) []
    (fun hs => exec_decode_of_not_busy (s := t₂.withHost hs) hb₂) hdecode
  rw [← withHost_of_host_eq hhost]
  exact ⟨_, _, hrun₁.trans (.cons hcopy hrun₃), rfl, hends₃.withHost []⟩

end Sys2Proof.Machine
end
